-- ==== Sys2Proof/Word.lean ====
section
/-!
DEFINITION. The word types of the hardware (00_scope.md R14): a bit is 0 or 1, every multi-bit value is unsigned.
A bit is a `Bool` (`true` is 1, a line level `true` is high, R16); a byte is eight bits, bit 0 the least significant.
-/

namespace Sys2Proof

/-- A bit, a flag or a line level (00 R14, R16). -/
abbrev Bit := Bool

/-- A byte of the wire, of the shifter or of the store (00 R10: a byte is 8 bits). -/
abbrev Byte := BitVec 8

end Sys2Proof
end

