-- ==== Sys2Proof/Config.lean ====
section
/-!
DEFINITION. What an instance fixes (00_scope.md section 3), and the free values: what the spec says a model must not fix
(93_implementation_defined.md U6, U8, U10, U12). The free values are opaque: no proof can use a value of one.
-/

namespace Sys2Proof

/-- The constants of an instance (00 R7 to R9). The proof fields exclude the configurations that have no meaning
(93 U17). A machine's configuration stands beside its registers in `State` and no operation changes it (log 1). -/
structure Config where
  /-- The sample divisor `K` (R7). -/
  K : Nat
  /-- The configured 7-bit slave address `ADDR` (R8). -/
  addr : BitVec 7
  /-- The size `N` of the backing memory in bytes (R9). -/
  N : Nat
  K_pos : 0 < K := by decide
  N_pos : 0 < N := by decide
  N_le : N ≤ 256 := by decide
deriving DecidableEq, Repr

/-- The defaults of R7, R8 and R9: `K = 64`, `ADDR = 0x50`, `N = 128` (log 1). -/
def Config.default : Config := { K := 64, addr := 0x50, N := 128 }

/-- FREE VALUE: the level of `scl_in` at the n-th draw (93 U6, "any value per tick"; log 2). -/
opaque Config.sclIn : Nat → Bit

/-- FREE VALUE: the level of `sda_in` at the n-th draw (93 U6; log 2). -/
opaque Config.sdaIn : Nat → Bit

/-- FREE VALUE: the level of `store_busy` at the n-th draw (93 U10; log 2). -/
opaque Config.storeBusy : Nat → Bit

/-- FREE VALUE: whether the reset source asserts `reset` in the n-th tick (10 R36, 70 R250; log 5). -/
opaque Config.resetIn : Nat → Bit

/-- FREE VALUE: what a cell of the backing memory holds that the core has not written (93 U8; log 6). -/
opaque Config.storeInit : Nat → Byte

/-- FREE VALUE: what the cell of a write request issued in the last tick before the n-th reset holds afterwards (93 U12;
log 5). -/
opaque Config.cutWrite : Nat → Byte

end Sys2Proof
end

