-- ==== Sys2Proof/Syntax.lean ====
section
/-!
DEFINITION. The operations of spec/opcode_table.json, one constructor per row, in the table's order, and the fifteen
protocol states (44 R160), which the STATE rows and the decoding by context (30 R91) refer to.
-/

namespace Sys2Proof

/-- The values of the `state` register (44 R160), in the order of the numbering of 30 R95. -/
inductive ProtocolState where
  | waitStart
  | rcvAddress
  | ackAddress0
  | ackAddress1
  | ackAddress2
  | rcvOffset
  | ackOffset0
  | ackOffset1
  | ackOffset2
  | rcvData
  | ackData0
  | ackData1
  | ackData2
  | read
  | ackRead
deriving DecidableEq, Repr

/-- One constructor per row of the opcode table. -/
inductive Instr where
  -- format CONDITION (30 R81 to R83)
  /-- S: a START met in WAIT_START (47 R211). -/
  | condS
  /-- Sr: a START met in any other state (47 R212). -/
  | condSr
  /-- P: a STOP (47 R213). -/
  | condP
  -- format BIT (30 R84)
  /-- BIT0: a bit slot of value 0. -/
  | bit0
  /-- BIT1: a bit slot of value 1. -/
  | bit1
  -- format FRAME9 (30 R86 to R89)
  /-- ADDR_W: the address frame of this core, direction write (47 R214). -/
  | addrW
  /-- ADDR_R: the address frame of this core, direction read (47 R215). -/
  | addrR
  /-- ADDR_MISS: a frame for another device, with what another device answers in slot 9 (47 R216). -/
  | addrMiss (byte : Byte) (ack : Bit)
  /-- OFFSET: the offset byte `o` (47 R217). -/
  | offset (o : Byte)
  /-- WDATA: the data byte `d` (47 R218). -/
  | wdata (d : Byte)
  /-- RDATA_A: a byte the core transmits, acknowledged by the master (47 R219). -/
  | rdataA
  /-- RDATA_N: a byte the core transmits, not acknowledged by the master (47 R220). -/
  | rdataN
  -- format STATE (30 R95; 44 R162 to R176)
  | waitStart
  | rcvAddress
  | ackAddress0
  | ackAddress1
  | ackAddress2
  | rcvOffset
  | ackOffset0
  | ackOffset1
  | ackOffset2
  | rcvData
  | ackData0
  | ackData1
  | ackData2
  | read
  | ackRead
  -- format EVERY_TICK: synchronizer, edges, framing (40, 41)
  | syncStage1
  | syncStage2
  | sampleCount
  | sampleCapture
  | edgeHistory
  | sclRising
  | sclFalling
  | sdaRising
  | sdaFalling
  | startDetect
  | stopDetect
  -- format EVERY_TICK: shifter (42)
  | countClear
  | countWrap
  | countInc
  | shiftIn
  | shiftHold
  | byteComplete
  | outBit
  | dataDrv
  | dataBit
  -- format EVERY_TICK: acknowledger (43)
  | ackDrive
  | sdaOe
  | sdaO
  | sclOe
  | sclO
  | masterAck
  -- format EVERY_TICK: protocol state machine (44)
  | addrMatch
  | directionCapture
  | startOverride
  | stopOverride
  | stateCommit
  -- format EVERY_TICK: reader/writer (45)
  | offsetLoad
  | offsetInc
  | offsetHold
  | memAddr
  | memWrite
  | memRead
  -- format EVERY_TICK: the whole tick and reset (46, 70)
  | tickStep
  | reset
deriving DecidableEq, Repr

end Sys2Proof
end

