-- ==== Sys2Proof/WellFormed.lean ====
section
/-!
DEFINITION. When an operation can be presented to the core: the context that selects it (30_encoding.md R83, R91) and the
one operand condition (30 R86). Everything else is well formed in every context.
-/

namespace Sys2Proof

/-- Whether bits are counted in a state: the byte-transfer states RCV_ADDRESS, RCV_OFFSET, RCV_DATA, READ (42 R132).
In the others "bits are not counted" and no frame type is selected (30 R91). -/
def ProtocolState.countsBits : ProtocolState → Bool
  | .rcvAddress | .rcvOffset | .rcvData | .read => true
  | .waitStart | .ackAddress0 | .ackAddress1 | .ackAddress2 | .ackOffset0 | .ackOffset1 | .ackOffset2
  | .ackData0 | .ackData1 | .ackData2 | .ackRead => false

/-- Whether a byte is an address byte of this core: its upper seven bits are `ADDR` (30 R86). -/
def Config.addresses (cfg : Config) (byte : Byte) : Bool :=
  byte.extractLsb' 1 7 == cfg.addr

/-- Whether the operation can be presented while `state` is `st`: S and Sr differ by the state alone (30 R83), the type of a
frame is fixed by the state in which its bits are counted (R91), ADDR_MISS needs an address other than `ADDR` (R86) or a
state that counts no bits (log 19). Only RCV_ADDRESS restricts the operand. A STATE row is well formed in every state (log 10). -/
def Instr.wf (cfg : Config) (st : ProtocolState) : Instr → Bool
  | .condS => st == .waitStart
  | .condSr => !(st == .waitStart)
  | .condP => true
  | .bit0 | .bit1 => true
  | .addrW | .addrR => st == .rcvAddress
  | .addrMiss byte _ => if st == .rcvAddress then !cfg.addresses byte else !st.countsBits
  | .offset _ => st == .rcvOffset
  | .wdata _ => st == .rcvData
  | .rdataA | .rdataN => st == .read
  | .waitStart | .rcvAddress | .ackAddress0 | .ackAddress1 | .ackAddress2 | .rcvOffset | .ackOffset0
  | .ackOffset1 | .ackOffset2 | .rcvData | .ackData0 | .ackData1 | .ackData2 | .read
  | .ackRead => true
  | .syncStage1 | .syncStage2 | .sampleCount | .sampleCapture | .edgeHistory | .sclRising | .sclFalling
  | .sdaRising | .sdaFalling | .startDetect | .stopDetect | .countClear | .countWrap | .countInc
  | .shiftIn | .shiftHold | .byteComplete | .outBit | .dataDrv | .dataBit | .ackDrive
  | .sdaOe | .sdaO | .sclOe | .sclO | .masterAck | .addrMatch | .directionCapture
  | .startOverride | .stopOverride | .stateCommit | .offsetLoad | .offsetInc | .offsetHold | .memAddr
  | .memWrite | .memRead | .tickStep | .reset => true

end Sys2Proof
end

