-- ==== Sys2Proof/Decode.lean ====
section
/-!
DEFINITION. The decoder of the wire protocol (30_encoding.md) and, after it, the encoder, both from the spec's encodings:
the three CONDITION and BIT patterns of R81 to R84, the nine-bit frames of R85 to R90 read by context (R91), the state numbers
of R95. The spec gives no common word form for the five formats of R80: the byte in front of each word that names its format,
and the numbers of the EVERY_TICK rows (which have no bits), are the model's own (log 16, log 17).
Words are bytes: one operand byte for CONDITION, BIT, STATE and EVERY_TICK, two for FRAME9, the low one first.
-/

namespace Sys2Proof

/-- Why a word is no operation of the table. -/
inductive DecodeError where
  /-- No byte to read. -/
  | emptyWord
  /-- The bytes end inside a word. -/
  | truncated
  /-- The first byte names none of the five formats of 30 R80. -/
  | unknownFormat
  /-- A CONDITION word other than 110 and 101: "no condition" (30 R82). -/
  | noCondition
  /-- A BIT word other than 010 and 011: no bit slot (30 R84). -/
  | noBit
  /-- A FRAME9 word of more than nine bits (30 R85). -/
  | strayBits
  /-- A frame the core acknowledges, written with slot 9 at 1: the core drives 0 there (30 R90; log 20). -/
  | ackNotDriven
  /-- A STATE word of 15 or more: no such state (30 R95, 93 U20). -/
  | noState
  /-- An EVERY_TICK number past the table's last row (log 17). -/
  | noOperation
deriving DecidableEq, Repr

/-- The number of a state (30 R95). -/
def ProtocolState.number : ProtocolState → Nat
  | .waitStart => 0
  | .rcvAddress => 1
  | .ackAddress0 => 2
  | .ackAddress1 => 3
  | .ackAddress2 => 4
  | .rcvOffset => 5
  | .ackOffset0 => 6
  | .ackOffset1 => 7
  | .ackOffset2 => 8
  | .rcvData => 9
  | .ackData0 => 10
  | .ackData1 => 11
  | .ackData2 => 12
  | .read => 13
  | .ackRead => 14

/-- The state of a number (30 R95); 15 and above are unused. -/
def ProtocolState.ofNumber : Nat → Option ProtocolState
  | 0 => some .waitStart
  | 1 => some .rcvAddress
  | 2 => some .ackAddress0
  | 3 => some .ackAddress1
  | 4 => some .ackAddress2
  | 5 => some .rcvOffset
  | 6 => some .ackOffset0
  | 7 => some .ackOffset1
  | 8 => some .ackOffset2
  | 9 => some .rcvData
  | 10 => some .ackData0
  | 11 => some .ackData1
  | 12 => some .ackData2
  | 13 => some .read
  | 14 => some .ackRead
  | _ => none

/-- The STATE row that a state selects (30 R95, 10 R28: the state "alone selects which operation the core performs"). -/
def ProtocolState.instr : ProtocolState → Instr
  | .waitStart => .waitStart
  | .rcvAddress => .rcvAddress
  | .ackAddress0 => .ackAddress0
  | .ackAddress1 => .ackAddress1
  | .ackAddress2 => .ackAddress2
  | .rcvOffset => .rcvOffset
  | .ackOffset0 => .ackOffset0
  | .ackOffset1 => .ackOffset1
  | .ackOffset2 => .ackOffset2
  | .rcvData => .rcvData
  | .ackData0 => .ackData0
  | .ackData1 => .ackData1
  | .ackData2 => .ackData2
  | .read => .read
  | .ackRead => .ackRead

/-- The EVERY_TICK rows in the table's order; their place is their number (log 17). -/
def everyTickOps : List Instr :=
  [.syncStage1, .syncStage2, .sampleCount, .sampleCapture, .edgeHistory, .sclRising, .sclFalling, .sdaRising,
   .sdaFalling, .startDetect, .stopDetect, .countClear, .countWrap, .countInc, .shiftIn, .shiftHold,
   .byteComplete, .outBit, .dataDrv, .dataBit, .ackDrive, .sdaOe, .sdaO, .sclOe,
   .sclO, .masterAck, .addrMatch, .directionCapture, .startOverride, .stopOverride, .stateCommit, .offsetLoad,
   .offsetInc, .offsetHold, .memAddr, .memWrite, .memRead, .tickStep, .reset]

/-- CONDITION: `{scl, sda_prev, sda}` is 110 for a START, called Sr outside WAIT_START (30 R81, R83), 101 for a STOP (R82). -/
def decodeCondition (st : ProtocolState) (w : Nat) : Except DecodeError Instr :=
  if w = 6 then .ok (if st = .waitStart then .condS else .condSr)
  else if w = 5 then .ok .condP
  else .error .noCondition

/-- BIT: `{scl_prev, scl, sda}` is 010 or 011 (30 R84). -/
def decodeBit (w : Nat) : Except DecodeError Instr :=
  if w = 2 then .ok .bit0
  else if w = 3 then .ok .bit1
  else .error .noBit

/-- The byte of a nine-bit frame `{byte, ack}` (30 R80, R85). -/
def frameByte (w : BitVec 9) : Byte := w.extractLsb' 1 8

/-- The acknowledge slot of a nine-bit frame `{byte, ack}` (30 R80, R85). -/
def frameAck (w : BitVec 9) : Bit := w.getLsbD 0

/-- The nine-bit frame of a byte and an acknowledge slot: slot 1 (bit 7 of the byte) in the most significant place (30 R80). -/
def frameOf (byte : Byte) (ack : Bit) : BitVec 9 := BitVec.concat byte ack

/-- The address byte of this core: `2*ADDR` for a write, `2*ADDR + 1` for a read (30 R86). -/
def Config.addressByte (cfg : Config) (rw : Bit) : Byte := BitVec.concat cfg.addr rw

/-- FRAME9 by context (30 R91): the state in which the bits are counted gives the frame its type. In RCV_ADDRESS the upper
seven bits are compared with `ADDR` and bit 0 is the direction (R86). The acknowledge slot is the core's in ADDR_W, ADDR_R,
OFFSET and WDATA and is 0 there (R90), the master's in RDATA_A and RDATA_N, whose byte is the core's and is not read here
(R89; log 20). Where no bits are counted the frame is one the core ignores (R100; log 19). -/
def decodeFrame (cfg : Config) (st : ProtocolState) (w : BitVec 9) : Except DecodeError Instr :=
  match st with
  | .rcvAddress =>
    if cfg.addresses (frameByte w) then
      if frameAck w then .error .ackNotDriven
      else .ok (if (frameByte w).getLsbD 0 then .addrR else .addrW)
    else .ok (.addrMiss (frameByte w) (frameAck w))
  | .rcvOffset => if frameAck w then .error .ackNotDriven else .ok (.offset (frameByte w))
  | .rcvData => if frameAck w then .error .ackNotDriven else .ok (.wdata (frameByte w))
  | .read => .ok (if frameAck w then .rdataN else .rdataA)
  | .waitStart | .ackAddress0 | .ackAddress1 | .ackAddress2 | .ackOffset0 | .ackOffset1 | .ackOffset2
  | .ackData0 | .ackData1 | .ackData2 | .ackRead => .ok (.addrMiss (frameByte w) (frameAck w))

/-- STATE: the number of a state (30 R95). DESIGN CHOICE: a queued STATE word is accepted whatever the `state` register holds; the
spec says only that the register selects the row (10 R28; log 10). -/
def decodeState (w : Nat) : Except DecodeError Instr :=
  match ProtocolState.ofNumber w with
  | some st => .ok st.instr
  | none => .error .noState

/-- EVERY_TICK: the number of a row (log 17). -/
def decodeEveryTick (w : Nat) : Except DecodeError Instr :=
  match everyTickOps[w]? with
  | some i => .ok i
  | none => .error .noOperation

/-- The format bytes of the operation queue (log 16). -/
def tagCondition : Byte := 1
def tagBit : Byte := 2
def tagFrame : Byte := 3
def tagState : Byte := 4
def tagEveryTick : Byte := 5

/-- Gives back the bytes after the word with what the word was read as. -/
def withRest (rest : List Byte) : Except DecodeError Instr → Except DecodeError (Instr × List Byte)
  | .ok i => .ok (i, rest)
  | .error e => .error e

/-- The decoder: the first operation of a list of bytes and the bytes after it, in the context of the configuration and the
`state` register (30 R91). Total on any bytes; what it does not read it rejects by name. -/
def decode (cfg : Config) (st : ProtocolState) : List Byte → Except DecodeError (Instr × List Byte)
  | [] => .error .emptyWord
  | [_] => .error .truncated
  | tag :: lo :: rest =>
    if tag = tagCondition then withRest rest (decodeCondition st lo.toNat)
    else if tag = tagBit then withRest rest (decodeBit lo.toNat)
    else if tag = tagState then withRest rest (decodeState lo.toNat)
    else if tag = tagEveryTick then withRest rest (decodeEveryTick lo.toNat)
    else if tag = tagFrame then
      match rest with
      | [] => .error .truncated
      | hi :: rest' =>
        if 2 ≤ hi.toNat then .error .strayBits
        else withRest rest' (decodeFrame cfg st (BitVec.ofNat 9 (hi.toNat * 256 + lo.toNat)))
    else .error .unknownFormat

/-- The two operand bytes of a frame word, low one first, behind its format byte (log 16). -/
def frameBytes (w : BitVec 9) : List Byte :=
  [tagFrame, BitVec.ofNat 8 w.toNat, BitVec.ofNat 8 (w.toNat / 256)]

/-- The encoder: the bytes of an operation, from the encodings of 30 R81 to R89 and R95. The byte of a frame the core
transmits is the core's own (R89); it is written as zeros and not read back (log 20). -/
def encode (cfg : Config) : Instr → List Byte
  | .condS => [tagCondition, 6]
  | .condSr => [tagCondition, 6]
  | .condP => [tagCondition, 5]
  | .bit0 => [tagBit, 2]
  | .bit1 => [tagBit, 3]
  | .addrW => frameBytes (frameOf (cfg.addressByte false) false)
  | .addrR => frameBytes (frameOf (cfg.addressByte true) false)
  | .addrMiss byte ack => frameBytes (frameOf byte ack)
  | .offset o => frameBytes (frameOf o false)
  | .wdata d => frameBytes (frameOf d false)
  | .rdataA => frameBytes (frameOf 0 false)
  | .rdataN => frameBytes (frameOf 0 true)
  | .waitStart => [tagState, 0]
  | .rcvAddress => [tagState, 1]
  | .ackAddress0 => [tagState, 2]
  | .ackAddress1 => [tagState, 3]
  | .ackAddress2 => [tagState, 4]
  | .rcvOffset => [tagState, 5]
  | .ackOffset0 => [tagState, 6]
  | .ackOffset1 => [tagState, 7]
  | .ackOffset2 => [tagState, 8]
  | .rcvData => [tagState, 9]
  | .ackData0 => [tagState, 10]
  | .ackData1 => [tagState, 11]
  | .ackData2 => [tagState, 12]
  | .read => [tagState, 13]
  | .ackRead => [tagState, 14]
  | .syncStage1 => [tagEveryTick, 0]
  | .syncStage2 => [tagEveryTick, 1]
  | .sampleCount => [tagEveryTick, 2]
  | .sampleCapture => [tagEveryTick, 3]
  | .edgeHistory => [tagEveryTick, 4]
  | .sclRising => [tagEveryTick, 5]
  | .sclFalling => [tagEveryTick, 6]
  | .sdaRising => [tagEveryTick, 7]
  | .sdaFalling => [tagEveryTick, 8]
  | .startDetect => [tagEveryTick, 9]
  | .stopDetect => [tagEveryTick, 10]
  | .countClear => [tagEveryTick, 11]
  | .countWrap => [tagEveryTick, 12]
  | .countInc => [tagEveryTick, 13]
  | .shiftIn => [tagEveryTick, 14]
  | .shiftHold => [tagEveryTick, 15]
  | .byteComplete => [tagEveryTick, 16]
  | .outBit => [tagEveryTick, 17]
  | .dataDrv => [tagEveryTick, 18]
  | .dataBit => [tagEveryTick, 19]
  | .ackDrive => [tagEveryTick, 20]
  | .sdaOe => [tagEveryTick, 21]
  | .sdaO => [tagEveryTick, 22]
  | .sclOe => [tagEveryTick, 23]
  | .sclO => [tagEveryTick, 24]
  | .masterAck => [tagEveryTick, 25]
  | .addrMatch => [tagEveryTick, 26]
  | .directionCapture => [tagEveryTick, 27]
  | .startOverride => [tagEveryTick, 28]
  | .stopOverride => [tagEveryTick, 29]
  | .stateCommit => [tagEveryTick, 30]
  | .offsetLoad => [tagEveryTick, 31]
  | .offsetInc => [tagEveryTick, 32]
  | .offsetHold => [tagEveryTick, 33]
  | .memAddr => [tagEveryTick, 34]
  | .memWrite => [tagEveryTick, 35]
  | .memRead => [tagEveryTick, 36]
  | .tickStep => [tagEveryTick, 37]
  | .reset => [tagEveryTick, 38]

/-- The bytes laid out for a word of spec/opcode_table.json that the table gives `nbits` bits (whole bytes): no bits is
TICK_STEP (the EVERY_TICK rows have none), one byte is the number of a state, two bytes are a frame. A bare number does not
say its format, and the formats overlap: CONDITION and BIT words are state numbers too (log 18). -/
def tableBytes (nbits w : Nat) : List Byte :=
  if nbits = 0 then encode Config.default .tickStep
  else if nbits ≤ 8 then [tagState, BitVec.ofNat 8 w]
  else if w < 65536 then [tagFrame, BitVec.ofNat 8 w, BitVec.ofNat 8 (w / 256)]
  else [tagFrame, BitVec.ofNat 8 w, 255]

/-- What the decoder reads from a word of the opcode table, for the default configuration and in the context of a frame that
follows a START (RCV_ADDRESS), which is the frame a transaction begins with (30 R92; log 18). -/
def decodeTableWord (nbits w : Nat) : Option Instr :=
  match decode Config.default .rcvAddress (tableBytes nbits w) with
  | .ok (i, _) => some i
  | .error _ => none

end Sys2Proof
end

