-- ==== Sys2Proof/Machine/State.lean ====
section
/-!
DEFINITION. The state of the machine as plain data: the configuration of the instance (00_scope.md R7 to R9), the levels of
the input ports (10_state.md R36), the sixteen registers (R20), the backing memory (R32), the combinational signals and output
ports of the last tick (R33, R37), and the fields of the model's own: the bus master (its queue, what it drives, the rest of the
bus operation it is performing, its pace, the frame it last saw) and the free values that come next. INVENTORY.md lists every one
with its rule.
-/

namespace Sys2Proof.Machine

/-- The backing memory `Mem` (10 R32): the cells that differ from what an unlisted address reads as, addresses strictly
rising (`Memory.wf` in Ops.lean). -/
abbrev Memory := List Host.Cell

/-- The input ports, at the level each has in the tick about to run (10 R36). In a tick of a bus operation `sclIn` and `sdaIn`
are what the rest of the bus gives the two lines, and the line is the AND of all parties (70 R262; log 14). -/
structure Inputs where
  /-- `scl_in`. -/
  sclIn : Bit
  /-- `sda_in`. -/
  sdaIn : Bit
  /-- `store_busy`. -/
  storeBusy : Bit
  /-- `reset` (70 R250; log 5). -/
  reset : Bit
deriving DecidableEq, Repr

/-- The sixteen registers of the core (10 R20). -/
structure Regs where
  /-- `scl_ff1` (R21). -/
  sclFf1 : Bit
  /-- `scl_ff2` (R21). -/
  sclFf2 : Bit
  /-- `sda_ff1` (R21). -/
  sdaFf1 : Bit
  /-- `sda_ff2` (R21). -/
  sdaFf2 : Bit
  /-- `samp_count`, below `K` (R22; log 25). -/
  sampCount : Nat
  /-- `scl`, the synchronized clock line (R23). -/
  scl : Bit
  /-- `sda`, the synchronized data line (R23). -/
  sda : Bit
  /-- `scl_prev` (R24). -/
  sclPrev : Bit
  /-- `sda_prev` (R24). -/
  sdaPrev : Bit
  /-- `value`, the accumulator of the shifter (R25). -/
  value : Byte
  /-- `bit_count`, in 0..8 (R26; log 25). -/
  bitCount : Nat
  /-- `offset`, below `N` (R27; log 25). -/
  offset : Nat
  /-- `state` (R28). -/
  state : ProtocolState
  /-- `is_read` (R29). -/
  isRead : Bit
  /-- `data_drv` (R30). -/
  dataDrv : Bit
  /-- `data_bit` (R31). -/
  dataBit : Bit
deriving DecidableEq, Repr

/-- The combinational signals (10 R33) and the output ports (R37), as the tick or operation that last evaluated them left
them (log 9). `memRdata` is the store's answer to `mem_addr` in that tick (20 R62). -/
structure Wires where
  sclRising : Bit
  sclFalling : Bit
  sdaRising : Bit
  sdaFalling : Bit
  start : Bit
  stop : Bit
  byteComplete : Bit
  outBit : Bit
  addrMatch : Bit
  captureDir : Bit
  ocLoad : Bit
  ocInc : Bit
  dataDrvEn : Bit
  dataDrvStop : Bit
  normalNext : ProtocolState
  masterAck : Bit
  masterNack : Bit
  ackDrive : Bit
  /-- Port `sda_oe`. -/
  sdaOe : Bit
  /-- Port `sda_o`. -/
  sdaO : Bit
  /-- Port `scl_oe`. -/
  sclOe : Bit
  /-- Port `scl_o`. -/
  sclO : Bit
  /-- Port `mem_addr`. -/
  memAddr : Nat
  /-- Port `mem_we`. -/
  memWe : Bit
  /-- Port `mem_wdata`. -/
  memWdata : Byte
  /-- Port `mem_rdata`. -/
  memRdata : Byte
deriving DecidableEq, Repr

/-- What the bus master drives: 1 releases the line, 0 pulls it low (47 R210 NT1, 70 R262; log 27). -/
structure Levels where
  /-- `m_scl`. -/
  scl : Bit
  /-- `m_sda`. -/
  sda : Bit
deriving DecidableEq, Repr

/-- One phase of a bus operation: the master holds two levels for a number of ticks (95_test_vectors.md section 1; log 13). -/
structure Phase where
  /-- `m_scl` in this phase. -/
  scl : Bit
  /-- `m_sda` in this phase. -/
  sda : Bit
  /-- How long the phase lasts. -/
  ticks : Nat
  /-- Whether the master records the level of SDA at its start: the high phase of a bit slot (30 R84; log 23). -/
  samples : Bit
deriving DecidableEq, Repr

/-- How many ticks the phases of the master last (47 R210 NT2, NT3, 70 R264, R265; log 28). -/
structure Pace where
  /-- From the fall of SCL to the master's change of SDA. -/
  hold : Nat
  /-- From the master's change of SDA to the release of SCL. -/
  setup : Nat
  /-- SCL high. -/
  high : Nat
  /-- The phase a bus operation ends with. -/
  rest : Nat
deriving DecidableEq, Repr

/-- The machine: configuration, inputs, registers, memory, signals, and the model's own fields. -/
structure State where
  /-- The constants of the instance (00 R7 to R9; log 1). -/
  cfg : Config
  /-- The input ports in the tick about to run (10 R36; log 2). -/
  inputs : Inputs
  /-- The model's own: the input ports in the ticks after that, as far as they are fixed; after them they are free (log 2). -/
  ahead : List Inputs
  /-- The registers (10 R20). -/
  regs : Regs
  /-- The backing memory (10 R32; log 7). -/
  mem : Memory
  /-- The signals and output ports as last evaluated (10 R33, R37; log 9). -/
  wires : Wires
  /-- The model's own: the operations the bus master issues next, as the words of Decode.lean (log 16). -/
  queue : List Byte
  /-- The model's own: what the bus master drives (log 27). -/
  master : Levels
  /-- The model's own: the phases left of the bus operation the master is performing; not empty while it waits for the SCL line
  (47 R210 NT5; log 15). -/
  bus : List Phase
  /-- The model's own: the pace of the bus master, which no step changes (log 28). -/
  pace : Pace
  /-- The model's own: the SDA levels of the last nine bit slots as the master saw them, numbered as 30 R80 does (log 23). -/
  wire : BitVec 9
  /-- The model's own: how many ticks' inputs have been drawn (log 3). -/
  drawn : Nat
  /-- The model's own: how many resets have acted; each takes a free value of its own (log 3, log 5). -/
  resets : Nat
deriving DecidableEq, Repr

/-- Why a step stops with a fault: never. The spec has no faults, and no error path is allowed in the tick (60 R230,
93 section 1), so there is no constructor. -/
inductive Fault where
deriving DecidableEq, Repr

/-- Why a step is refused. -/
inductive Refusal where
  /-- Raised by an arm of `exec` whose operation has no meaning yet. Safe. No arm raises it. -/
  | notModelled (mnemonic : String)
deriving DecidableEq, Repr

/-- The levels of the input ports at the n-th draw: free values (93 U6, U10; log 2). -/
def Inputs.draw (n : Nat) : Inputs :=
  { sclIn := Config.sclIn n, sdaIn := Config.sdaIn n, storeBusy := Config.storeBusy n, reset := Config.resetIn n }

/-- The register valuation `R(0)` (10 R39, 70 R250). -/
def Regs.reset : Regs :=
  { sclFf1 := false, sclFf2 := false, sdaFf1 := false, sdaFf2 := false, sampCount := 0,
    scl := false, sda := false, sclPrev := false, sdaPrev := false,
    value := 0, bitCount := 0, offset := 0, state := .waitStart,
    isRead := false, dataDrv := false, dataBit := false }

/-- All signals and output ports at 0: both lines released, no store write (70 R251; log 9). -/
def Wires.idle : Wires :=
  { sclRising := false, sclFalling := false, sdaRising := false, sdaFalling := false, start := false, stop := false,
    byteComplete := false, outBit := false, addrMatch := false, captureDir := false, ocLoad := false, ocInc := false,
    dataDrvEn := false, dataDrvStop := false, normalNext := .waitStart, masterAck := false, masterNack := false,
    ackDrive := false, sdaOe := false, sdaO := false, sclOe := false, sclO := false,
    memAddr := 0, memWe := false, memWdata := 0, memRdata := 0 }

/-- The pace of the bench of 95_test_vectors.md section 1, with quarter periods of `4*K` ticks (log 28). -/
def Pace.bench (K : Nat) : Pace := { hold := 4 * K, setup := 4 * K, high := 8 * K, rest := 8 * K }

/-- The machine of a configuration right after reset (70 R250): the memory lists nothing, so every cell holds its free
initial value (70 R253; log 6). The master has nothing to do and releases both lines (log 27). -/
def State.resetOf (cfg : Config) : State :=
  { cfg := cfg, inputs := Inputs.draw 0, ahead := [], regs := Regs.reset, mem := [], wires := Wires.idle,
    queue := [], master := ⟨true, true⟩, bus := [], pace := Pace.bench cfg.K, wire := 0, drawn := 0,
    resets := 0 }

/-- The machine right after reset, in the default configuration of 00 R7 to R9. -/
def State.reset : State := State.resetOf Config.default

end Sys2Proof.Machine
end

