-- ==== Sys2Proof/Machine/Flags.lean ====
section
/-!
DEFINITION. The combinational signals: each is a function of the registers at the start of the tick (00_scope.md R12), holds
nothing between ticks (10_state.md R33), and is defined once, here, in the words of its rule.
-/

namespace Sys2Proof.Machine

/-- `scl_rising := scl & !scl_prev` (41 R121). -/
def sclRising (s : State) : Bit := s.regs.scl && !s.regs.sclPrev

/-- `scl_falling := !scl & scl_prev` (41 R122). -/
def sclFalling (s : State) : Bit := !s.regs.scl && s.regs.sclPrev

/-- `sda_rising := sda & !sda_prev` (41 R123). -/
def sdaRising (s : State) : Bit := s.regs.sda && !s.regs.sdaPrev

/-- `sda_falling := !sda & sda_prev` (41 R124). -/
def sdaFalling (s : State) : Bit := !s.regs.sda && s.regs.sdaPrev

/-- `start := scl & sda_falling` (41 R125). -/
def startSeen (s : State) : Bit := s.regs.scl && sdaFalling s

/-- `stop := scl & sda_rising` (41 R126). -/
def stopSeen (s : State) : Bit := s.regs.scl && sdaRising s

/-- `byte_complete := (bit_count == 8)` (42 R135). -/
def byteComplete (s : State) : Bit := s.regs.bitCount == 8

/-- `addr_match := (value[7:1] == ADDR)` (44 R161). -/
def addrMatch (s : State) : Bit := s.regs.value.extractLsb' 1 7 == s.cfg.addr

/-- `master_ack := scl_rising & !sda` (43 R150). -/
def masterAck (s : State) : Bit := sclRising s && !s.regs.sda

/-- `master_nack := scl_rising & sda` (43 R150). -/
def masterNack (s : State) : Bit := sclRising s && s.regs.sda

/-- The receive states RCV of 42_shifter.md: RCV_ADDRESS, RCV_OFFSET, RCV_DATA. -/
def receives : ProtocolState → Bool
  | .rcvAddress | .rcvOffset | .rcvData => true
  | .waitStart | .ackAddress0 | .ackAddress1 | .ackAddress2 | .ackOffset0 | .ackOffset1 | .ackOffset2
  | .ackData0 | .ackData1 | .ackData2 | .read | .ackRead => false

/-- The byte-transfer states BYTE of 42_shifter.md: the receive states and READ. -/
def transfers (st : ProtocolState) : Bool := receives st || st == .read

/-- The states that drive the acknowledge: ACK_x1 and ACK_x2 (43 R145). -/
def acknowledges : ProtocolState → Bool
  | .ackAddress1 | .ackAddress2 | .ackOffset1 | .ackOffset2 | .ackData1 | .ackData2 => true
  | .waitStart | .rcvAddress | .ackAddress0 | .rcvOffset | .ackOffset0 | .rcvData | .ackData0 | .read | .ackRead => false

/-- The states in which the core may hold SCL: ACK_x1 (43 R148). -/
def stretches : ProtocolState → Bool
  | .ackAddress1 | .ackOffset1 | .ackData1 => true
  | .waitStart | .rcvAddress | .ackAddress0 | .ackAddress2 | .rcvOffset | .ackOffset0 | .ackOffset2
  | .rcvData | .ackData0 | .ackData2 | .read | .ackRead => false

/-- `ack_drive` (43 R145). -/
def ackDrive (s : State) : Bit := acknowledges s.regs.state

/-- `sda_oe := ack_drive | (data_drv & !data_bit)` (43 R146). -/
def sdaOe (s : State) : Bit := ackDrive s || (s.regs.dataDrv && !s.regs.dataBit)

/-- `sda_o := 0` (43 R147). -/
def sdaO (_ : State) : Bit := false

/-- `scl_oe := store_busy & !scl & (state in ACK_x1)` (43 R148). -/
def sclOe (s : State) : Bit := s.inputs.storeBusy && !s.regs.scl && stretches s.regs.state

/-- `scl_o := 0` (43 R149). -/
def sclO (_ : State) : Bit := false

/-- The condition of COUNT_CLEAR (42 R130). -/
def countClears (s : State) : Bit := startSeen s

/-- The condition of COUNT_WRAP (42 R131). -/
def countWraps (s : State) : Bit := !startSeen s && sclRising s && s.regs.bitCount == 8

/-- The condition of COUNT_INC (42 R132). -/
def countIncs (s : State) : Bit := !startSeen s && sclRising s && s.regs.bitCount != 8 && transfers s.regs.state

/-- The condition of SHIFT_IN (42 R133). -/
def shiftsIn (s : State) : Bit := !startSeen s && sclRising s && s.regs.bitCount != 8 && receives s.regs.state

/-- `{value[6:0], b}`: the old bit 7 is dropped, every bit moves up one place, `b` enters at bit 0 (42 R133). -/
def shiftLeftIn (value : Byte) (b : Bit) : Byte := BitVec.concat (value.extractLsb' 0 7) b

end Sys2Proof.Machine
end

