-- ==== Sys2Proof/Machine/Fsm.lean ====
section
/-!
DEFINITION. The protocol state machine (44_protocol_fsm.md) in the two stages the spec prescribes: the rule of each state
gives `normal_next` and the strobe it asserts (R162 to R176), and one shared operation applies the START/STOP override
(R177 to R179). The override is this hardware's only asynchronous event (60_exceptions.md R232); nothing is saved by it.
-/

namespace Sys2Proof.Machine

/-- The strobes of the state rules; at most one is 1 in any tick (44 R183). -/
inductive Strobe where
  | captureDir
  | ocLoad
  | ocInc
  | memWe
  | dataDrvEn
  | dataDrvStop
deriving DecidableEq, Repr

/-- What the rule of a state decides in a tick: the normal next state and the strobe it asserts, if any. -/
structure Decision where
  normalNext : ProtocolState
  strobe : Option Strobe
deriving DecidableEq, Repr

/-- WAIT_START (44 R162): stays; only the START override leaves it. -/
def ruleWaitStart (_ : State) : Decision := ⟨.waitStart, none⟩

/-- RCV_ADDRESS (44 R163). -/
def ruleRcvAddress (s : State) : Decision :=
  if byteComplete s then
    if addrMatch s then ⟨.ackAddress0, some .captureDir⟩ else ⟨.waitStart, none⟩
  else ⟨.rcvAddress, none⟩

/-- ACK_ADDRESS0 (44 R164): waits for SCL low. -/
def ruleAckAddress0 (s : State) : Decision := if s.regs.scl then ⟨.ackAddress0, none⟩ else ⟨.ackAddress1, none⟩

/-- ACK_ADDRESS1 (44 R165): drives, waits for SCL high. -/
def ruleAckAddress1 (s : State) : Decision := if s.regs.scl then ⟨.ackAddress2, none⟩ else ⟨.ackAddress1, none⟩

/-- ACK_ADDRESS2 (44 R166): drives, waits for SCL low, then branches on the direction. -/
def ruleAckAddress2 (s : State) : Decision :=
  if s.regs.scl then ⟨.ackAddress2, none⟩
  else if s.regs.isRead then ⟨.read, none⟩ else ⟨.rcvOffset, none⟩

/-- RCV_OFFSET (44 R167). -/
def ruleRcvOffset (s : State) : Decision :=
  if byteComplete s then ⟨.ackOffset0, some .ocLoad⟩ else ⟨.rcvOffset, none⟩

/-- ACK_OFFSET0 (44 R168). -/
def ruleAckOffset0 (s : State) : Decision := if s.regs.scl then ⟨.ackOffset0, none⟩ else ⟨.ackOffset1, none⟩

/-- ACK_OFFSET1 (44 R169). -/
def ruleAckOffset1 (s : State) : Decision := if s.regs.scl then ⟨.ackOffset2, none⟩ else ⟨.ackOffset1, none⟩

/-- ACK_OFFSET2 (44 R170): on to the dedicated write-data state (90 C3). -/
def ruleAckOffset2 (s : State) : Decision := if s.regs.scl then ⟨.ackOffset2, none⟩ else ⟨.rcvData, none⟩

/-- RCV_DATA (44 R171). -/
def ruleRcvData (s : State) : Decision :=
  if byteComplete s then ⟨.ackData0, some .memWe⟩ else ⟨.rcvData, none⟩

/-- ACK_DATA0 (44 R172). -/
def ruleAckData0 (s : State) : Decision := if s.regs.scl then ⟨.ackData0, none⟩ else ⟨.ackData1, none⟩

/-- ACK_DATA1 (44 R173). -/
def ruleAckData1 (s : State) : Decision := if s.regs.scl then ⟨.ackData2, none⟩ else ⟨.ackData1, none⟩

/-- ACK_DATA2 (44 R174): the offset is incremented at the end of the acknowledge. -/
def ruleAckData2 (s : State) : Decision := if s.regs.scl then ⟨.ackData2, none⟩ else ⟨.rcvData, some .ocInc⟩

/-- READ (44 R175). -/
def ruleRead (s : State) : Decision :=
  if s.regs.scl then ⟨.read, none⟩
  else if byteComplete s then ⟨.ackRead, some .dataDrvStop⟩ else ⟨.read, some .dataDrvEn⟩

/-- ACK_READ (44 R176): a master NACK ends the read, a master ACK increments the offset. -/
def ruleAckRead (s : State) : Decision :=
  if masterNack s then ⟨.waitStart, none⟩
  else if masterAck s then ⟨.read, some .ocInc⟩
  else ⟨.ackRead, none⟩

/-- The rule of the current state. -/
def decision (s : State) : Decision :=
  match s.regs.state with
  | .waitStart => ruleWaitStart s
  | .rcvAddress => ruleRcvAddress s
  | .ackAddress0 => ruleAckAddress0 s
  | .ackAddress1 => ruleAckAddress1 s
  | .ackAddress2 => ruleAckAddress2 s
  | .rcvOffset => ruleRcvOffset s
  | .ackOffset0 => ruleAckOffset0 s
  | .ackOffset1 => ruleAckOffset1 s
  | .ackOffset2 => ruleAckOffset2 s
  | .rcvData => ruleRcvData s
  | .ackData0 => ruleAckData0 s
  | .ackData1 => ruleAckData1 s
  | .ackData2 => ruleAckData2 s
  | .read => ruleRead s
  | .ackRead => ruleAckRead s

/-- Whether the current state asserts a strobe in this tick (44 R183: 0 unless its rule asserts it). -/
def strobes (x : Strobe) (s : State) : Bit := (decision s).strobe == some x

/-- The prioritized override layer (44 R179; 60 R236): START first, STOP second, else the normal next state. -/
def applyOverrides (normalNext : ProtocolState) (start stop : Bit) : ProtocolState :=
  if start then .rcvAddress else if stop then .waitStart else normalNext

end Sys2Proof.Machine
end

