-- ==== Sys2Proof/Machine/Ops.lean ====
section
/-!
DEFINITION. The named operations: the backing memory (20_memory.md), the next value of every register (46_tick_step.md R200),
the commit of a tick, reset (70_reset_and_hazards.md R250), and the passing of a tick. All are total (46 R202, 60 R230).
-/

namespace Sys2Proof.Machine

/-- What an unlisted address reads as: the free value the platform put there (20 R74, 93 U8; log 6). -/
def Memory.unlisted (a : Nat) : Byte := Config.storeInit a

/-- `Mem[a]` (20 R62). -/
def Memory.read : Memory → Nat → Byte
  | [], a => Memory.unlisted a
  | (b, v) :: m, a => if a = b then v else Memory.read m a

/-- `Mem[a] := v`, every other cell unchanged (20 R63); keeps the canonical form. -/
def Memory.write : Memory → Nat → Byte → Memory
  | [], a, v => if v = Memory.unlisted a then [] else [(a, v)]
  | (b, w) :: m, a, v =>
    if a < b then (if v = Memory.unlisted a then (b, w) :: m else (a, v) :: (b, w) :: m)
    else if a = b then (if v = Memory.unlisted a then m else (a, v) :: m)
    else (b, w) :: Memory.write m a v

/-- The canonical form: addresses strictly rising, no cell equal to what its address reads as when unlisted. -/
abbrev Memory.wf (m : Memory) : Prop :=
  m.Pairwise (fun x y => x.1 < y.1) ∧ ∀ c ∈ m, c.2 ≠ Memory.unlisted c.1

/-- Every listed cell is a cell of `Mem[0..N-1]` (20 R60). -/
abbrev Memory.within (m : Memory) (n : Nat) : Prop := ∀ c ∈ m, c.1 < n

/-- `MemRead(offset, 1)` (20 R62): what the store answers on `mem_rdata` in this tick. -/
def memRdata (s : State) : Byte := s.mem.read s.regs.offset

/-- `out_bit` (42 R137): bit `7 - bit_count` of the byte at `offset`; 0 when `bit_count` is past 7. -/
def outBit (s : State) : Bit := if s.regs.bitCount ≤ 7 then (memRdata s).getLsbD (7 - s.regs.bitCount) else false

/-- `scl_ff1 <- scl_in` (40 R110). -/
def nextSclFf1 (s : State) : Bit := s.inputs.sclIn

/-- `sda_ff1 <- sda_in` (40 R110). -/
def nextSdaFf1 (s : State) : Bit := s.inputs.sdaIn

/-- `scl_ff2 <- scl_ff1` (40 R111). -/
def nextSclFf2 (s : State) : Bit := s.regs.sclFf1

/-- `sda_ff2 <- sda_ff1` (40 R111). -/
def nextSdaFf2 (s : State) : Bit := s.regs.sdaFf1

/-- Whether this is a capture tick: `samp_count == K-1` (40 R113). -/
def captures (s : State) : Bit := s.regs.sampCount == s.cfg.K - 1

/-- SAMPLE_COUNT (40 R112). -/
def nextSampCount (s : State) : Nat := if captures s then 0 else s.regs.sampCount + 1

/-- SAMPLE_CAPTURE of SCL (40 R113). -/
def nextScl (s : State) : Bit := if captures s then s.regs.sclFf2 else s.regs.scl

/-- SAMPLE_CAPTURE of SDA (40 R113). -/
def nextSda (s : State) : Bit := if captures s then s.regs.sdaFf2 else s.regs.sda

/-- The bit counter: COUNT_CLEAR, COUNT_WRAP, COUNT_INC, else held (42 R130 to R132, R134). -/
def nextBitCount (s : State) : Nat :=
  if countClears s then 0
  else if countWraps s then 0
  else if countIncs s then s.regs.bitCount + 1
  else s.regs.bitCount

/-- The accumulator: SHIFT_IN, else held (42 R133, R134). -/
def nextValue (s : State) : Byte := if shiftsIn s then shiftLeftIn s.regs.value s.regs.sda else s.regs.value

/-- `value mod N` (45 R190). -/
def loadedOffset (s : State) : Nat := s.regs.value.toNat % s.cfg.N

/-- `(offset + 1) mod N` (45 R191). -/
def steppedOffset (s : State) : Nat := (s.regs.offset + 1) % s.cfg.N

/-- The offset register: OFFSET_LOAD, OFFSET_INC, else held (45 R190 to R192). -/
def nextOffset (s : State) : Nat :=
  if strobes .ocLoad s then loadedOffset s
  else if strobes .ocInc s then steppedOffset s
  else s.regs.offset

/-- STATE_COMMIT (44 R179). -/
def nextState (s : State) : ProtocolState := applyOverrides (decision s).normalNext (startSeen s) (stopSeen s)

/-- DIRECTION_CAPTURE (44 R180): bit 0 of the address byte. -/
def nextIsRead (s : State) : Bit := if strobes .captureDir s then s.regs.value.getLsbD 0 else s.regs.isRead

/-- DATA_DRV (42 R138). -/
def nextDataDrv (s : State) : Bit :=
  if startSeen s || stopSeen s then false
  else if strobes .dataDrvEn s then true
  else if strobes .dataDrvStop s then false
  else s.regs.dataDrv

/-- DATA_BIT (42 R139). -/
def nextDataBit (s : State) : Bit := if strobes .dataDrvEn s then outBit s else s.regs.dataBit

/-- MEM_WRITE (45 R194): the request `write(offset, value)` of a tick with `mem_we`. -/
def nextMem (s : State) : Memory := if strobes .memWe s then s.mem.write s.regs.offset s.regs.value else s.mem

/-- The next value of every register, all read from the values at the start of the tick (46 R200, 00 R12). -/
def nextRegs (s : State) : Regs :=
  { sclFf1 := nextSclFf1 s, sclFf2 := nextSclFf2 s, sdaFf1 := nextSdaFf1 s, sdaFf2 := nextSdaFf2 s,
    sampCount := nextSampCount s, scl := nextScl s, sda := nextSda s,
    sclPrev := s.regs.scl, sdaPrev := s.regs.sda,
    value := nextValue s, bitCount := nextBitCount s, offset := nextOffset s, state := nextState s,
    isRead := nextIsRead s, dataDrv := nextDataDrv s, dataBit := nextDataBit s }

/-- The signals and output ports of this tick (10 R33, R37; the function `G` of 46 R200). -/
def wiresOf (s : State) : Wires :=
  { sclRising := sclRising s, sclFalling := sclFalling s, sdaRising := sdaRising s, sdaFalling := sdaFalling s,
    start := startSeen s, stop := stopSeen s, byteComplete := byteComplete s, outBit := outBit s, addrMatch := addrMatch s,
    captureDir := strobes .captureDir s, ocLoad := strobes .ocLoad s, ocInc := strobes .ocInc s,
    dataDrvEn := strobes .dataDrvEn s, dataDrvStop := strobes .dataDrvStop s, normalNext := (decision s).normalNext,
    masterAck := masterAck s, masterNack := masterNack s, ackDrive := ackDrive s,
    sdaOe := sdaOe s, sdaO := sdaO s, sclOe := sclOe s, sclO := sclO s,
    memAddr := s.regs.offset, memWe := strobes .memWe s, memWdata := s.regs.value, memRdata := memRdata s }

/-- The commit of a tick (00 R12): registers and memory take their next values together, the tick's signals stay to be seen. -/
def tickState (s : State) : State := { s with regs := nextRegs s, mem := nextMem s, wires := wiresOf s }

/-- The memory after a reset: not touched (70 R250, R253), but for the cell of a write request issued in this very tick,
which may hold any value afterwards (93 U12; log 5): a free value of this reset alone. -/
def resetMem (s : State) : Memory :=
  if strobes .memWe s then s.mem.write s.regs.offset (Config.cutWrite s.resets) else s.mem

/-- Reset (70 R250): every register at `R(0)`, both lines released (R251), whatever the core was doing; the configuration
and the environment's side of the state stay. The free value of this reset is used up (log 3). -/
def resetState (s : State) : State :=
  { s with regs := Regs.reset, mem := resetMem s, wires := Wires.idle, resets := s.resets + 1 }

/-- A tick has passed: the input ports take the levels of the next tick, which are fresh free values where they are not
fixed (93 U6, U10; log 2, log 3). -/
def advance (s : State) : State :=
  match s.ahead with
  | [] => { s with inputs := Inputs.draw (s.drawn + 1), drawn := s.drawn + 1 }
  | inp :: rest => { s with inputs := inp, ahead := rest }

/-- The outcome type of this machine. -/
abbrev Result := Host.Outcome State Fault Refusal

/-- One tick (46 R200). It has no way to stop: "no access is ever out of range" (20 R60; log 8). -/
def tick (s : State) : Result := .next (tickState s)

/-- Runs `f` from the state an outcome gives; a stop stays a stop. -/
def andThen (o : Result) (f : State → Result) : Result :=
  match o with
  | .next s => f s
  | .fault e => .fault e
  | .refused e => .refused e

/-- Commits new registers and nothing else. -/
def commitRegs (s : State) (r : Regs) : Result := .next { s with regs := r }

/-- Shows new signals and changes nothing else. -/
def showWires (s : State) (w : Wires) : Result := .next { s with wires := w }

end Sys2Proof.Machine
end

