-- ==== Sys2Proof/Machine/Operands.lean ====
section
/-!
DEFINITION. The operand forms of the wire operations (30_encoding.md): the bus master, which performs CONDITION, BIT and FRAME9
operations on the raw lines in phases (95_test_vectors.md section 1), the bus (70_reset_and_hazards.md R262), and the ticks of
the core under them. The core's side of every such tick is the whole tick of 46_tick_step.md R200 and nothing else.
-/

namespace Sys2Proof.Machine

/-- The `state` register at a given state (10 R28). DESIGN CHOICE: where a STATE row is run while the register has another value,
the register takes the row's state first (log 10). -/
def withState (st : ProtocolState) (s : State) : State := { s with regs := { s.regs with state := st } }

/-! ### The bus -/

/-- The level of the SCL line: the AND of the master, the rest of the bus and the core (70 R262, 47 R210 NT1; log 14). -/
def sclLine (s : State) : Bit := s.master.scl && s.inputs.sclIn && !sclOe s

/-- The level of the SDA line (70 R262, 47 R210 NT1; log 14). -/
def sdaLine (s : State) : Bit := s.master.sda && s.inputs.sdaIn && !sdaOe s

/-- The core's line inputs at the levels of the lines. -/
def wired (s : State) : State := { s with inputs := { s.inputs with sclIn := sclLine s, sdaIn := sdaLine s } }

/-- One tick of the core on the bus: the tick of 46 R200, or a reset if the reset source asserts it (log 5); then the inputs
of the next tick are there. -/
def busTick (s : State) : State := advance (if s.inputs.reset then resetState s else tickState (wired s))

/-- That many ticks. -/
def busTicks : Nat → State → State
  | 0, s => s
  | n + 1, s => busTicks n (busTick s)

/-! ### The master -/

/-- The master drives SCL with `c` and SDA with `d`. -/
def drive (c d : Bit) (s : State) : State := { s with master := ⟨c, d⟩ }

/-- The master's record of the SDA level of a slot, the slot transferred first in the highest place (30 R80; log 23). -/
def recordBit (b : Bit) (s : State) : State := { s with wire := BitVec.concat (s.wire.extractLsb' 0 8) b }

/-- What the master notes at the start of a phase. -/
def noted (ph : Phase) (s : State) : State := if ph.samples then recordBit (sdaLine s) s else s

/-- The ticks of a phase. -/
def perform (ph : Phase) (s : State) : State := busTicks ph.ticks (noted ph (drive ph.scl ph.sda s))

/-- Whether the master has released SCL and the line is low: it waits (47 R210 NT5). -/
def waits (s : State) : Bit := s.master.scl && !sclLine s

/-- The phases of a bus operation one after the other. A phase with SCL high begins only when the line is high (47 R210 NT5);
while it is not, because the core stretches (43 R148) or another party holds it low, the master waits with the phases left in
`bus` (log 15). DESIGN CHOICE: it takes up the levels of the phase before it looks at the line, so the SDA change of a START or STOP
is made at once also where another party holds SCL low, and the wait comes after it (log 29). -/
def play : List Phase → State → State
  | [], s => { s with bus := [] }
  | ph :: rest, s =>
    if waits (drive ph.scl ph.sda s) then { drive ph.scl ph.sda s with bus := ph :: rest }
    else play rest (perform ph s)

/-- A bus operation: what the master still has to do, then its phases. -/
def performAll (phases : List Phase) (s : State) : Result := .next (play (s.bus ++ phases) s)

/-- The step of a master that waits: one tick if the line is still low, else the rest of its operation (47 R210 NT5, 43 R155). -/
def resume (s : State) : State := if waits s then busTick s else play s.bus s

/-- SCL low, SDA changed from `p` to `d` in it (47 R210 NT2, NT4; 70 R265). -/
def lowPhases (pace : Pace) (p d : Bit) : List Phase :=
  [{ scl := false, sda := p, ticks := pace.hold, samples := false },
   { scl := false, sda := d, ticks := pace.setup, samples := false }]

/-- A bit slot (30 R84): SCL low with SDA changed from `p` to `d` in it, SCL high. -/
def slotPhases (pace : Pace) (p d : Bit) : List Phase :=
  lowPhases pace p d ++ [{ scl := true, sda := d, ticks := pace.high, samples := true }]

/-- The phase an operation ends with. -/
def restPhase (pace : Pace) (c d : Bit) : Phase := { scl := c, sda := d, ticks := pace.rest, samples := false }

/-- The bit slots of a frame and the SCL low phase that follows the last one (30 R85, 47 R214), SDA having been at `p`. -/
def framePhases (pace : Pace) : Bit → List Bit → List Phase
  | p, [] => [restPhase pace false p]
  | p, d :: ds => slotPhases pace p d ++ framePhases pace d ds

/-- A START (`d` is 1) or STOP (`d` is 0): SDA changes from `d` while SCL is high (30 R81, R82; 70 R263). Where the lines are not
at SCL high and SDA `d`, the master first brings them there through an SCL low phase, whose rising edge the core sees as one
more bit slot of value `d` (47 R213; 95_test_vectors.md section 1). -/
def conditionPhases (pace : Pace) (master : Levels) (d : Bit) : List Phase :=
  if master.scl && master.sda == d then [restPhase pace true !d]
  else
    lowPhases pace master.sda d ++
      [{ scl := true, sda := d, ticks := pace.high, samples := false }, restPhase pace true !d]

/-- A single bit slot, after which SCL stays high (30 R84). -/
def bitPhases (pace : Pace) (p d : Bit) : List Phase :=
  lowPhases pace p d ++ [{ scl := true, sda := d, ticks := pace.rest, samples := true }]

/-- The bits of a byte in the order of the wire: most significant first (20 R67). -/
def byteBits (b : Byte) : List Bit :=
  [b.getLsbD 7, b.getLsbD 6, b.getLsbD 5, b.getLsbD 4, b.getLsbD 3, b.getLsbD 2, b.getLsbD 1, b.getLsbD 0]

/-- A START or STOP on the bus. -/
def condition (d : Bit) (s : State) : Result := performAll (conditionPhases s.pace s.master d) s

/-- A single bit slot in which the master gives SDA `d`. -/
def bitSlot (d : Bit) (s : State) : Result := performAll (bitPhases s.pace s.master.sda d) s

/-- A frame (30 R85): the master gives SDA the bits of a byte in slots 1 to 8 and `ack` in slot 9. -/
def frame (byte : Byte) (ack : Bit) (s : State) : Result :=
  performAll (framePhases s.pace s.master.sda (byteBits byte ++ [ack])) s

/-- The byte of the frames the core transmits, as the master drives it: SDA released in all eight slots (30 R89, 47 R210 NT4). -/
def released : Byte := 0xFF

end Sys2Proof.Machine
end

