-- ==== Sys2Proof/Machine/Acknowledger.lean ====
section
/-!
DEFINITION. The Acknowledger, the clock-stretching arbiter and the pin drive (43_acknowledger.md R145 to R150): each operation
shows its signal or drives its port and writes no register (log 21).
-/

namespace Sys2Proof.Machine

/-- ACK_DRIVE (43 R145). -/
def execAckDrive (s : State) : Result := showWires s { s.wires with ackDrive := ackDrive s }

/-- SDA_OE (43 R146): the port `sda_oe`. -/
def execSdaOe (s : State) : Result := showWires s { s.wires with sdaOe := sdaOe s }

/-- SDA_O (43 R147): the port `sda_o`, constant 0. -/
def execSdaO (s : State) : Result := showWires s { s.wires with sdaO := sdaO s }

/-- SCL_OE (43 R148): the port `scl_oe`. -/
def execSclOe (s : State) : Result := showWires s { s.wires with sclOe := sclOe s }

/-- SCL_O (43 R149): the port `scl_o`, constant 0. -/
def execSclO (s : State) : Result := showWires s { s.wires with sclO := sclO s }

/-- MASTER_ACK (43 R150): both signals of the rule. -/
def execMasterAck (s : State) : Result :=
  showWires s { s.wires with masterAck := masterAck s, masterNack := masterNack s }

end Sys2Proof.Machine
end

