-- ==== Sys2Proof/Machine/Bus.lean ====
section
/-!
DEFINITION. The FRAME9 rows (30_encoding.md R85 to R90): the nine bit slots of the frame, which the master performs on the raw
lines through the core's own tick, with clock stretching (43 R148, 47 R223).
No effect is stated here beyond the per-tick rules; 47_bus_operations.md R214 to R220 are what follows from them (log 13).
A frame met in a state other than the one its type needs is run all the same: the core does with its bits what the tick says.
-/

namespace Sys2Proof.Machine

/-- ADDR_W (47 R214): the byte `2*ADDR`, slot 9 left to the core. -/
def execAddrW (s : State) : Result := frame (s.cfg.addressByte false) true s

/-- ADDR_R (47 R215): the byte `2*ADDR + 1`, slot 9 left to the core. -/
def execAddrR (s : State) : Result := frame (s.cfg.addressByte true) true s

/-- ADDR_MISS (47 R216): any other address byte; slot 9 is what another device answers (30 R86; log 19). -/
def execAddrMiss (byte : Byte) (ack : Bit) (s : State) : Result := frame byte ack s

/-- OFFSET (47 R217): the offset byte, slot 9 left to the core. -/
def execOffset (o : Byte) (s : State) : Result := frame o true s

/-- WDATA (47 R218): the data byte, slot 9 left to the core. -/
def execWdata (d : Byte) (s : State) : Result := frame d true s

/-- RDATA_A (47 R219): eight slots left to the core, slot 9 pulled low by the master. -/
def execRdataA (s : State) : Result := frame released false s

/-- RDATA_N (47 R220): eight slots left to the core, slot 9 released by the master. -/
def execRdataN (s : State) : Result := frame released true s

end Sys2Proof.Machine
end

