-- ==== Sys2Proof/Machine/Framing.lean ====
section
/-!
DEFINITION. The Edge Detector and the Framing Detector (41_edge_framing.md R121 to R126): each operation shows its pulse and
writes no register (log 21). Then the three CONDITION rows (30_encoding.md R81 to R83, 47_bus_operations.md R211 to R213) and
the two BIT rows (30 R84), performed by the master on the raw lines: the core sees the row's pattern in one tick of the operation
(log 11, log 12).
-/

namespace Sys2Proof.Machine

/-- SCL_RISING (41 R121). -/
def execSclRising (s : State) : Result := showWires s { s.wires with sclRising := sclRising s }

/-- SCL_FALLING (41 R122). -/
def execSclFalling (s : State) : Result := showWires s { s.wires with sclFalling := sclFalling s }

/-- SDA_RISING (41 R123). -/
def execSdaRising (s : State) : Result := showWires s { s.wires with sdaRising := sdaRising s }

/-- SDA_FALLING (41 R124). -/
def execSdaFalling (s : State) : Result := showWires s { s.wires with sdaFalling := sdaFalling s }

/-- START_DETECT (41 R125). -/
def execStartDetect (s : State) : Result := showWires s { s.wires with start := startSeen s }

/-- STOP_DETECT (41 R126). -/
def execStopDetect (s : State) : Result := showWires s { s.wires with stop := stopSeen s }

/-- S (47 R211): SDA falls while SCL is high. -/
def execCondS (s : State) : Result := condition true s

/-- Sr (47 R212): "the same operation as S with the same effect"; only the state before it differs. -/
def execCondSr (s : State) : Result := condition true s

/-- P (47 R213): SDA rises while SCL is high. -/
def execCondP (s : State) : Result := condition false s

/-- BIT0 (30 R84): SCL rises with SDA low. -/
def execBit0 (s : State) : Result := bitSlot false s

/-- BIT1 (30 R84): SCL rises with SDA released by the master. -/
def execBit1 (s : State) : Result := bitSlot true s

end Sys2Proof.Machine
end

