-- ==== Sys2Proof/Machine/Protocol.lean ====
section
/-!
DEFINITION. The Address Matcher and the Protocol State Machine (44_protocol_fsm.md). A STATE row is the operation the core
performs in a tick whose `state` register has that value (10_state.md R28): the whole tick in that state, to which the register is
set if it has another value (log 10). Then the EVERY_TICK rows of the file, each on its own (log 21).
-/

namespace Sys2Proof.Machine

/-- WAIT_START (44 R162). -/
def execWaitStart (s : State) : Result := tick (withState .waitStart s)

/-- RCV_ADDRESS (44 R163). -/
def execRcvAddress (s : State) : Result := tick (withState .rcvAddress s)

/-- ACK_ADDRESS0 (44 R164). -/
def execAckAddress0 (s : State) : Result := tick (withState .ackAddress0 s)

/-- ACK_ADDRESS1 (44 R165). -/
def execAckAddress1 (s : State) : Result := tick (withState .ackAddress1 s)

/-- ACK_ADDRESS2 (44 R166). -/
def execAckAddress2 (s : State) : Result := tick (withState .ackAddress2 s)

/-- RCV_OFFSET (44 R167). -/
def execRcvOffset (s : State) : Result := tick (withState .rcvOffset s)

/-- ACK_OFFSET0 (44 R168). -/
def execAckOffset0 (s : State) : Result := tick (withState .ackOffset0 s)

/-- ACK_OFFSET1 (44 R169). -/
def execAckOffset1 (s : State) : Result := tick (withState .ackOffset1 s)

/-- ACK_OFFSET2 (44 R170). -/
def execAckOffset2 (s : State) : Result := tick (withState .ackOffset2 s)

/-- RCV_DATA (44 R171). -/
def execRcvData (s : State) : Result := tick (withState .rcvData s)

/-- ACK_DATA0 (44 R172). -/
def execAckData0 (s : State) : Result := tick (withState .ackData0 s)

/-- ACK_DATA1 (44 R173). -/
def execAckData1 (s : State) : Result := tick (withState .ackData1 s)

/-- ACK_DATA2 (44 R174). -/
def execAckData2 (s : State) : Result := tick (withState .ackData2 s)

/-- READ (44 R175). -/
def execRead (s : State) : Result := tick (withState .read s)

/-- ACK_READ (44 R176). -/
def execAckRead (s : State) : Result := tick (withState .ackRead s)

/-- ADDR_MATCH (44 R161). -/
def execAddrMatch (s : State) : Result := showWires s { s.wires with addrMatch := addrMatch s }

/-- DIRECTION_CAPTURE (44 R180): only in the tick of a successful match. -/
def execDirectionCapture (s : State) : Result := commitRegs s { s.regs with isRead := nextIsRead s }

/-- START_OVERRIDE (44 R177): the state, and the two clears the rule names. -/
def execStartOverride (s : State) : Result :=
  commitRegs s (if startSeen s then { s.regs with state := .rcvAddress, bitCount := 0, dataDrv := false } else s.regs)

/-- STOP_OVERRIDE (44 R178): the state, and the clear the rule names; `bit_count` is kept. -/
def execStopOverride (s : State) : Result :=
  commitRegs s (if stopSeen s then { s.regs with state := .waitStart, dataDrv := false } else s.regs)

/-- STATE_COMMIT (44 R179). -/
def execStateCommit (s : State) : Result := commitRegs s { s.regs with state := nextState s }

end Sys2Proof.Machine
end

