-- ==== Sys2Proof/Machine/ReaderWriter.lean ====
section
/-!
DEFINITION. The byte-stream reader/writer (45_reader_writer.md R190 to R195), each operation on its own (log 21).
-/

namespace Sys2Proof.Machine

/-- OFFSET_LOAD (45 R190): `if oc_load: offset <- value mod N`. -/
def execOffsetLoad (s : State) : Result :=
  commitRegs s { s.regs with offset := if strobes .ocLoad s then loadedOffset s else s.regs.offset }

/-- OFFSET_INC (45 R191): `elif oc_inc: offset <- (offset + 1) mod N`. -/
def execOffsetInc (s : State) : Result :=
  commitRegs s { s.regs with offset := if strobes .ocInc s then steppedOffset s else s.regs.offset }

/-- OFFSET_HOLD (45 R192): `offset` keeps its value. -/
def execOffsetHold (s : State) : Result := commitRegs s { s.regs with offset := s.regs.offset }

/-- MEM_ADDR (45 R193): the port `mem_addr`, in every tick and every state. -/
def execMemAddr (s : State) : Result := showWires s { s.wires with memAddr := s.regs.offset }

/-- MEM_WRITE (45 R194): the request `write(offset, value)`, with its three ports; `mem_wdata` is `value` in every tick. -/
def execMemWrite (s : State) : Result :=
  .next { s with
    mem := nextMem s
    wires := { s.wires with memWe := strobes .memWe s, memAddr := s.regs.offset, memWdata := s.regs.value } }

/-- MEM_READ (45 R195): the store answers on `mem_rdata`; in a tick with `data_drv_en` the bit `7 - bit_count` of the answer
is latched into `data_bit`, in every other tick the answer is ignored. -/
def execMemRead (s : State) : Result :=
  .next { s with
    regs := { s.regs with dataBit := nextDataBit s }
    wires := { s.wires with memAddr := s.regs.offset, memRdata := memRdata s } }

end Sys2Proof.Machine
end

