-- ==== Sys2Proof/Machine/Shifter.lean ====
section
/-!
DEFINITION. The Bit/Byte Shifter, the bit counter and the output bit latch (42_shifter.md R130 to R139), each operation on
its own (log 21).
-/

namespace Sys2Proof.Machine

/-- COUNT_CLEAR (42 R130): a START clears the counter, in any state. -/
def execCountClear (s : State) : Result :=
  commitRegs s { s.regs with bitCount := if countClears s then 0 else s.regs.bitCount }

/-- COUNT_WRAP (42 R131): the ninth rising edge returns the counter from 8 to 0, in any state. -/
def execCountWrap (s : State) : Result :=
  commitRegs s { s.regs with bitCount := if countWraps s then 0 else s.regs.bitCount }

/-- COUNT_INC (42 R132): a rising edge in a byte-transfer state. -/
def execCountInc (s : State) : Result :=
  commitRegs s { s.regs with bitCount := if countIncs s then s.regs.bitCount + 1 else s.regs.bitCount }

/-- SHIFT_IN (42 R133): a rising edge in a receive state shifts `sda` in at bit 0. -/
def execShiftIn (s : State) : Result := commitRegs s { s.regs with value := nextValue s }

/-- SHIFT_HOLD (42 R134): `bit_count` and `value` keep their values. -/
def execShiftHold (s : State) : Result :=
  commitRegs s { s.regs with bitCount := s.regs.bitCount, value := s.regs.value }

/-- BYTE_COMPLETE (42 R135). -/
def execByteComplete (s : State) : Result := showWires s { s.wires with byteComplete := byteComplete s }

/-- OUT_BIT (42 R137): reads the store unless the byte is complete. -/
def execOutBit (s : State) : Result := showWires s { s.wires with outBit := outBit s }

/-- DATA_DRV (42 R138). -/
def execDataDrv (s : State) : Result := commitRegs s { s.regs with dataDrv := nextDataDrv s }

/-- DATA_BIT (42 R139): latches the outgoing bit of the store's byte. -/
def execDataBit (s : State) : Result := commitRegs s { s.regs with dataBit := nextDataBit s }

end Sys2Proof.Machine
end

