-- ==== Sys2Proof/Machine/Synchronizer.lean ====
section
/-!
DEFINITION. The Line Synchronizer (40_synchronizer.md) and the Edge Detector's history (41_edge_framing.md R120), each
operation on its own: it reads the present registers and commits its own registers only (log 21).
-/

namespace Sys2Proof.Machine

/-- SYNC_STAGE1 (40 R110): `scl_ff1 <- scl_in; sda_ff1 <- sda_in`. -/
def execSyncStage1 (s : State) : Result := commitRegs s { s.regs with sclFf1 := nextSclFf1 s, sdaFf1 := nextSdaFf1 s }

/-- SYNC_STAGE2 (40 R111): `scl_ff2 <- scl_ff1; sda_ff2 <- sda_ff1`. -/
def execSyncStage2 (s : State) : Result := commitRegs s { s.regs with sclFf2 := nextSclFf2 s, sdaFf2 := nextSdaFf2 s }

/-- SAMPLE_COUNT (40 R112): counts up from 0 and wraps at `K-1`. -/
def execSampleCount (s : State) : Result := commitRegs s { s.regs with sampCount := nextSampCount s }

/-- SAMPLE_CAPTURE (40 R113): both lines together, in capture ticks only. -/
def execSampleCapture (s : State) : Result := commitRegs s { s.regs with scl := nextScl s, sda := nextSda s }

/-- EDGE_HISTORY (41 R120): `scl_prev <- scl; sda_prev <- sda`, in every tick. -/
def execEdgeHistory (s : State) : Result := commitRegs s { s.regs with sclPrev := s.regs.scl, sdaPrev := s.regs.sda }

end Sys2Proof.Machine
end

