-- ==== Sys2Proof/Machine/Tick.lean ====
section
/-!
DEFINITION. The whole tick (46_tick_step.md R200) and reset (70_reset_and_hazards.md R250).
-/

namespace Sys2Proof.Machine

/-- TICK_STEP (46 R200): all components in one tick. -/
def execTickStep (s : State) : Result := tick s

/-- RESET (70 R250). -/
def execReset (s : State) : Result := .next (resetState s)

end Sys2Proof.Machine
end

