-- ==== Sys2Proof/Machine/Dispatch.lean ====
section
/-!
DEFINITION. One arm per operation of the opcode table, each one call of that operation's meaning.
-/

namespace Sys2Proof.Machine

def exec (i : Instr) (s : State) : Host.Outcome State Fault Refusal :=
  match i with
  | .condS => Sys2Proof.Machine.execCondS s
  | .condSr => Sys2Proof.Machine.execCondSr s
  | .condP => Sys2Proof.Machine.execCondP s
  | .bit0 => Sys2Proof.Machine.execBit0 s
  | .bit1 => Sys2Proof.Machine.execBit1 s
  | .addrW => Sys2Proof.Machine.execAddrW s
  | .addrR => Sys2Proof.Machine.execAddrR s
  | .addrMiss byte ack => Sys2Proof.Machine.execAddrMiss byte ack s
  | .offset o => Sys2Proof.Machine.execOffset o s
  | .wdata d => Sys2Proof.Machine.execWdata d s
  | .rdataA => Sys2Proof.Machine.execRdataA s
  | .rdataN => Sys2Proof.Machine.execRdataN s
  | .waitStart => Sys2Proof.Machine.execWaitStart s
  | .rcvAddress => Sys2Proof.Machine.execRcvAddress s
  | .ackAddress0 => Sys2Proof.Machine.execAckAddress0 s
  | .ackAddress1 => Sys2Proof.Machine.execAckAddress1 s
  | .ackAddress2 => Sys2Proof.Machine.execAckAddress2 s
  | .rcvOffset => Sys2Proof.Machine.execRcvOffset s
  | .ackOffset0 => Sys2Proof.Machine.execAckOffset0 s
  | .ackOffset1 => Sys2Proof.Machine.execAckOffset1 s
  | .ackOffset2 => Sys2Proof.Machine.execAckOffset2 s
  | .rcvData => Sys2Proof.Machine.execRcvData s
  | .ackData0 => Sys2Proof.Machine.execAckData0 s
  | .ackData1 => Sys2Proof.Machine.execAckData1 s
  | .ackData2 => Sys2Proof.Machine.execAckData2 s
  | .read => Sys2Proof.Machine.execRead s
  | .ackRead => Sys2Proof.Machine.execAckRead s
  | .syncStage1 => Sys2Proof.Machine.execSyncStage1 s
  | .syncStage2 => Sys2Proof.Machine.execSyncStage2 s
  | .sampleCount => Sys2Proof.Machine.execSampleCount s
  | .sampleCapture => Sys2Proof.Machine.execSampleCapture s
  | .edgeHistory => Sys2Proof.Machine.execEdgeHistory s
  | .sclRising => Sys2Proof.Machine.execSclRising s
  | .sclFalling => Sys2Proof.Machine.execSclFalling s
  | .sdaRising => Sys2Proof.Machine.execSdaRising s
  | .sdaFalling => Sys2Proof.Machine.execSdaFalling s
  | .startDetect => Sys2Proof.Machine.execStartDetect s
  | .stopDetect => Sys2Proof.Machine.execStopDetect s
  | .countClear => Sys2Proof.Machine.execCountClear s
  | .countWrap => Sys2Proof.Machine.execCountWrap s
  | .countInc => Sys2Proof.Machine.execCountInc s
  | .shiftIn => Sys2Proof.Machine.execShiftIn s
  | .shiftHold => Sys2Proof.Machine.execShiftHold s
  | .byteComplete => Sys2Proof.Machine.execByteComplete s
  | .outBit => Sys2Proof.Machine.execOutBit s
  | .dataDrv => Sys2Proof.Machine.execDataDrv s
  | .dataBit => Sys2Proof.Machine.execDataBit s
  | .ackDrive => Sys2Proof.Machine.execAckDrive s
  | .sdaOe => Sys2Proof.Machine.execSdaOe s
  | .sdaO => Sys2Proof.Machine.execSdaO s
  | .sclOe => Sys2Proof.Machine.execSclOe s
  | .sclO => Sys2Proof.Machine.execSclO s
  | .masterAck => Sys2Proof.Machine.execMasterAck s
  | .addrMatch => Sys2Proof.Machine.execAddrMatch s
  | .directionCapture => Sys2Proof.Machine.execDirectionCapture s
  | .startOverride => Sys2Proof.Machine.execStartOverride s
  | .stopOverride => Sys2Proof.Machine.execStopOverride s
  | .stateCommit => Sys2Proof.Machine.execStateCommit s
  | .offsetLoad => Sys2Proof.Machine.execOffsetLoad s
  | .offsetInc => Sys2Proof.Machine.execOffsetInc s
  | .offsetHold => Sys2Proof.Machine.execOffsetHold s
  | .memAddr => Sys2Proof.Machine.execMemAddr s
  | .memWrite => Sys2Proof.Machine.execMemWrite s
  | .memRead => Sys2Proof.Machine.execMemRead s
  | .tickStep => Sys2Proof.Machine.execTickStep s
  | .reset => Sys2Proof.Machine.execReset s

end Sys2Proof.Machine
end

