-- ==== Sys2Proof/Machine/Fetch.lean ====
section
/-!
DEFINITION. Where `step` finds its next operation, and which operations consist of ticks of their own. With nothing queued by
the master the core performs the tick its `state` register selects (10_state.md R28, R41: the part of a program counter);
otherwise the first operation of the queue (log 16).
-/

namespace Sys2Proof.Machine

/-- The operation the `state` register selects, with an empty queue (10 R28, R41). -/
def idleOp (s : State) : Instr × List Byte := (s.regs.state.instr, [])

/-- The operation `step` runs and the bytes left in the queue. Bytes that are no operation are dropped: the master then does
nothing, and the core performs the tick of its state, since no input is refused (60 R230; log 16). DESIGN CHOICE: a queued STATE word
is run as it is, without a look at the `state` register (log 10). -/
def fetch (s : State) : Instr × List Byte :=
  if s.queue.isEmpty then idleOp s
  else
    match decode s.cfg s.regs.state s.queue with
    | .ok r => r
    | .error _ => idleOp s

/-- Whether an operation is a bus operation of the master, which is many ticks and reads the inputs of each; the others take
one tick (log 13). -/
def isBusOp : Instr → Bool
  | .condS | .condSr | .condP | .bit0 | .bit1 | .addrW | .addrR | .addrMiss _ _ | .offset _ | .wdata _ | .rdataA
  | .rdataN => true
  | .waitStart | .rcvAddress | .ackAddress0 | .ackAddress1 | .ackAddress2 | .rcvOffset | .ackOffset0 | .ackOffset1
  | .ackOffset2 | .rcvData | .ackData0 | .ackData1 | .ackData2 | .read | .ackRead | .syncStage1 | .syncStage2
  | .sampleCount | .sampleCapture | .edgeHistory | .sclRising | .sclFalling | .sdaRising | .sdaFalling | .startDetect
  | .stopDetect | .countClear | .countWrap | .countInc | .shiftIn | .shiftHold | .byteComplete | .outBit | .dataDrv
  | .dataBit | .ackDrive | .sdaOe | .sdaO | .sclOe | .sclO | .masterAck | .addrMatch | .directionCapture
  | .startOverride | .stopOverride | .stateCommit | .offsetLoad | .offsetInc | .offsetHold | .memAddr | .memWrite
  | .memRead | .tickStep | .reset => false

/-- The outcome of an operation of one tick, with that tick passed. -/
def andAdvance (o : Result) : Result := andThen o (fun s => .next (advance s))

/-- `s` with the word of a row of the opcode table where `fetch` reads it (log 18, log 22): a state number in the `state`
register with nothing queued; a frame in the queue, with the core in the context of an address frame (RCV_ADDRESS and
`bit_count == 0`, as after S: 47 R214); a word without bits, or one that is no operation, in the queue. The master is in no
other operation and the reset input is low, or no operation would be fetched. -/
def placeWord (s : State) (nbits w : Nat) : State :=
  let s := { s with inputs := { s.inputs with reset := false }, bus := [], queue := tableBytes nbits w }
  if nbits = 0 then s
  else if nbits ≤ 8 then
    match ProtocolState.ofNumber (BitVec.ofNat 8 w).toNat with
    | some st => { s with queue := [], regs := { s.regs with state := st } }
    | none => s
  else { s with regs := { s.regs with state := .rcvAddress, bitCount := 0 } }

end Sys2Proof.Machine
end

