-- ==== Sys2Proof/Machine/Step.lean ====
section
/-!
DEFINITION. One step of the machine: reset if the reset source asserts it (70_reset_and_hazards.md R250), else a tick or the rest
of the bus operation the master is waiting in (47_bus_operations.md R210 NT5), else the operation `fetch` finds. After each tick
the environment gives the input ports of the next. A step always answers a next state (60_exceptions.md R230).
-/

namespace Sys2Proof.Machine

/-- The operation `fetch` found, run on the state without its word; a bus operation passes its own ticks. -/
def runFetched (f : Instr × List Byte) (s : State) : Result :=
  if isBusOp f.1 then exec f.1 { s with queue := f.2 } else andAdvance (exec f.1 { s with queue := f.2 })

/-- One step. -/
def step (s : State) : Host.Outcome State Fault Refusal :=
  if s.inputs.reset then andAdvance (exec .reset s)
  else if s.bus.isEmpty then runFetched (fetch s) s
  else .next (resume s)

/-- `s` with the word of a row of the opcode table placed where `step` fetches its next operation. -/
def State.withFetchWord (s : State) (nbits w : Nat) : State := placeWord s nbits w

end Sys2Proof.Machine
end

