-- ==== Sys2Proof/Safety.lean ====
section
/-!
DEFINITION. The terms in which claims are stated: the invariants of 10_state.md R38, runs of ticks under given inputs and runs
of operations, what every tick does to the line registers and the shifter, written out in the words of the rules, and the premises
of bus operations (47_bus_operations.md R210).
-/

namespace Sys2Proof.Machine

/-- What every step keeps: R38 (a) to (c), the memory in canonical form with cells of `Mem[0..N-1]` only (20 R60), and no line
ever driven high (30 R96, 43 R147, R149). R38 (d) holds by the type of `state`. -/
abbrev Invariant (s : State) : Prop :=
  s.regs.sampCount < s.cfg.K ∧ s.regs.bitCount ≤ 8 ∧ s.regs.offset < s.cfg.N ∧
  s.mem.wf ∧ s.mem.within s.cfg.N ∧ s.wires.sdaO = false ∧ s.wires.sclO = false

/-- R38 (e): a data bit is driven in READ only. Single operations of a tick can break it, whole ticks cannot. -/
abbrev DrivesInRead (s : State) : Prop := s.regs.dataDrv = true → s.regs.state = .read

/-- The invariants of R38 that speak of one valuation. -/
abbrev TickInv (s : State) : Prop := Invariant s ∧ DrivesInRead s

/-- The machine with given levels on its input ports. -/
def withInputs (inp : Inputs) (s : State) : State := { s with inputs := inp }

/-- Ticks under given inputs, one after the other (00 R12). -/
def runTicks : List Inputs → State → Result
  | [], s => .next s
  | inp :: inps, s => andThen (exec .tickStep (withInputs inp s)) (runTicks inps)

/-- Operations one after the other. A bus operation passes its own ticks. -/
def runOps : List Instr → State → Result
  | [], s => .next s
  | i :: is, s => andThen (exec i s) (runOps is)

/-- Steps one after the other. -/
def runSteps : Nat → State → Result
  | 0, s => .next s
  | n + 1, s => andThen (step s) (runSteps n)

/-- The lines show a START in this tick: `{scl, sda_prev, sda} == 110` (30 R81). -/
abbrev showsStart (s : State) : Prop := s.regs.scl = true ∧ s.regs.sdaPrev = true ∧ s.regs.sda = false

/-- The lines show a STOP in this tick: `{scl, sda_prev, sda} == 101` (30 R82). -/
abbrev showsStop (s : State) : Prop := s.regs.scl = true ∧ s.regs.sdaPrev = false ∧ s.regs.sda = true

/-- No override acts in this tick. -/
abbrev noOverride (s : State) : Prop := ¬ showsStart s ∧ ¬ showsStop s

/-- The synchronized SCL is seen to rise in this tick (41 R121). -/
abbrev risesScl (s : State) : Prop := s.regs.scl = true ∧ s.regs.sclPrev = false

/-- What a tick does to the nine line registers, whatever the state: R110, R111, R112, R113 of 40, R120 of 41. -/
abbrev LinesAdvance (s t : State) : Prop :=
  t.regs.sclFf1 = s.inputs.sclIn ∧ t.regs.sdaFf1 = s.inputs.sdaIn ∧
  t.regs.sclFf2 = s.regs.sclFf1 ∧ t.regs.sdaFf2 = s.regs.sdaFf1 ∧
  t.regs.sampCount = (if s.regs.sampCount = s.cfg.K - 1 then 0 else s.regs.sampCount + 1) ∧
  t.regs.scl = (if s.regs.sampCount = s.cfg.K - 1 then s.regs.sclFf2 else s.regs.scl) ∧
  t.regs.sda = (if s.regs.sampCount = s.cfg.K - 1 then s.regs.sdaFf2 else s.regs.sda) ∧
  t.regs.sclPrev = s.regs.scl ∧ t.regs.sdaPrev = s.regs.sda

/-- What a tick in the state `st` does to the shifter: R130 to R134 of 42, with `2*value + sda` modulo 256 for the shift. -/
abbrev ShifterAdvances (st : ProtocolState) (s t : State) : Prop :=
  t.regs.bitCount =
    (if showsStart s then 0
     else if risesScl s then
       (if s.regs.bitCount = 8 then 0
        else if st = .rcvAddress ∨ st = .rcvOffset ∨ st = .rcvData ∨ st = .read then s.regs.bitCount + 1
        else s.regs.bitCount)
     else s.regs.bitCount) ∧
  t.regs.value =
    (if ¬ showsStart s ∧ risesScl s ∧ s.regs.bitCount ≠ 8 ∧ (st = .rcvAddress ∨ st = .rcvOffset ∨ st = .rcvData)
     then BitVec.ofNat 8 (2 * s.regs.value.toNat + s.regs.sda.toNat) else s.regs.value)

/-- What no operation of one tick touches: the configuration (00 R8), the inputs of this tick and the next, the bus master and
the draw counter. -/
abbrev EnvironmentKept (s t : State) : Prop :=
  t.cfg = s.cfg ∧ t.inputs = s.inputs ∧ t.ahead = s.ahead ∧ t.queue = s.queue ∧ t.master = s.master ∧ t.bus = s.bus ∧
  t.pace = s.pace ∧ t.drawn = s.drawn

/-- Every byte of memory reads as before. -/
abbrev MemoryKept (s t : State) : Prop := ∀ a, t.mem.read a = s.mem.read a

/-- The registers of the transaction, but for the shifter: `state`, `offset`, `is_read`, `data_drv`, `data_bit`. -/
abbrev Transaction (t : State) (st : ProtocolState) (offset : Nat) (isRead dataDrv dataBit : Bit) : Prop :=
  t.regs.state = st ∧ t.regs.offset = offset ∧ t.regs.isRead = isRead ∧ t.regs.dataDrv = dataDrv ∧ t.regs.dataBit = dataBit

/-- A tick that leaves the transaction in the state `st` and changes nothing else of it, nor memory. -/
abbrev OnlyMovesTo (st : ProtocolState) (s t : State) : Prop :=
  Transaction t st s.regs.offset s.regs.isRead s.regs.dataDrv s.regs.dataBit ∧ MemoryKept s t

/-- A tick taken in the state `st`: lines, shifter and environment as in every tick, and the signals of the tick shown. -/
abbrev TicksIn (st : ProtocolState) (s t : State) : Prop :=
  LinesAdvance s t ∧ ShifterAdvances st s t ∧ EnvironmentKept s t ∧ t.wire = s.wire ∧
  t.resets = s.resets

/-- What the strobes of the state `st` do in a tick: the offset register (45 R190 to R192), the direction flag (44 R180) and
every byte of memory (20 R63, 45 R194). They act under an override as well (44 R181). -/
abbrev StrobesAct (st : ProtocolState) (s t : State) : Prop :=
  t.regs.offset =
    (if st = .rcvOffset ∧ s.regs.bitCount = 8 then s.regs.value.toNat % s.cfg.N
     else if (st = .ackData2 ∧ s.regs.scl = false) ∨ (st = .ackRead ∧ risesScl s ∧ s.regs.sda = false)
     then (s.regs.offset + 1) % s.cfg.N else s.regs.offset) ∧
  t.regs.isRead =
    (if st = .rcvAddress ∧ s.regs.bitCount = 8 ∧ s.regs.value.toNat / 2 = s.cfg.addr.toNat
     then decide (s.regs.value.toNat % 2 = 1) else s.regs.isRead) ∧
  ∀ a, t.mem.read a =
    if st = .rcvData ∧ s.regs.bitCount = 8 ∧ a = s.regs.offset then s.regs.value else s.mem.read a

/-- What a tick in the state `st` does to the output latch (42 R138, R139): a START or STOP releases SDA, READ with SCL low
drives bit `7 - bit_count` of the addressed cell, or stops driving when the byte is complete. -/
abbrev OutputAdvances (st : ProtocolState) (s t : State) : Prop :=
  t.regs.dataDrv =
    (if showsStart s ∨ showsStop s then false
     else if st = .read ∧ s.regs.scl = false then decide (s.regs.bitCount ≠ 8) else s.regs.dataDrv) ∧
  t.regs.dataBit =
    (if st = .read ∧ s.regs.scl = false ∧ s.regs.bitCount ≠ 8
     then (s.mem.read s.regs.offset).getLsbD (7 - s.regs.bitCount) else s.regs.dataBit)

/-- The transition summary (44 R182) without the two override rows: where a tick in the state `st` goes. -/
def tableNext (st : ProtocolState) (s : State) : ProtocolState :=
  match st with
  | .waitStart => .waitStart
  | .rcvAddress =>
    if s.regs.bitCount = 8 then (if s.regs.value.toNat / 2 = s.cfg.addr.toNat then .ackAddress0 else .waitStart)
    else .rcvAddress
  | .ackAddress0 => if s.regs.scl = false then .ackAddress1 else .ackAddress0
  | .ackAddress1 => if s.regs.scl = true then .ackAddress2 else .ackAddress1
  | .ackAddress2 =>
    if s.regs.scl = false then (if s.regs.isRead = true then .read else .rcvOffset) else .ackAddress2
  | .rcvOffset => if s.regs.bitCount = 8 then .ackOffset0 else .rcvOffset
  | .ackOffset0 => if s.regs.scl = false then .ackOffset1 else .ackOffset0
  | .ackOffset1 => if s.regs.scl = true then .ackOffset2 else .ackOffset1
  | .ackOffset2 => if s.regs.scl = false then .rcvData else .ackOffset2
  | .rcvData => if s.regs.bitCount = 8 then .ackData0 else .rcvData
  | .ackData0 => if s.regs.scl = false then .ackData1 else .ackData0
  | .ackData1 => if s.regs.scl = true then .ackData2 else .ackData1
  | .ackData2 => if s.regs.scl = false then .rcvData else .ackData2
  | .read => if s.regs.scl = false ∧ s.regs.bitCount = 8 then .ackRead else .read
  | .ackRead => if risesScl s then (if s.regs.sda = true then .waitStart else .read) else .ackRead

/-- Where a tick goes with the override (44 R179). -/
abbrev StateAdvances (st : ProtocolState) (s t : State) : Prop :=
  t.regs.state = if showsStart s then .rcvAddress else if showsStop s then .waitStart else tableNext st s

/-- The output ports of a tick in the state `st` (10 R37, 43 R145 to R149, 45 R193, R194). -/
abbrev PortsShow (st : ProtocolState) (s t : State) : Prop :=
  t.wires.sdaOe =
    decide ((st = .ackAddress1 ∨ st = .ackAddress2 ∨ st = .ackOffset1 ∨ st = .ackOffset2 ∨ st = .ackData1 ∨ st = .ackData2) ∨
      (s.regs.dataDrv = true ∧ s.regs.dataBit = false)) ∧
  t.wires.sdaO = false ∧
  t.wires.sclOe =
    decide (s.inputs.storeBusy = true ∧ s.regs.scl = false ∧ (st = .ackAddress1 ∨ st = .ackOffset1 ∨ st = .ackData1)) ∧
  t.wires.sclO = false ∧
  t.wires.memAddr = s.regs.offset ∧ t.wires.memWdata = s.regs.value ∧
  t.wires.memWe = decide (st = .rcvData ∧ s.regs.bitCount = 8)

/-- The drive intents shown after a tick. -/
abbrev Drives (t : State) (sda scl : Bit) : Prop := t.wires.sdaOe = sda ∧ t.wires.sclOe = scl

/-- A START is taken in the state `st` (44 R177, 60 R233): RCV_ADDRESS, the two clears, and nothing else but what the state's
strobe does in that same tick (R181). -/
abbrev StartTaken (st : ProtocolState) (s t : State) : Prop :=
  t.regs.state = .rcvAddress ∧ t.regs.bitCount = 0 ∧ t.regs.dataDrv = false ∧ t.regs.value = s.regs.value ∧
  t.regs.dataBit = s.regs.dataBit ∧ StrobesAct st s t ∧ LinesAdvance s t ∧ EnvironmentKept s t ∧ t.wire = s.wire ∧
  t.resets = s.resets

/-- A STOP is taken in the state `st` (44 R178, 60 R234): WAIT_START and one clear; the shifter as in every tick. -/
abbrev StopTaken (st : ProtocolState) (s t : State) : Prop :=
  t.regs.state = .waitStart ∧ t.regs.dataDrv = false ∧ t.regs.dataBit = s.regs.dataBit ∧
  StrobesAct st s t ∧ TicksIn st s t

/-- The BIT operation of a bit (30 R84). -/
def bitOp (b : Bit) : Instr := if b then .bit1 else .bit0

/-- The nine-bit frame `{byte, ack}` as a number: the byte above the acknowledge slot (30 R80). -/
abbrev SeenOnWire (t : State) (byte : Byte) (ack : Bit) : Prop := t.wire = BitVec.ofNat 9 (2 * byte.toNat + ack.toNat)

/-- What a frame leaves in the registers of the transaction and in the shifter. The nine line registers follow the lines in
every tick (`LinesAdvance`, `AtRest`). -/
abbrev FrameResult (t : State) (st : ProtocolState) (value : Byte) (offset : Nat) (isRead dataDrv dataBit : Bit) : Prop :=
  Transaction t st offset isRead dataDrv dataBit ∧ t.regs.bitCount = 0 ∧ t.regs.value = value

/-! ### The premises of bus operations (47 R210) -/

/-- The inputs of the coming ticks, this one first, as far as they are fixed. -/
abbrev coming (s : State) : List Inputs := s.inputs :: s.ahead

/-- In the next `n` ticks no third party drives a line and no reset comes (NT1). -/
abbrev Peaceful (n : Nat) (s : State) : Prop :=
  n ≤ (coming s).length ∧ ∀ inp ∈ (coming s).take n, inp.sclIn = true ∧ inp.sdaIn = true ∧ inp.reset = false

/-- From tick `a` on the store is not busy for `n` ticks. -/
abbrev StoreReady (a n : Nat) (s : State) : Prop := ∀ inp ∈ ((coming s).drop a).take n, inp.storeBusy = false

/-- From tick `a` on the store is busy for `n` ticks. -/
abbrev StoreBusy (a n : Nat) (s : State) : Prop := ∀ inp ∈ ((coming s).drop a).take n, inp.storeBusy = true

/-- The spacing of the master's changes and the length of its SCL low phases (NT2, NT3; 70 R263, R264), and a rest long enough
for every reaction of the core to be over (70 R261). -/
abbrev Paced (s : State) : Prop :=
  s.cfg.K ≤ s.pace.hold ∧ s.cfg.K ≤ s.pace.setup ∧ 2 * s.cfg.K + 4 ≤ s.pace.hold + s.pace.setup ∧ s.cfg.K ≤ s.pace.high ∧
  s.cfg.K + 4 ≤ s.pace.rest

/-- Between bus operations: the master waits for nothing, and the core has seen the levels the lines have, SDA only while SCL is
high (SDA has no meaning while SCL is low). -/
abbrev AtRest (s : State) : Prop :=
  s.bus = [] ∧
  s.regs.sclFf1 = s.master.scl ∧ s.regs.sclFf2 = s.master.scl ∧ s.regs.scl = s.master.scl ∧ s.regs.sclPrev = s.master.scl ∧
  (s.master.scl = true →
    s.regs.sdaFf1 = (s.master.sda && !sdaOe s) ∧ s.regs.sdaFf2 = (s.master.sda && !sdaOe s) ∧
    s.regs.sda = (s.master.sda && !sdaOe s) ∧ s.regs.sdaPrev = (s.master.sda && !sdaOe s))

/-- What every bus operation of `n` ticks does beside its effect on the core: the environment's tick inputs are used up one by
one, and the master is at rest again. -/
abbrev Performed (n : Nat) (s t : State) : Prop :=
  t.cfg = s.cfg ∧ t.queue = s.queue ∧ t.pace = s.pace ∧ t.ahead = s.ahead.drop n ∧ AtRest t

/-- The ticks of one bit slot. -/
abbrev slotTicks (s : State) : Nat := s.pace.hold + s.pace.setup + s.pace.high

/-- The ticks of a frame that is not stretched. -/
abbrev frameTicks (s : State) : Nat := 9 * slotTicks s + s.pace.rest

/-- The tick of a frame in which the master releases SCL for slot 9. -/
abbrev ackTick (s : State) : Nat := 8 * slotTicks s + s.pace.hold + s.pace.setup

/-- Whether a START (`d` is 1) or STOP (`d` is 0) can follow at once: SCL is high and SDA at `d`. -/
abbrev direct (d : Bit) (s : State) : Bool := s.master.scl && s.master.sda == d

/-- The ticks of a START (`d` is 1) or STOP (`d` is 0). -/
abbrev conditionTicks (d : Bit) (s : State) : Nat := if direct d s then s.pace.rest else slotTicks s + s.pace.rest

/-- The ticks of a single bit slot. -/
abbrev bitTicks (s : State) : Nat := s.pace.hold + s.pace.setup + s.pace.rest

/-- The bit slots the core has seen when a START (`d` is 1) or STOP (`d` is 0) arrives after some slots of a frame: those slots,
and one more of value `d` if the master had to bring SDA to `d` first (47 R213, R222). -/
def slotsSeen (d : Bit) (s : State) (bits : List Bit) : List Bit :=
  if bits.getLast?.getD (if s.master.scl then s.master.sda else !d) == d then bits else bits ++ [d]

/-- The accumulator after some bits are shifted in (42 R133). -/
def shifted (value : Byte) (bits : List Bit) : Byte :=
  bits.foldl (fun v b => BitVec.ofNat 8 (2 * v.toNat + b.toNat)) value

/-- The premises of a frame that is not stretched. -/
abbrev FrameReady (s : State) : Prop := TickInv s ∧ AtRest s ∧ Paced s ∧ Peaceful (frameTicks s) s

/-- Both lines are released by the core (47 R211, R213). -/
abbrev Released (t : State) : Prop := sdaOe t = false ∧ sclOe t = false

/-- Between frames, in a state in which the core does not hold SDA low: the master can bring the lines to a START or STOP. -/
abbrev FrameBoundary (s : State) : Prop :=
  s.regs.bitCount = 0 ∧
  (s.regs.state = .waitStart ∨ s.regs.state = .rcvAddress ∨ s.regs.state = .rcvOffset ∨ s.regs.state = .rcvData ∨
    (s.regs.state = .read ∧ (s.mem.read s.regs.offset).getLsbD 7 = true))

/-- A receive state (RCV of 42_shifter.md). -/
abbrev InReceive (s : State) : Prop :=
  s.regs.state = .rcvAddress ∨ s.regs.state = .rcvOffset ∨ s.regs.state = .rcvData

/-- `s` with the byte complete, as the rules of the receive states see it. -/
abbrev completed (byte : Byte) (s : State) : State := { s with regs := { s.regs with bitCount := 8, value := byte } }

/-- What ADDR_W leaves (47 R214). -/
abbrev AddressedForWrite (s t : State) : Prop :=
  FrameResult t .rcvOffset (BitVec.ofNat 8 (2 * s.cfg.addr.toNat)) s.regs.offset false false s.regs.dataBit ∧
  SeenOnWire t (BitVec.ofNat 8 (2 * s.cfg.addr.toNat)) false ∧ MemoryKept s t

/-- What ADDR_R leaves, bit 7 of the addressed cell driven (47 R215). -/
abbrev AddressedForRead (s t : State) : Prop :=
  FrameResult t .read (BitVec.ofNat 8 (2 * s.cfg.addr.toNat + 1)) s.regs.offset true true
    ((s.mem.read s.regs.offset).getLsbD 7) ∧
  SeenOnWire t (BitVec.ofNat 8 (2 * s.cfg.addr.toNat + 1)) false ∧ MemoryKept s t

/-- What OFFSET leaves (47 R217). -/
abbrev OffsetSet (o : Byte) (s t : State) : Prop :=
  FrameResult t .rcvData o (o.toNat % s.cfg.N) s.regs.isRead false s.regs.dataBit ∧ SeenOnWire t o false ∧ MemoryKept s t

/-- What WDATA leaves (47 R218): the one cell changed is the one at the offset before. -/
abbrev ByteStored (d : Byte) (s t : State) : Prop :=
  FrameResult t .rcvData d ((s.regs.offset + 1) % s.cfg.N) s.regs.isRead false s.regs.dataBit ∧ SeenOnWire t d false ∧
  ∀ a, t.mem.read a = if a = s.regs.offset then d else s.mem.read a

/-- What cells `o`, `o+1`, ... modulo `N` hold after a stream of bytes is written from `o` on, a later byte overwriting an
earlier one; `old` is what cell `a` held before (45 R196). -/
def streamCell (N : Nat) : Nat → List Byte → Nat → Byte → Byte
  | _, [], _, old => old
  | o, d :: ds, a, old => streamCell N ((o + 1) % N) ds a (if a = o then d else old)

/-- `WRITE(o, b1..bn)` (30 R97). -/
def writeOps (o : Byte) (ds : List Byte) : List Instr :=
  [.condS, .addrW, .offset o] ++ ds.map Instr.wdata ++ [.condP]

/-- `READ_AT(o, 1)` (30 R97). -/
def readAtOps (o : Byte) : List Instr := [.condS, .addrW, .offset o, .condSr, .addrR, .rdataN, .condP]

end Sys2Proof.Machine
end

