-- ==== Sys2Proof/Certificates/Slice0/Obligations.lean ====
section
/-!
DEFINITION. The statements for the provers. OBLIGATIONS.json lists them with the rules of spec/ they formalise. A statement
about a tick or an operation concludes that `exec` answers a next state, under hypotheses on the state and operands alone.
-/

open Sys2Proof Sys2Proof.Machine

/-! ### Encoding (30_encoding.md) -/

/-- Decode and encode agree, for every operation in every context in which it can be presented, whatever follows it.
The format bytes and the EVERY_TICK numbers are the model's (log 16, log 17), and so is ADDR_MISS for the frames the core ignores
because its state counts no bits (log 19). A STATE word can be presented in every state (log 10). -/
def Obligations.DecodeOfEncodeIsTheOperation : Prop :=
  ∀ (cfg : Config) (st : ProtocolState) (i : Instr) (rest : List Byte),
    i.wf cfg st = true → decode cfg st (encode cfg i ++ rest) = .ok (i, rest)

/-- What the decoder reads can be presented in that context (30 R83, R86, R91), and it reads a whole word of two or three bytes off
the front (the model's format bytes, log 16). An ADDR_MISS read in RCV_ADDRESS never carries the core's own address (R86); in the
eleven states that count no bits, to which R91 gives no frame type, a frame reads as ADDR_MISS with any byte, the core's own
address included (log 19). STATE words are read in every state (log 10). -/
def Obligations.DecodedOperationIsWellFormed : Prop :=
  ∀ (cfg : Config) (st : ProtocolState) (bytes : List Byte) (i : Instr) (rest : List Byte),
    decode cfg st bytes = .ok (i, rest) →
      i.wf cfg st = true ∧ ∃ word : List Byte, bytes = word ++ rest ∧ (word.length = 2 ∨ word.length = 3)

/-- Words written out from 30 R81 to R89 and R95, one per format and frame type, at `ADDR = 0x50`. -/
def Obligations.SpecWordsDecode : Prop :=
  decode Config.default .waitStart [1, 0b110] = .ok (.condS, []) ∧
  decode Config.default .read [1, 0b110] = .ok (.condSr, []) ∧
  decode Config.default .read [1, 0b101] = .ok (.condP, []) ∧
  decode Config.default .rcvData [2, 0b010] = .ok (.bit0, []) ∧
  decode Config.default .rcvData [2, 0b011] = .ok (.bit1, []) ∧
  decode Config.default .rcvAddress [3, 0b01000000, 0b1] = .ok (.addrW, []) ∧
  decode Config.default .rcvAddress [3, 0b01000010, 0b1] = .ok (.addrR, []) ∧
  decode Config.default .rcvAddress [3, 0b01000101, 0b1] = .ok (.addrMiss 0xA2 true, []) ∧
  decode Config.default .rcvOffset [3, 0b00000110, 0b0] = .ok (.offset 0x03, []) ∧
  decode Config.default .rcvData [3, 0b10110100, 0b0] = .ok (.wdata 0x5A, []) ∧
  decode Config.default .read [3, 0b00000000, 0b0] = .ok (.rdataA, []) ∧
  decode Config.default .read [3, 0b00000001, 0b0] = .ok (.rdataN, []) ∧
  decode Config.default .read [4, 13] = .ok (.read, []) ∧
  decode Config.default .read [4, 15] = .error .noState ∧
  decode Config.default .read [1, 0b111] = .error .noCondition

/-! ### The step -/

/-- A step at the first operation of the queue runs that operation with its word taken off the queue. A bus operation passes its
own ticks; after any other the tick has passed and the input ports hold the levels of the next (log 2, log 16). A queued STATE word
runs its row whatever the `state` register holds (log 10). -/
def Obligations.StepRunsTheDecodedOperation : Prop :=
  ∀ (s : State) (i : Instr) (rest : List Byte),
    s.inputs.reset = false → s.bus = [] → s.queue ≠ [] → decode s.cfg s.regs.state s.queue = .ok (i, rest) →
      ∃ t, exec i { s with queue := rest } = .next t ∧ step s = .next (if isBusOp i then t else advance t)

/-- With nothing queued, or bytes that are no operation (log 16), the `state` register alone selects the operation of the tick
(10 R28, R41), and that operation is the whole tick (46 R200); the step then only passes the tick. -/
def Obligations.StateRegisterSelectsTheOperation : Prop :=
  ∀ s : State, s.inputs.reset = false → s.bus = [] →
    (s.queue = [] ∨ ∃ e, decode s.cfg s.regs.state s.queue = .error e) →
      ∃ t, exec s.regs.state.instr { s with queue := [] } = .next t ∧ exec .tickStep { s with queue := [] } = .next t ∧
        step s = .next (advance t)

/-- A step in which the reset input is high is a reset, whatever is queued or under way. That a high level of the input resets the
core in this very step is the model's reading of a port the spec gives no polarity or length (log 5); what the reset does is
70 R250. -/
def Obligations.ResetInputRunsReset : Prop :=
  ∀ s : State, s.inputs.reset = true → ∃ t, exec .reset s = .next t ∧ step s = .next (advance t)

/-! ### Invariants -/

/-- Every step answers a next state and keeps the invariants, from every state that satisfies them (60 R230; 10 R38 (a) to (c),
46 R202, 20 R60, 30 R96). -/
def Obligations.EveryStepKeepsTheInvariants : Prop :=
  ∀ s : State, Invariant s → ∃ t, step s = .next t ∧ Invariant t

/-- The reset state of every configuration satisfies all of them, 10 R38 (e) included. -/
def Obligations.ResetSatisfiesTheInvariants : Prop :=
  ∀ cfg : Config, TickInv (State.resetOf cfg)

/-- 10 R38, for every run of ticks from reset under any inputs: the run completes, (a) to (e) hold, and one more tick keeps the
line history (f) and changes a line only at a capture (g). -/
def Obligations.RunsFromResetKeepR38 : Prop :=
  ∀ (cfg : Config) (inps : List Inputs) (inp : Inputs),
    ∃ s t, runTicks inps (State.resetOf cfg) = .next s ∧ runTicks (inps ++ [inp]) (State.resetOf cfg) = .next t ∧
      TickInv s ∧ TickInv t ∧
      t.regs.sclPrev = s.regs.scl ∧ t.regs.sdaPrev = s.regs.sda ∧
      (t.regs.scl ≠ s.regs.scl ∨ t.regs.sda ≠ s.regs.sda → s.regs.sampCount = cfg.K - 1)

/-- 10 R38 as one step, from every state that satisfies it and under any inputs: the tick completes, (a) to (e) hold again, the line
history is what was seen (f), and a line changes only at a capture (g). -/
def Obligations.EveryTickKeepsR38 : Prop :=
  ∀ (s : State) (inp : Inputs), TickInv s →
    ∃ t, exec .tickStep (withInputs inp s) = .next t ∧ TickInv t ∧
      t.regs.sclPrev = s.regs.scl ∧ t.regs.sdaPrev = s.regs.sda ∧
      (t.regs.scl ≠ s.regs.scl ∨ t.regs.sda ≠ s.regs.sda → s.regs.sampCount = s.cfg.K - 1)

/-- Nothing stops: every operation answers a next state from every state (60 R230), and keeps the invariants where they hold
(46 R202). -/
def Obligations.EveryOperationCompletes : Prop :=
  ∀ (i : Instr) (s : State), ∃ t, exec i s = .next t ∧ (Invariant s → Invariant t)

/-- No operation and no step changes the configuration (00 R8: "fixed for the life of an instance"). -/
def Obligations.ConfigurationNeverChanges : Prop :=
  (∀ (i : Instr) (s t : State), exec i s = .next t → t.cfg = s.cfg) ∧
  (∀ s t : State, step s = .next t → t.cfg = s.cfg)

/-! ### EVERY_TICK operations on their own (log 21): each is one equation, so everything it does not name is unchanged -/

/-- SYNC_STAGE1, SYNC_STAGE2, SAMPLE_COUNT, SAMPLE_CAPTURE (40 R110 to R113) and EDGE_HISTORY (41 R120). That a row run alone changes
nothing else is the model's choice (log 21). -/
def Obligations.SynchronizerOperations : Prop :=
  ∀ s : State,
    exec .syncStage1 s = .next { s with regs := { s.regs with sclFf1 := s.inputs.sclIn, sdaFf1 := s.inputs.sdaIn } } ∧
    exec .syncStage2 s = .next { s with regs := { s.regs with sclFf2 := s.regs.sclFf1, sdaFf2 := s.regs.sdaFf1 } } ∧
    exec .sampleCount s =
      .next { s with regs := { s.regs with
        sampCount := if s.regs.sampCount = s.cfg.K - 1 then 0 else s.regs.sampCount + 1 } } ∧
    exec .sampleCapture s =
      .next { s with regs := { s.regs with
        scl := if s.regs.sampCount = s.cfg.K - 1 then s.regs.sclFf2 else s.regs.scl
        sda := if s.regs.sampCount = s.cfg.K - 1 then s.regs.sdaFf2 else s.regs.sda } } ∧
    exec .edgeHistory s = .next { s with regs := { s.regs with sclPrev := s.regs.scl, sdaPrev := s.regs.sda } }

/-- SAMPLE_COUNT (40 R112): in every tick, whatever the lines show, the counter returns to 0 from `K - 1` and else counts on, so that
from reset `samp_count(t) = t mod K`. -/
def Obligations.SampleCounterIsTickNumberModK : Prop :=
  (∀ s : State, ∃ t, exec .tickStep s = .next t ∧
    t.regs.sampCount = if s.regs.sampCount = s.cfg.K - 1 then 0 else s.regs.sampCount + 1) ∧
  (∀ (cfg : Config) (inps : List Inputs),
    ∃ t, runTicks inps (State.resetOf cfg) = .next t ∧ t.regs.sampCount = inps.length % cfg.K)

/-- The four edge pulses (41 R121 to R124), and START_DETECT and STOP_DETECT with their truth tables over
`{scl, sda_prev, sda}` (R125, R126). That a row run alone changes nothing else is log 21. -/
def Obligations.EdgeAndFramingOperations : Prop :=
  ∀ s : State,
    exec .sclRising s = .next { s with wires := { s.wires with sclRising := s.regs.scl && !s.regs.sclPrev } } ∧
    exec .sclFalling s = .next { s with wires := { s.wires with sclFalling := !s.regs.scl && s.regs.sclPrev } } ∧
    exec .sdaRising s = .next { s with wires := { s.wires with sdaRising := s.regs.sda && !s.regs.sdaPrev } } ∧
    exec .sdaFalling s = .next { s with wires := { s.wires with sdaFalling := !s.regs.sda && s.regs.sdaPrev } } ∧
    exec .startDetect s =
      .next { s with wires := { s.wires with
        start := decide ((s.regs.scl, s.regs.sdaPrev, s.regs.sda) = (true, true, false)) } } ∧
    exec .stopDetect s =
      .next { s with wires := { s.wires with
        stop := decide ((s.regs.scl, s.regs.sdaPrev, s.regs.sda) = (true, false, true)) } }

/-- The bit counter and the accumulator, one operation per rule (42 R130 to R134). SHIFT_HOLD changes nothing. -/
def Obligations.ShifterOperations : Prop :=
  ∀ s : State,
    exec .countClear s =
      .next { s with regs := { s.regs with bitCount := if showsStart s then 0 else s.regs.bitCount } } ∧
    exec .countWrap s =
      .next { s with regs := { s.regs with
        bitCount := if ¬ showsStart s ∧ risesScl s ∧ s.regs.bitCount = 8 then 0 else s.regs.bitCount } } ∧
    exec .countInc s =
      .next { s with regs := { s.regs with
        bitCount :=
          if ¬ showsStart s ∧ risesScl s ∧ s.regs.bitCount ≠ 8 ∧
              (s.regs.state = .rcvAddress ∨ s.regs.state = .rcvOffset ∨ s.regs.state = .rcvData ∨ s.regs.state = .read)
          then s.regs.bitCount + 1 else s.regs.bitCount } } ∧
    exec .shiftIn s =
      .next { s with regs := { s.regs with
        value :=
          if ¬ showsStart s ∧ risesScl s ∧ s.regs.bitCount ≠ 8 ∧
              (s.regs.state = .rcvAddress ∨ s.regs.state = .rcvOffset ∨ s.regs.state = .rcvData)
          then BitVec.ofNat 8 (2 * s.regs.value.toNat + s.regs.sda.toNat) else s.regs.value } } ∧
    exec .shiftHold s = .next s

/-- `byte_complete`, the outgoing bit and the output latch (42 R135, R137 to R139). -/
def Obligations.OutputLatchOperations : Prop :=
  ∀ s : State, s.regs.bitCount ≤ 8 →
    exec .byteComplete s = .next { s with wires := { s.wires with byteComplete := decide (s.regs.bitCount = 8) } } ∧
    exec .outBit s =
      .next { s with wires := { s.wires with
        outBit := if s.regs.bitCount = 8 then false else (s.mem.read s.regs.offset).getLsbD (7 - s.regs.bitCount) } } ∧
    exec .dataDrv s =
      .next { s with regs := { s.regs with
        dataDrv :=
          if showsStart s ∨ showsStop s then false
          else if s.regs.state = .read ∧ s.regs.scl = false then decide (s.regs.bitCount ≠ 8) else s.regs.dataDrv } } ∧
    exec .dataBit s =
      .next { s with regs := { s.regs with
        dataBit :=
          if s.regs.state = .read ∧ s.regs.scl = false ∧ s.regs.bitCount ≠ 8
          then (s.mem.read s.regs.offset).getLsbD (7 - s.regs.bitCount) else s.regs.dataBit } }

/-- The Acknowledger's signals and the four drive ports (43 R145 to R150). -/
def Obligations.AcknowledgerOperations : Prop :=
  ∀ s : State,
    exec .ackDrive s =
      .next { s with wires := { s.wires with
        ackDrive := decide (s.regs.state ∈
          [.ackAddress1, .ackAddress2, .ackOffset1, .ackOffset2, .ackData1, .ackData2]) } } ∧
    exec .sdaOe s =
      .next { s with wires := { s.wires with
        sdaOe := decide (s.regs.state ∈
          [.ackAddress1, .ackAddress2, .ackOffset1, .ackOffset2, .ackData1, .ackData2]) ||
            (s.regs.dataDrv && !s.regs.dataBit) } } ∧
    exec .sdaO s = .next { s with wires := { s.wires with sdaO := false } } ∧
    exec .sclOe s =
      .next { s with wires := { s.wires with
        sclOe := s.inputs.storeBusy && !s.regs.scl &&
          decide (s.regs.state ∈ [.ackAddress1, .ackOffset1, .ackData1]) } } ∧
    exec .sclO s = .next { s with wires := { s.wires with sclO := false } } ∧
    exec .masterAck s =
      .next { s with wires := { s.wires with
        masterAck := s.regs.scl && !s.regs.sclPrev && !s.regs.sda
        masterNack := s.regs.scl && !s.regs.sclPrev && s.regs.sda } }

/-- ADDR_MATCH and DIRECTION_CAPTURE (44 R161, R180), START_OVERRIDE, STOP_OVERRIDE and STATE_COMMIT (R177 to R179), with the
transition summary R182 for the commit. -/
def Obligations.ProtocolOperations : Prop :=
  ∀ s : State,
    exec .addrMatch s =
      .next { s with wires := { s.wires with addrMatch := decide (s.regs.value.toNat / 2 = s.cfg.addr.toNat) } } ∧
    exec .directionCapture s =
      .next { s with regs := { s.regs with
        isRead :=
          if s.regs.state = .rcvAddress ∧ s.regs.bitCount = 8 ∧ s.regs.value.toNat / 2 = s.cfg.addr.toNat
          then decide (s.regs.value.toNat % 2 = 1) else s.regs.isRead } } ∧
    exec .startOverride s =
      .next { s with regs :=
        if showsStart s then { s.regs with state := .rcvAddress, bitCount := 0, dataDrv := false } else s.regs } ∧
    exec .stopOverride s =
      .next { s with regs := if showsStop s then { s.regs with state := .waitStart, dataDrv := false } else s.regs } ∧
    exec .stateCommit s =
      .next { s with regs := { s.regs with
        state :=
          if showsStart s then .rcvAddress else if showsStop s then .waitStart else tableNext s.regs.state s } }

/-- OFFSET_LOAD, OFFSET_INC and OFFSET_HOLD (45 R190 to R192), with the conditions of their strobes (44 R167, R174, R176). That a row
run alone changes nothing else is log 21. -/
def Obligations.OffsetOperations : Prop :=
  ∀ s : State,
    exec .offsetLoad s =
      .next { s with regs := { s.regs with
        offset := if s.regs.state = .rcvOffset ∧ s.regs.bitCount = 8 then s.regs.value.toNat % s.cfg.N
                  else s.regs.offset } } ∧
    exec .offsetInc s =
      .next { s with regs := { s.regs with
        offset :=
          if (s.regs.state = .ackData2 ∧ s.regs.scl = false) ∨
              (s.regs.state = .ackRead ∧ risesScl s ∧ s.regs.sda = false)
          then (s.regs.offset + 1) % s.cfg.N else s.regs.offset } } ∧
    exec .offsetHold s = .next s

/-- MEM_ADDR, MEM_WRITE and MEM_READ (45 R193 to R195, 20 R62, R63): the ports, the one cell a write changes, and the one bit a
read latches. -/
def Obligations.StoreOperations : Prop :=
  ∀ s : State, s.regs.bitCount ≤ 8 → s.mem.wf →
    exec .memAddr s = .next { s with wires := { s.wires with memAddr := s.regs.offset } } ∧
    (∃ m : Memory,
      exec .memWrite s =
        .next { s with
          mem := m
          wires := { s.wires with
            memWe := decide (s.regs.state = .rcvData ∧ s.regs.bitCount = 8)
            memAddr := s.regs.offset, memWdata := s.regs.value } } ∧
      ∀ a, m.read a = if s.regs.state = .rcvData ∧ s.regs.bitCount = 8 ∧ a = s.regs.offset then s.regs.value
                      else s.mem.read a) ∧
    exec .memRead s =
      .next { s with
        regs := { s.regs with
          dataBit := if s.regs.state = .read ∧ s.regs.scl = false ∧ s.regs.bitCount ≠ 8
                     then (s.mem.read s.regs.offset).getLsbD (7 - s.regs.bitCount) else s.regs.dataBit }
        wires := { s.wires with memAddr := s.regs.offset, memRdata := s.mem.read s.regs.offset } }

/-! ### Reset (70_reset_and_hazards.md) -/

/-- The registers at the start of tick 0 (10 R39), for every configuration. -/
def Obligations.ResetValues : Prop :=
  ∀ cfg : Config,
    (State.resetOf cfg).regs =
      { state := .waitStart, bitCount := 0, sampCount := 0, offset := 0, value := 0x00, isRead := false,
        dataDrv := false, dataBit := false, scl := false, sda := false, sclPrev := false, sdaPrev := false,
        sclFf1 := false, sclFf2 := false, sdaFf1 := false, sdaFf2 := false }

/-- RESET during operation (70 R250, R251, R253): every register at `R(0)`, both lines released, no store write; the
configuration and every cell stay, but for the cell of a write request issued in this very tick, which the spec leaves open
(93 U12; log 5: a free value of that reset alone). -/
def Obligations.ResetDuringOperation : Prop :=
  ∀ s : State, s.mem.wf →
    ∃ t, exec .reset s = .next t ∧ t.regs = (State.resetOf s.cfg).regs ∧ EnvironmentKept s t ∧ Drives t false false ∧
      t.wires.memWe = false ∧ t.wires.memAddr = 0 ∧ t.wires.memWdata = 0 ∧ t.wire = s.wire ∧
      t.resets = s.resets + 1 ∧
      ∀ a, ¬ (s.regs.state = .rcvData ∧ s.regs.bitCount = 8 ∧ a = s.regs.offset) → t.mem.read a = s.mem.read a

/-- The idle bus after reset (70 R252, R254 (e)): with both raw lines high from tick 0 the core stays in the state of reset in
everything but the line registers, and after `K + 3` ticks all of those that hold levels are 1. -/
def Obligations.IdleBusAfterReset : Prop :=
  ∀ (cfg : Config) (inps : List Inputs), (∀ inp ∈ inps, inp.sclIn = true ∧ inp.sdaIn = true) →
    ∃ t, runTicks inps (State.resetOf cfg) = .next t ∧
      Transaction t .waitStart 0 false false false ∧ t.regs.bitCount = 0 ∧ t.regs.value = 0 ∧
      MemoryKept (State.resetOf cfg) t ∧
      (cfg.K + 3 ≤ inps.length →
        t.regs.scl = true ∧ t.regs.sda = true ∧ t.regs.sclPrev = true ∧ t.regs.sdaPrev = true)

/-! ### The synchronizer over several ticks -/

/-- Latency (40 R114): from reset, LineSample at a multiple `v >= K` of `K` is what the raw lines were three ticks earlier, the
reset value where there is no such tick, and between such ticks it does not change. -/
def Obligations.LineSampleLatency : Prop :=
  ∀ (cfg : Config) (inps : List Inputs) (inp : Inputs),
    ∃ s t, runTicks inps (State.resetOf cfg) = .next s ∧ runTicks (inps ++ [inp]) (State.resetOf cfg) = .next t ∧
      ((inps.length + 1) % cfg.K ≠ 0 → t.regs.scl = s.regs.scl ∧ t.regs.sda = s.regs.sda) ∧
      ((inps.length + 1) % cfg.K = 0 → inps.length + 1 < 3 → t.regs.scl = false ∧ t.regs.sda = false) ∧
      (∀ seen : Inputs, (inps.length + 1) % cfg.K = 0 → 3 ≤ inps.length + 1 → inps[inps.length - 2]? = some seen →
        t.regs.scl = seen.sclIn ∧ t.regs.sda = seen.sdaIn)

/-- A raw level held for long enough is captured (40 R115): after `K + 2` ticks with both raw lines steady, LineSample shows
their levels, from any state that satisfies the invariants. -/
def Obligations.HeldLevelIsCaptured : Prop :=
  ∀ (s : State) (inps : List Inputs) (c d : Bit), Invariant s → s.cfg.K + 2 ≤ inps.length →
    (∀ inp ∈ inps, inp.sclIn = c ∧ inp.sdaIn = d) →
      ∃ t, runTicks inps s = .next t ∧ t.regs.scl = c ∧ t.regs.sda = d

/-- Pulse width and exclusions (41 R127, R128): when the lines did not change in the tick before, no edge and no framing pulse
is 1 in this tick; `start` and `stop` are never both 1, nor with `scl_falling`. -/
def Obligations.PulsesNeedAChange : Prop :=
  ∀ s : State,
    ∃ t, exec .tickStep s = .next t ∧
      (s.regs.scl = s.regs.sclPrev → t.wires.sclRising = false ∧ t.wires.sclFalling = false) ∧
      (s.regs.sda = s.regs.sdaPrev →
        t.wires.sdaRising = false ∧ t.wires.sdaFalling = false ∧ t.wires.start = false ∧ t.wires.stop = false) ∧
      ¬ (t.wires.start = true ∧ t.wires.stop = true) ∧ ¬ (t.wires.sclRising = true ∧ t.wires.sclFalling = true) ∧
      ¬ (t.wires.sclFalling = true ∧ (t.wires.start = true ∨ t.wires.stop = true))

/-! ### The whole tick (46_tick_step.md) -/

/-- TICK_STEP (46 R200): what every register, every output port and every cell is after a tick. -/
def Obligations.TickStepUpdatesEverything : Prop :=
  ∀ s : State, s.regs.bitCount ≤ 8 → s.mem.wf →
    ∃ t, exec .tickStep s = .next t ∧ TicksIn s.regs.state s t ∧ StrobesAct s.regs.state s t ∧
      OutputAdvances s.regs.state s t ∧ StateAdvances s.regs.state s t ∧ PortsShow s.regs.state s t

/-- The blocks of a tick are its single operations, all read from the start of the tick (46 R201): each register and port of
the tick is the one its own operation leaves, and the bit counter follows the chain R130, R131, R132. -/
def Obligations.TickIsItsOperationsTogether : Prop :=
  ∀ s : State,
    ∃ t a b c d e f g h j k l m n o p q, exec .tickStep s = .next t ∧
      exec .syncStage1 s = .next a ∧ t.regs.sclFf1 = a.regs.sclFf1 ∧ t.regs.sdaFf1 = a.regs.sdaFf1 ∧
      exec .syncStage2 s = .next b ∧ t.regs.sclFf2 = b.regs.sclFf2 ∧ t.regs.sdaFf2 = b.regs.sdaFf2 ∧
      exec .sampleCount s = .next c ∧ t.regs.sampCount = c.regs.sampCount ∧
      exec .sampleCapture s = .next d ∧ t.regs.scl = d.regs.scl ∧ t.regs.sda = d.regs.sda ∧
      exec .edgeHistory s = .next e ∧ t.regs.sclPrev = e.regs.sclPrev ∧ t.regs.sdaPrev = e.regs.sdaPrev ∧
      exec .countClear s = .next f ∧ exec .countWrap s = .next g ∧ exec .countInc s = .next h ∧
      t.regs.bitCount = (if f.regs.bitCount ≠ s.regs.bitCount then f.regs.bitCount
                         else if g.regs.bitCount ≠ s.regs.bitCount then g.regs.bitCount else h.regs.bitCount) ∧
      exec .shiftIn s = .next j ∧ t.regs.value = j.regs.value ∧
      exec .directionCapture s = .next k ∧ t.regs.isRead = k.regs.isRead ∧
      exec .offsetLoad s = .next l ∧ exec .offsetInc s = .next m ∧
      t.regs.offset = (if s.regs.state = .rcvOffset then l.regs.offset else m.regs.offset) ∧
      exec .memWrite s = .next n ∧ t.mem = n.mem ∧ t.wires.memWe = n.wires.memWe ∧
      exec .dataDrv s = .next o ∧ t.regs.dataDrv = o.regs.dataDrv ∧
      exec .memRead s = .next p ∧ t.regs.dataBit = p.regs.dataBit ∧ t.wires.memRdata = p.wires.memRdata ∧
      exec .stateCommit s = .next q ∧ t.regs.state = q.regs.state

/-- No combinational path (46 R203, 10 R37): two ticks from states that differ in the raw line inputs only show the same
output ports and leave the same registers but for the first synchronizer stage. -/
def Obligations.RawLinesReachOnlyTheFirstStage : Prop :=
  ∀ (s : State) (inp inp' : Inputs), inp.storeBusy = inp'.storeBusy →
    ∃ t t', exec .tickStep (withInputs inp s) = .next t ∧ exec .tickStep (withInputs inp' s) = .next t' ∧
      t'.wires = t.wires ∧ t'.mem = t.mem ∧
      t'.regs = { t.regs with sclFf1 := inp'.sclIn, sdaFf1 := inp'.sdaIn }

/-- One strobe (44 R183) and one port (20 R64): no tick asserts two strobes, so no tick both uses a read and issues a write. -/
def Obligations.AtMostOneStrobe : Prop :=
  ∀ s : State,
    ∃ t, exec .tickStep s = .next t ∧
      [t.wires.captureDir, t.wires.ocLoad, t.wires.ocInc, t.wires.memWe, t.wires.dataDrvEn, t.wires.dataDrvStop].count true ≤ 1

/-- Settling (46 R204): from a tick `v` in which the lines may show any change, with no capture before tick `v + 2` and no
acknowledge left at its end with the counter at 8, the core is at rest at `v + 2`: that tick changes no register beyond the
synchronizer, and no cell. -/
def Obligations.CoreSettlesInTwoTicks : Prop :=
  ∀ (s : State) (i1 i2 i3 : Inputs), TickInv s → s.regs.sampCount + 3 ≤ s.cfg.K →
    (s.regs.bitCount = 8 → s.regs.state ≠ .ackAddress2 ∧ s.regs.state ≠ .ackOffset2 ∧ s.regs.state ≠ .ackData2) →
      ∃ t u, runTicks [i1, i2] s = .next t ∧ runTicks [i1, i2, i3] s = .next u ∧
        Transaction u t.regs.state t.regs.offset t.regs.isRead t.regs.dataDrv t.regs.dataBit ∧
        u.regs.bitCount = t.regs.bitCount ∧ u.regs.value = t.regs.value ∧ MemoryKept t u

/-! ### The protocol states (44_protocol_fsm.md), in ticks without an override -/

/-- WAIT_START (R162): stays, drives nothing, changes nothing. -/
def Obligations.WaitStartIdles : Prop :=
  ∀ s : State, noOverride s → s.regs.dataDrv = false →
    ∃ t, exec .waitStart s = .next t ∧ OnlyMovesTo .waitStart s t ∧ TicksIn .waitStart s t ∧ Drives t false false

/-- RCV_ADDRESS (R163, R161, R180): at a complete byte the address decides, and only a match captures the direction. -/
def Obligations.AddressByteDecides : Prop :=
  ∀ s : State, noOverride s → s.regs.dataDrv = false →
    ∃ t, exec .rcvAddress s = .next t ∧ TicksIn .rcvAddress s t ∧ Drives t false false ∧ MemoryKept s t ∧
      (s.regs.bitCount ≠ 8 → OnlyMovesTo .rcvAddress s t) ∧
      (s.regs.bitCount = 8 → s.regs.value.toNat / 2 ≠ s.cfg.addr.toNat → OnlyMovesTo .waitStart s t) ∧
      (s.regs.bitCount = 8 → s.regs.value.toNat / 2 = s.cfg.addr.toNat →
        Transaction t .ackAddress0 s.regs.offset (decide (s.regs.value.toNat % 2 = 1)) false s.regs.dataBit)

/-- ACK_ADDRESS0, ACK_OFFSET0, ACK_DATA0 (R164, R168, R172): wait for SCL low, driving nothing. -/
def Obligations.AcknowledgeWaitsForSclLow : Prop :=
  ∀ s : State, noOverride s → s.regs.dataDrv = false →
    (∃ t, exec .ackAddress0 s = .next t ∧ TicksIn .ackAddress0 s t ∧ Drives t false false ∧
      OnlyMovesTo (if s.regs.scl = false then .ackAddress1 else .ackAddress0) s t) ∧
    (∃ t, exec .ackOffset0 s = .next t ∧ TicksIn .ackOffset0 s t ∧ Drives t false false ∧
      OnlyMovesTo (if s.regs.scl = false then .ackOffset1 else .ackOffset0) s t) ∧
    (∃ t, exec .ackData0 s = .next t ∧ TicksIn .ackData0 s t ∧ Drives t false false ∧
      OnlyMovesTo (if s.regs.scl = false then .ackData1 else .ackData0) s t)

/-- ACK_ADDRESS1, ACK_OFFSET1, ACK_DATA1 (R165, R169, R173; 43 R148): pull SDA low, wait for SCL high, hold SCL low while the
store is busy. -/
def Obligations.AcknowledgeDrivesUntilSclHigh : Prop :=
  ∀ s : State, noOverride s → s.regs.dataDrv = false →
    (∃ t, exec .ackAddress1 s = .next t ∧ TicksIn .ackAddress1 s t ∧ Drives t true (s.inputs.storeBusy && !s.regs.scl) ∧
      OnlyMovesTo (if s.regs.scl = true then .ackAddress2 else .ackAddress1) s t) ∧
    (∃ t, exec .ackOffset1 s = .next t ∧ TicksIn .ackOffset1 s t ∧ Drives t true (s.inputs.storeBusy && !s.regs.scl) ∧
      OnlyMovesTo (if s.regs.scl = true then .ackOffset2 else .ackOffset1) s t) ∧
    (∃ t, exec .ackData1 s = .next t ∧ TicksIn .ackData1 s t ∧ Drives t true (s.inputs.storeBusy && !s.regs.scl) ∧
      OnlyMovesTo (if s.regs.scl = true then .ackData2 else .ackData1) s t)

/-- ACK_ADDRESS2, ACK_OFFSET2, ACK_DATA2 (R166, R170, R174): drive until SCL is low, then branch; the written byte's offset is
incremented at the end of its acknowledge, modulo `N` (45 R191). -/
def Obligations.AcknowledgeEndsAtSclLow : Prop :=
  ∀ s : State, noOverride s → s.regs.dataDrv = false →
    (∃ t, exec .ackAddress2 s = .next t ∧ TicksIn .ackAddress2 s t ∧ Drives t true false ∧
      OnlyMovesTo (if s.regs.scl = false then (if s.regs.isRead = true then .read else .rcvOffset) else .ackAddress2) s t) ∧
    (∃ t, exec .ackOffset2 s = .next t ∧ TicksIn .ackOffset2 s t ∧ Drives t true false ∧
      OnlyMovesTo (if s.regs.scl = false then .rcvData else .ackOffset2) s t) ∧
    (∃ t, exec .ackData2 s = .next t ∧ TicksIn .ackData2 s t ∧ Drives t true false ∧ MemoryKept s t ∧
      Transaction t (if s.regs.scl = false then .rcvData else .ackData2)
        (if s.regs.scl = false then (s.regs.offset + 1) % s.cfg.N else s.regs.offset)
        s.regs.isRead false s.regs.dataBit)

/-- RCV_OFFSET (R167; 45 R190): a complete byte is loaded modulo `N`. -/
def Obligations.OffsetByteIsLoaded : Prop :=
  ∀ s : State, noOverride s → s.regs.dataDrv = false →
    ∃ t, exec .rcvOffset s = .next t ∧ TicksIn .rcvOffset s t ∧ Drives t false false ∧ MemoryKept s t ∧
      Transaction t (if s.regs.bitCount = 8 then .ackOffset0 else .rcvOffset)
        (if s.regs.bitCount = 8 then s.regs.value.toNat % s.cfg.N else s.regs.offset)
        s.regs.isRead false s.regs.dataBit

/-- RCV_DATA (R171; 45 R194, 20 R63): a complete byte is written at the offset as it is, and no other cell changes. -/
def Obligations.DataByteIsWritten : Prop :=
  ∀ s : State, s.mem.wf → noOverride s → s.regs.dataDrv = false →
    ∃ t, exec .rcvData s = .next t ∧ TicksIn .rcvData s t ∧ Drives t false false ∧
      Transaction t (if s.regs.bitCount = 8 then .ackData0 else .rcvData) s.regs.offset s.regs.isRead false s.regs.dataBit ∧
      t.wires.memWe = decide (s.regs.bitCount = 8) ∧ t.wires.memAddr = s.regs.offset ∧ t.wires.memWdata = s.regs.value ∧
      ∀ a, t.mem.read a = if s.regs.bitCount = 8 ∧ a = s.regs.offset then s.regs.value else s.mem.read a

/-- READ (R175; 42 R137 to R139): with SCL low it drives bit `7 - bit_count` of the addressed cell, or lets go when the byte is
complete; with SCL high nothing moves. -/
def Obligations.ReadDrivesTheAddressedBit : Prop :=
  ∀ s : State, s.regs.bitCount ≤ 8 → noOverride s →
    ∃ t, exec .read s = .next t ∧ TicksIn .read s t ∧ Drives t (s.regs.dataDrv && !s.regs.dataBit) false ∧ MemoryKept s t ∧
      (s.regs.scl = true → OnlyMovesTo .read s t) ∧
      (s.regs.scl = false → s.regs.bitCount = 8 →
        Transaction t .ackRead s.regs.offset s.regs.isRead false s.regs.dataBit) ∧
      (s.regs.scl = false → s.regs.bitCount ≠ 8 →
        Transaction t .read s.regs.offset s.regs.isRead true ((s.mem.read s.regs.offset).getLsbD (7 - s.regs.bitCount)))

/-- ACK_READ (R176; 43 R150, 45 R191): at the rising edge the master's NACK ends the read with the offset kept, its ACK
increments the offset and goes on; without an edge the core waits. -/
def Obligations.MasterAnswerIsSampled : Prop :=
  ∀ s : State, noOverride s → s.regs.dataDrv = false →
    ∃ t, exec .ackRead s = .next t ∧ TicksIn .ackRead s t ∧ Drives t false false ∧ MemoryKept s t ∧
      Transaction t (if risesScl s then (if s.regs.sda = true then .waitStart else .read) else .ackRead)
        (if risesScl s ∧ s.regs.sda = false then (s.regs.offset + 1) % s.cfg.N else s.regs.offset)
        s.regs.isRead false s.regs.dataBit

/-! ### START, STOP and single bits (log 11, log 12) -/

/-- A START is taken in every state, at once and with priority (44 R177, R181, 60 R233, R236; 47 R211, R212): by the tick of each
state when the lines show it, and by the operations S and Sr on the bus. Where the master must first bring SDA high, the rising
SCL edge before the START is one more bit. -/
def Obligations.StartIsTakenInEveryState : Prop :=
  (∀ (st : ProtocolState) (s : State), s.mem.wf → showsStart s → ∃ t, exec st.instr s = .next t ∧ StartTaken st s t) ∧
  (∀ s : State, TickInv s → AtRest s → Paced s → Peaceful (conditionTicks true s) s →
    (direct true s = true → sdaOe s = false →
      ∃ t, exec .condS s = .next t ∧ exec .condSr s = .next t ∧ Performed (conditionTicks true s) s t ∧ Released t ∧
        t.regs.state = .rcvAddress ∧ t.regs.bitCount = 0 ∧ t.regs.dataDrv = false ∧ t.regs.value = s.regs.value ∧
        t.regs.dataBit = s.regs.dataBit ∧ StrobesAct s.regs.state s t ∧ t.wire = s.wire) ∧
    (direct true s = false → FrameBoundary s →
      ∃ t, exec .condS s = .next t ∧ exec .condSr s = .next t ∧ Performed (conditionTicks true s) s t ∧ Released t ∧
        Transaction t .rcvAddress s.regs.offset s.regs.isRead false (if s.regs.state = .read then true else s.regs.dataBit) ∧
        t.regs.bitCount = 0 ∧ t.regs.value = (if InReceive s then shifted s.regs.value [true] else s.regs.value) ∧
        MemoryKept s t ∧ t.wire = s.wire))

/-- A STOP is taken in every state (44 R178, R181, 60 R234; 47 R213): by the tick of each state when the lines show it, and by
the operation P on the bus, which itself keeps counter and accumulator. Where the master must first bring SDA low, the rising SCL
edge before the STOP is counted and shifted as one more bit. -/
def Obligations.StopIsTakenInEveryState : Prop :=
  (∀ (st : ProtocolState) (s : State), s.mem.wf → showsStop s → ∃ t, exec st.instr s = .next t ∧ StopTaken st s t) ∧
  (∀ s : State, TickInv s → AtRest s → Paced s → Peaceful (conditionTicks false s) s →
    (direct false s = true → sdaOe s = false →
      ∃ t, exec .condP s = .next t ∧ Performed (conditionTicks false s) s t ∧ Released t ∧
        t.regs.state = .waitStart ∧ t.regs.bitCount = s.regs.bitCount ∧ t.regs.dataDrv = false ∧
        t.regs.value = s.regs.value ∧ t.regs.dataBit = s.regs.dataBit ∧ StrobesAct s.regs.state s t ∧ t.wire = s.wire) ∧
    (direct false s = false → FrameBoundary s →
      ∃ t, exec .condP s = .next t ∧ Performed (conditionTicks false s) s t ∧ Released t ∧
        Transaction t .waitStart s.regs.offset s.regs.isRead false (if s.regs.state = .read then true else s.regs.dataBit) ∧
        t.regs.bitCount = (if s.regs.state = .waitStart then 0 else 1) ∧
        t.regs.value = (if InReceive s then shifted s.regs.value [false] else s.regs.value) ∧
        MemoryKept s t ∧ t.wire = s.wire))

/-- BIT0 and BIT1 (30 R84; 42 R131 to R133, 43 R150), from rest, by what the state does with a rising edge: a receive state counts
and shifts, and acts on a complete byte; READ counts; WAIT_START ignores; ACK_READ samples; ACK_x1 goes on to ACK_x2. -/
def Obligations.BitSlotIsCounted : Prop :=
  ∀ (b : Bit) (s : State), TickInv s → AtRest s → Paced s → Peaceful (bitTicks s) s →
    (InReceive s → s.regs.bitCount < 7 →
      ∃ t, exec (bitOp b) s = .next t ∧ Performed (bitTicks s) s t ∧ t.regs.bitCount = s.regs.bitCount + 1 ∧
        t.regs.value = shifted s.regs.value [b] ∧
        Transaction t s.regs.state s.regs.offset s.regs.isRead false s.regs.dataBit ∧ MemoryKept s t) ∧
    (InReceive s → s.regs.bitCount = 7 →
      ∃ t, exec (bitOp b) s = .next t ∧ Performed (bitTicks s) s t ∧ t.regs.bitCount = 8 ∧
        t.regs.value = shifted s.regs.value [b] ∧ t.regs.dataDrv = false ∧ t.regs.dataBit = s.regs.dataBit ∧
        t.regs.state = tableNext s.regs.state (completed (shifted s.regs.value [b]) s) ∧
        StrobesAct s.regs.state (completed (shifted s.regs.value [b]) s) t) ∧
    (s.regs.state = .read → s.regs.bitCount < 8 →
      ∃ t, exec (bitOp b) s = .next t ∧ Performed (bitTicks s) s t ∧ t.regs.bitCount = s.regs.bitCount + 1 ∧
        t.regs.value = s.regs.value ∧ MemoryKept s t ∧
        Transaction t .read s.regs.offset s.regs.isRead true ((s.mem.read s.regs.offset).getLsbD (7 - s.regs.bitCount))) ∧
    (s.regs.state = .waitStart →
      ∃ t, exec (bitOp b) s = .next t ∧ Performed (bitTicks s) s t ∧ OnlyMovesTo .waitStart s t ∧
        t.regs.bitCount = (if s.regs.bitCount = 8 then 0 else s.regs.bitCount) ∧ t.regs.value = s.regs.value) ∧
    (s.regs.state = .ackRead → s.regs.bitCount = 8 →
      ∃ t, exec (bitOp b) s = .next t ∧ Performed (bitTicks s) s t ∧ t.regs.bitCount = 0 ∧ t.regs.value = s.regs.value ∧
        MemoryKept s t ∧
        Transaction t (if b then .waitStart else .read) (if b then s.regs.offset else (s.regs.offset + 1) % s.cfg.N)
          s.regs.isRead false s.regs.dataBit) ∧
    (s.regs.state = .ackAddress1 ∨ s.regs.state = .ackOffset1 ∨ s.regs.state = .ackData1 → s.regs.bitCount = 8 →
      s.master.scl = false → StoreReady (s.pace.hold + s.pace.setup) s.pace.rest s →
      ∃ t, exec (bitOp b) s = .next t ∧ Performed (bitTicks s) s t ∧ t.regs.bitCount = 0 ∧ t.regs.value = s.regs.value ∧
        OnlyMovesTo (if s.regs.state = .ackAddress1 then .ackAddress2
                     else if s.regs.state = .ackOffset1 then .ackOffset2 else .ackData2) s t)

/-- Received byte (42 R136): eight bit slots in one receive state make the accumulator the byte, most significant bit first, and the
state's rule acts on it (44 R163, R167, R171). -/
def Obligations.EightBitsAreTheByte : Prop :=
  ∀ (byte : Byte) (s : State), TickInv s → AtRest s → Paced s → Peaceful (8 * bitTicks s) s → InReceive s →
    s.regs.bitCount = 0 →
      ∃ t, runOps ((byteBits byte).map bitOp) s = .next t ∧ Performed (8 * bitTicks s) s t ∧ t.regs.bitCount = 8 ∧
        t.regs.value = byte ∧ t.regs.dataDrv = false ∧ t.regs.dataBit = s.regs.dataBit ∧
        t.regs.state = tableNext s.regs.state (completed byte s) ∧ StrobesAct s.regs.state (completed byte s) t

/-- Cut frames (47 R222, 30 R99). After `j < 8` bit slots of a frame the master transmits, a START or STOP drops the frame: offset,
direction and memory are as before and `value` has shifted `j` times; a START clears the counter, a STOP leaves it at `j`. After the
eighth bit of OFFSET the offset is loaded and after that of WDATA the byte is written all the same, the offset not incremented. The
slots the core has seen include the rising edge by which the master brings SDA to the level the condition starts from. -/
def Obligations.CutFrameResidue : Prop :=
  (∀ (bits : List Bit) (s : State), TickInv s → AtRest s → Paced s → Peaceful ((bits.length + 1) * frameTicks s) s →
    InReceive s → s.regs.bitCount = 0 →
      ((slotsSeen true s bits).length < 8 →
        ∃ t, runOps (bits.map bitOp ++ [.condSr]) s = .next t ∧ runOps (bits.map bitOp ++ [.condS]) s = .next t ∧ AtRest t ∧
          t.regs.bitCount = 0 ∧ t.regs.value = shifted s.regs.value (slotsSeen true s bits) ∧
          Transaction t .rcvAddress s.regs.offset s.regs.isRead false s.regs.dataBit ∧ MemoryKept s t) ∧
      ((slotsSeen false s bits).length < 8 →
        ∃ t, runOps (bits.map bitOp ++ [.condP]) s = .next t ∧ AtRest t ∧
          t.regs.bitCount = (slotsSeen false s bits).length ∧ t.regs.value = shifted s.regs.value (slotsSeen false s bits) ∧
          Transaction t .waitStart s.regs.offset s.regs.isRead false s.regs.dataBit ∧ MemoryKept s t)) ∧
  (∀ (byte : Byte) (s : State), TickInv s → AtRest s → Paced s → Peaceful (9 * frameTicks s) s →
    s.regs.state = .rcvOffset ∨ s.regs.state = .rcvData → s.regs.bitCount = 0 →
      ∃ t, runOps ((byteBits byte).map bitOp ++ [if byte.getLsbD 0 then .condSr else .condP]) s = .next t ∧ AtRest t ∧
        t.regs.value = byte ∧ t.regs.bitCount = (if byte.getLsbD 0 then 0 else 8) ∧
        Transaction t (if byte.getLsbD 0 then .rcvAddress else .waitStart)
          (if s.regs.state = .rcvOffset then byte.toNat % s.cfg.N else s.regs.offset) s.regs.isRead false s.regs.dataBit ∧
        ∀ a, t.mem.read a = if s.regs.state = .rcvData ∧ a = s.regs.offset then byte else s.mem.read a)

/-! ### Frames (47_bus_operations.md), on the raw lines under the premises of R210 (log 13) -/

/-- ADDR_W (47 R214): `2*ADDR`, acknowledged by the core, then RCV_OFFSET. ADDR_R (R215): `2*ADDR + 1`, acknowledged, then READ with
bit 7 of the addressed cell driven. -/
def Obligations.AddressFrames : Prop :=
  ∀ s : State, FrameReady s → StoreReady (ackTick s) s.pace.high s → s.regs.state = .rcvAddress → s.regs.bitCount = 0 →
    (∃ t, exec .addrW s = .next t ∧ Performed (frameTicks s) s t ∧ TickInv t ∧ AddressedForWrite s t) ∧
    (∃ t, exec .addrR s = .next t ∧ Performed (frameTicks s) s t ∧ TickInv t ∧ AddressedForRead s t)

/-- ADDR_MISS (47 R216, 30 R93): another address is not answered; the core waits for the next START. What slot 9 carries is
what another device put there. The store may be busy throughout. -/
def Obligations.AddressMissFrame : Prop :=
  ∀ (s : State) (byte : Byte) (ack : Bit), FrameReady s → s.regs.state = .rcvAddress → s.regs.bitCount = 0 →
    byte.toNat / 2 ≠ s.cfg.addr.toNat →
      ∃ t, exec (.addrMiss byte ack) s = .next t ∧ Performed (frameTicks s) s t ∧ MemoryKept s t ∧ TickInv t ∧
        FrameResult t .waitStart byte s.regs.offset s.regs.isRead false s.regs.dataBit ∧ SeenOnWire t byte ack

/-- Frames met in WAIT_START are ignored (30 R100, 42 R131, R134): nothing moves but a counter left at 8. -/
def Obligations.FrameIsIgnoredInWaitStart : Prop :=
  ∀ (s : State) (byte : Byte) (ack : Bit), FrameReady s → s.regs.state = .waitStart →
    ∃ t, exec (.addrMiss byte ack) s = .next t ∧ Performed (frameTicks s) s t ∧ OnlyMovesTo .waitStart s t ∧ TickInv t ∧
      t.regs.value = s.regs.value ∧ t.regs.bitCount = (if s.regs.bitCount = 8 then 0 else s.regs.bitCount) ∧
      SeenOnWire t byte ack

/-- OFFSET (47 R217): the byte modulo `N` is loaded and acknowledged, then RCV_DATA. -/
def Obligations.OffsetFrame : Prop :=
  ∀ (s : State) (o : Byte), FrameReady s → StoreReady (ackTick s) s.pace.high s → s.regs.state = .rcvOffset →
    s.regs.bitCount = 0 →
      ∃ t, exec (.offset o) s = .next t ∧ Performed (frameTicks s) s t ∧ TickInv t ∧ OffsetSet o s t

/-- WDATA (47 R218): the byte is written at the offset, acknowledged, and the offset incremented modulo `N`; no other cell
changes. -/
def Obligations.WriteDataFrame : Prop :=
  ∀ (s : State) (d : Byte), FrameReady s → StoreReady (ackTick s) s.pace.high s → s.regs.state = .rcvData →
    s.regs.bitCount = 0 →
      ∃ t, exec (.wdata d) s = .next t ∧ Performed (frameTicks s) s t ∧ TickInv t ∧ ByteStored d s t

/-- RDATA_A (47 R219): the master receives the addressed cell; its ACK increments the offset, and bit 7 of the next cell is
driven in the SCL low phase that follows. RDATA_N (R220): its NACK ends the read with the offset kept. The store may be busy. -/
def Obligations.ReadDataFrames : Prop :=
  ∀ s : State, FrameReady s → s.regs.state = .read → s.regs.bitCount = 0 →
    (∃ t, exec .rdataA s = .next t ∧ Performed (frameTicks s) s t ∧ MemoryKept s t ∧ TickInv t ∧
      FrameResult t .read s.regs.value ((s.regs.offset + 1) % s.cfg.N) s.regs.isRead true
        ((s.mem.read ((s.regs.offset + 1) % s.cfg.N)).getLsbD 7) ∧
      SeenOnWire t (s.mem.read s.regs.offset) false) ∧
    (∃ t, exec .rdataN s = .next t ∧ Performed (frameTicks s) s t ∧ MemoryKept s t ∧ TickInv t ∧
      FrameResult t .waitStart s.regs.value s.regs.offset s.regs.isRead false ((s.mem.read s.regs.offset).getLsbD 0) ∧
      SeenOnWire t (s.mem.read s.regs.offset) true)

/-- Clock stretching (47 R223; 43 R148): where the store is busy for `k` ticks when the master releases SCL for slot 9, a frame the
core acknowledges stops there with the master waiting, takes those `k` ticks one step each, and then ends with registers and memory
as without stretching. -/
def Obligations.StretchedFrameEndsTheSame : Prop :=
  ∀ (s : State) (k : Nat), TickInv s → AtRest s → Paced s → 0 < k → Peaceful (frameTicks s + k) s → StoreBusy (ackTick s) k s →
    StoreReady (ackTick s + k) s.pace.high s → s.regs.bitCount = 0 →
      (s.regs.state = .rcvAddress →
        ∃ u t, exec .addrW s = .next u ∧ u.bus ≠ [] ∧ runSteps (k + 1) u = .next t ∧ Performed (frameTicks s + k) s t ∧
          AddressedForWrite s t) ∧
      (s.regs.state = .rcvAddress →
        ∃ u t, exec .addrR s = .next u ∧ u.bus ≠ [] ∧ runSteps (k + 1) u = .next t ∧ Performed (frameTicks s + k) s t ∧
          AddressedForRead s t) ∧
      (∀ o, s.regs.state = .rcvOffset →
        ∃ u t, exec (.offset o) s = .next u ∧ u.bus ≠ [] ∧ runSteps (k + 1) u = .next t ∧ Performed (frameTicks s + k) s t ∧
          OffsetSet o s t) ∧
      (∀ d, s.regs.state = .rcvData →
        ∃ u t, exec (.wdata d) s = .next u ∧ u.bus ≠ [] ∧ runSteps (k + 1) u = .next t ∧ Performed (frameTicks s + k) s t ∧
          ByteStored d s t)

/-! ### Whole segments (45 R196 to R198, 47 R221) -/

/-- Write stream: `WRITE(o, b1..bn)` from WAIT_START leaves the bytes in consecutive cells from `o mod N`, modulo `N`, a later
byte overwriting an earlier one, and every other cell as it was; the offset has moved on by `n`. -/
def Obligations.WriteStream : Prop :=
  ∀ (s : State) (o : Byte) (ds : List Byte), TickInv s → AtRest s → Paced s → Peaceful ((ds.length + 4) * frameTicks s) s →
    StoreReady 0 ((ds.length + 4) * frameTicks s) s → s.regs.state = .waitStart →
      ∃ t, runOps (writeOps o ds) s = .next t ∧ TickInv t ∧ AtRest t ∧
        t.regs.state = .waitStart ∧ t.regs.offset = (o.toNat + ds.length) % s.cfg.N ∧ t.regs.isRead = false ∧
        ∀ a, t.mem.read a = streamCell s.cfg.N (o.toNat % s.cfg.N) ds a (s.mem.read a)

/-- Read stream: after S and ADDR_R from WAIT_START with `offset = p`, the frame numbered `n + 1` carries
`Mem[(p + n) mod N]`; its ACK moves the offset on, its NACK does not and ends the read; memory is unchanged. -/
def Obligations.ReadStream : Prop :=
  ∀ (s : State) (n : Nat), TickInv s → AtRest s → Paced s → Peaceful ((n + 3) * frameTicks s) s →
    StoreReady 0 ((n + 3) * frameTicks s) s → s.regs.state = .waitStart →
    (∃ t, runOps ([.condS, .addrR] ++ List.replicate (n + 1) .rdataA) s = .next t ∧
      SeenOnWire t (s.mem.read ((s.regs.offset + n) % s.cfg.N)) false ∧ t.regs.state = .read ∧
      t.regs.offset = (s.regs.offset + n + 1) % s.cfg.N ∧ MemoryKept s t) ∧
    (∃ t, runOps ([.condS, .addrR] ++ List.replicate n .rdataA ++ [.rdataN]) s = .next t ∧
      SeenOnWire t (s.mem.read ((s.regs.offset + n) % s.cfg.N)) true ∧ t.regs.state = .waitStart ∧
      t.regs.offset = (s.regs.offset + n) % s.cfg.N ∧ MemoryKept s t)

/-- Round trip: `WRITE(o, b)` followed by `READ_AT(o, 1)` returns `b` to the master. -/
def Obligations.WriteThenReadReturnsTheByte : Prop :=
  ∀ (s : State) (o b : Byte), TickInv s → AtRest s → Paced s → Peaceful (12 * frameTicks s) s →
    StoreReady 0 (12 * frameTicks s) s → s.regs.state = .waitStart →
      ∃ t, runOps (writeOps o [b] ++ readAtOps o) s = .next t ∧ SeenOnWire t b true ∧ t.regs.state = .waitStart

/-! ### Rules about the whole machine -/

/-- One cell, and only then (20 R63, R66): an operation of one tick other than RESET changes no cell but the one at `offset`,
and that one only in a tick of RCV_DATA with the byte complete. Bus operations are covered by their own statements. -/
def Obligations.OnlyTheAddressedCellIsWritten : Prop :=
  ∀ (i : Instr) (s t : State), s.mem.wf → exec i s = .next t → i ≠ .reset → isBusOp i = false →
    ∀ a, t.mem.read a ≠ s.mem.read a →
      a = s.regs.offset ∧ s.regs.bitCount = 8 ∧ t.mem.read a = s.regs.value ∧ (i = .rcvData ∨ s.regs.state = .rcvData)

/-- The direction flag changes only at a successful match (44 R180, 10 R29): over any run of ticks in which no tick starts in
RCV_ADDRESS with the byte complete, `is_read` stays what it was. -/
def Obligations.DirectionChangesOnlyAtAMatch : Prop :=
  ∀ (s : State) (inps : List Inputs), TickInv s →
    (∀ k t, k < inps.length → runTicks (inps.take k) s = .next t →
      ¬ (t.regs.state = .rcvAddress ∧ t.regs.bitCount = 8 ∧ t.regs.value.toNat / 2 = t.cfg.addr.toNat)) →
      ∃ t, runTicks inps s = .next t ∧ t.regs.isRead = s.regs.isRead

/-- Stretching without end (43 R155, R148; 93 U15): in an ACK_x1 state with SCL seen and held low and the store busy for ever, the
core stays there and holds both lines low, however many ticks pass; and a frame the core acknowledges never ends while the store
stays busy: the steps stay in the acknowledge with the master waiting. -/
def Obligations.BusyStoreHoldsTheBus : Prop :=
  (∀ (s : State) (inps : List Inputs), TickInv s →
    s.regs.state = .ackAddress1 ∨ s.regs.state = .ackOffset1 ∨ s.regs.state = .ackData1 →
    s.regs.scl = false → s.regs.sclFf2 = false → s.regs.sclFf1 = false → inps ≠ [] →
    (∀ inp ∈ inps, inp.sclIn = false ∧ inp.storeBusy = true) →
      ∃ t, runTicks inps s = .next t ∧ t.regs.state = s.regs.state ∧ t.regs.scl = false ∧ Drives t true true) ∧
  (∀ (s : State) (i : Instr) (n : Nat), TickInv s → AtRest s → Paced s → s.regs.bitCount = 0 → 0 < n →
    Peaceful (ackTick s + n) s → StoreBusy (ackTick s) n s →
    (s.regs.state = .rcvAddress ∧ (i = .addrW ∨ i = .addrR)) ∨ (s.regs.state = .rcvOffset ∧ ∃ o, i = .offset o) ∨
      (s.regs.state = .rcvData ∧ ∃ d, i = .wdata d) →
      ∃ u t, exec i s = .next u ∧ runSteps n u = .next t ∧ t.bus ≠ [] ∧ t.bus = u.bus ∧ t.regs.scl = false ∧
        t.regs.state = u.regs.state ∧
        (u.regs.state = .ackAddress1 ∨ u.regs.state = .ackOffset1 ∨ u.regs.state = .ackData1) ∧ Drives t true true)

/-- A store that is never busy (43 R154): the core never touches SCL, in any run of ticks. -/
def Obligations.IdleStoreNeverStretches : Prop :=
  ∀ (s : State) (inps : List Inputs), TickInv s → s.wires.sclOe = false → (∀ inp ∈ inps, inp.storeBusy = false) →
    ∃ t, runTicks inps s = .next t ∧ t.wires.sclOe = false ∧ t.wires.sclO = false
end

