-- ==== Sys2Proof/Laws/State.lean ====
section
/-!
SUPPORT. What each field of the state is after each named update: one lemma per field and update, so that no later proof
unfolds a record update.
-/

namespace Sys2Proof.Machine

section
variable (st : ProtocolState) (s : State)

@[simp] theorem withState_cfg : (withState st s).cfg = s.cfg := rfl
@[simp] theorem withState_inputs : (withState st s).inputs = s.inputs := rfl
@[simp] theorem withState_ahead : (withState st s).ahead = s.ahead := rfl
@[simp] theorem withState_sclFf1 : (withState st s).regs.sclFf1 = s.regs.sclFf1 := rfl
@[simp] theorem withState_sclFf2 : (withState st s).regs.sclFf2 = s.regs.sclFf2 := rfl
@[simp] theorem withState_sdaFf1 : (withState st s).regs.sdaFf1 = s.regs.sdaFf1 := rfl
@[simp] theorem withState_sdaFf2 : (withState st s).regs.sdaFf2 = s.regs.sdaFf2 := rfl
@[simp] theorem withState_sampCount : (withState st s).regs.sampCount = s.regs.sampCount := rfl
@[simp] theorem withState_scl : (withState st s).regs.scl = s.regs.scl := rfl
@[simp] theorem withState_sda : (withState st s).regs.sda = s.regs.sda := rfl
@[simp] theorem withState_sclPrev : (withState st s).regs.sclPrev = s.regs.sclPrev := rfl
@[simp] theorem withState_sdaPrev : (withState st s).regs.sdaPrev = s.regs.sdaPrev := rfl
@[simp] theorem withState_value : (withState st s).regs.value = s.regs.value := rfl
@[simp] theorem withState_bitCount : (withState st s).regs.bitCount = s.regs.bitCount := rfl
@[simp] theorem withState_offset : (withState st s).regs.offset = s.regs.offset := rfl
@[simp] theorem withState_state : (withState st s).regs.state = st := rfl
@[simp] theorem withState_isRead : (withState st s).regs.isRead = s.regs.isRead := rfl
@[simp] theorem withState_dataDrv : (withState st s).regs.dataDrv = s.regs.dataDrv := rfl
@[simp] theorem withState_dataBit : (withState st s).regs.dataBit = s.regs.dataBit := rfl
@[simp] theorem withState_mem : (withState st s).mem = s.mem := rfl
@[simp] theorem withState_wires : (withState st s).wires = s.wires := rfl
@[simp] theorem withState_queue : (withState st s).queue = s.queue := rfl
@[simp] theorem withState_master : (withState st s).master = s.master := rfl
@[simp] theorem withState_bus : (withState st s).bus = s.bus := rfl
@[simp] theorem withState_pace : (withState st s).pace = s.pace := rfl
@[simp] theorem withState_wire : (withState st s).wire = s.wire := rfl
@[simp] theorem withState_drawn : (withState st s).drawn = s.drawn := rfl
@[simp] theorem withState_resets : (withState st s).resets = s.resets := rfl

end

section
variable (c d : Bit) (s : State)

@[simp] theorem drive_cfg : (drive c d s).cfg = s.cfg := rfl
@[simp] theorem drive_inputs : (drive c d s).inputs = s.inputs := rfl
@[simp] theorem drive_ahead : (drive c d s).ahead = s.ahead := rfl
@[simp] theorem drive_regs : (drive c d s).regs = s.regs := rfl
@[simp] theorem drive_mem : (drive c d s).mem = s.mem := rfl
@[simp] theorem drive_wires : (drive c d s).wires = s.wires := rfl
@[simp] theorem drive_queue : (drive c d s).queue = s.queue := rfl
@[simp] theorem drive_master : (drive c d s).master = ⟨c, d⟩ := rfl
@[simp] theorem drive_bus : (drive c d s).bus = s.bus := rfl
@[simp] theorem drive_pace : (drive c d s).pace = s.pace := rfl
@[simp] theorem drive_wire : (drive c d s).wire = s.wire := rfl
@[simp] theorem drive_drawn : (drive c d s).drawn = s.drawn := rfl
@[simp] theorem drive_resets : (drive c d s).resets = s.resets := rfl

end

section
variable (b : Bit) (s : State)

@[simp] theorem recordBit_cfg : (recordBit b s).cfg = s.cfg := rfl
@[simp] theorem recordBit_inputs : (recordBit b s).inputs = s.inputs := rfl
@[simp] theorem recordBit_ahead : (recordBit b s).ahead = s.ahead := rfl
@[simp] theorem recordBit_regs : (recordBit b s).regs = s.regs := rfl
@[simp] theorem recordBit_mem : (recordBit b s).mem = s.mem := rfl
@[simp] theorem recordBit_wires : (recordBit b s).wires = s.wires := rfl
@[simp] theorem recordBit_queue : (recordBit b s).queue = s.queue := rfl
@[simp] theorem recordBit_master : (recordBit b s).master = s.master := rfl
@[simp] theorem recordBit_bus : (recordBit b s).bus = s.bus := rfl
@[simp] theorem recordBit_pace : (recordBit b s).pace = s.pace := rfl
@[simp] theorem recordBit_wire : (recordBit b s).wire = BitVec.concat (s.wire.extractLsb' 0 8) b := rfl
@[simp] theorem recordBit_drawn : (recordBit b s).drawn = s.drawn := rfl
@[simp] theorem recordBit_resets : (recordBit b s).resets = s.resets := rfl

end

section
variable (s : State)

@[simp] theorem wired_cfg : (wired s).cfg = s.cfg := rfl
@[simp] theorem wired_inputs : (wired s).inputs = { s.inputs with sclIn := sclLine s, sdaIn := sdaLine s } := rfl
@[simp] theorem wired_ahead : (wired s).ahead = s.ahead := rfl
@[simp] theorem wired_regs : (wired s).regs = s.regs := rfl
@[simp] theorem wired_mem : (wired s).mem = s.mem := rfl
@[simp] theorem wired_wires : (wired s).wires = s.wires := rfl
@[simp] theorem wired_queue : (wired s).queue = s.queue := rfl
@[simp] theorem wired_master : (wired s).master = s.master := rfl
@[simp] theorem wired_bus : (wired s).bus = s.bus := rfl
@[simp] theorem wired_pace : (wired s).pace = s.pace := rfl
@[simp] theorem wired_wire : (wired s).wire = s.wire := rfl
@[simp] theorem wired_drawn : (wired s).drawn = s.drawn := rfl
@[simp] theorem wired_resets : (wired s).resets = s.resets := rfl

end

section
variable (inp : Inputs) (s : State)

@[simp] theorem withInputs_cfg : (withInputs inp s).cfg = s.cfg := rfl
@[simp] theorem withInputs_inputs : (withInputs inp s).inputs = inp := rfl
@[simp] theorem withInputs_ahead : (withInputs inp s).ahead = s.ahead := rfl
@[simp] theorem withInputs_regs : (withInputs inp s).regs = s.regs := rfl
@[simp] theorem withInputs_mem : (withInputs inp s).mem = s.mem := rfl
@[simp] theorem withInputs_wires : (withInputs inp s).wires = s.wires := rfl
@[simp] theorem withInputs_queue : (withInputs inp s).queue = s.queue := rfl
@[simp] theorem withInputs_master : (withInputs inp s).master = s.master := rfl
@[simp] theorem withInputs_bus : (withInputs inp s).bus = s.bus := rfl
@[simp] theorem withInputs_pace : (withInputs inp s).pace = s.pace := rfl
@[simp] theorem withInputs_wire : (withInputs inp s).wire = s.wire := rfl
@[simp] theorem withInputs_drawn : (withInputs inp s).drawn = s.drawn := rfl
@[simp] theorem withInputs_resets : (withInputs inp s).resets = s.resets := rfl

end

section
variable (s : State)

@[simp] theorem tickState_cfg : (tickState s).cfg = s.cfg := rfl
@[simp] theorem tickState_inputs : (tickState s).inputs = s.inputs := rfl
@[simp] theorem tickState_ahead : (tickState s).ahead = s.ahead := rfl
@[simp] theorem tickState_sclFf1 : (tickState s).regs.sclFf1 = nextSclFf1 s := rfl
@[simp] theorem tickState_sclFf2 : (tickState s).regs.sclFf2 = nextSclFf2 s := rfl
@[simp] theorem tickState_sdaFf1 : (tickState s).regs.sdaFf1 = nextSdaFf1 s := rfl
@[simp] theorem tickState_sdaFf2 : (tickState s).regs.sdaFf2 = nextSdaFf2 s := rfl
@[simp] theorem tickState_sampCount : (tickState s).regs.sampCount = nextSampCount s := rfl
@[simp] theorem tickState_scl : (tickState s).regs.scl = nextScl s := rfl
@[simp] theorem tickState_sda : (tickState s).regs.sda = nextSda s := rfl
@[simp] theorem tickState_sclPrev : (tickState s).regs.sclPrev = s.regs.scl := rfl
@[simp] theorem tickState_sdaPrev : (tickState s).regs.sdaPrev = s.regs.sda := rfl
@[simp] theorem tickState_value : (tickState s).regs.value = nextValue s := rfl
@[simp] theorem tickState_bitCount : (tickState s).regs.bitCount = nextBitCount s := rfl
@[simp] theorem tickState_offset : (tickState s).regs.offset = nextOffset s := rfl
@[simp] theorem tickState_state : (tickState s).regs.state = nextState s := rfl
@[simp] theorem tickState_isRead : (tickState s).regs.isRead = nextIsRead s := rfl
@[simp] theorem tickState_dataDrv : (tickState s).regs.dataDrv = nextDataDrv s := rfl
@[simp] theorem tickState_dataBit : (tickState s).regs.dataBit = nextDataBit s := rfl
@[simp] theorem tickState_mem : (tickState s).mem = nextMem s := rfl
@[simp] theorem tickState_wires : (tickState s).wires = wiresOf s := rfl
@[simp] theorem tickState_queue : (tickState s).queue = s.queue := rfl
@[simp] theorem tickState_master : (tickState s).master = s.master := rfl
@[simp] theorem tickState_bus : (tickState s).bus = s.bus := rfl
@[simp] theorem tickState_pace : (tickState s).pace = s.pace := rfl
@[simp] theorem tickState_wire : (tickState s).wire = s.wire := rfl
@[simp] theorem tickState_drawn : (tickState s).drawn = s.drawn := rfl
@[simp] theorem tickState_resets : (tickState s).resets = s.resets := rfl

end

section
variable (s : State)

@[simp] theorem resetState_cfg : (resetState s).cfg = s.cfg := rfl
@[simp] theorem resetState_inputs : (resetState s).inputs = s.inputs := rfl
@[simp] theorem resetState_ahead : (resetState s).ahead = s.ahead := rfl
@[simp] theorem resetState_regs : (resetState s).regs = Regs.reset := rfl
@[simp] theorem resetState_mem : (resetState s).mem = resetMem s := rfl
@[simp] theorem resetState_wires : (resetState s).wires = Wires.idle := rfl
@[simp] theorem resetState_queue : (resetState s).queue = s.queue := rfl
@[simp] theorem resetState_master : (resetState s).master = s.master := rfl
@[simp] theorem resetState_bus : (resetState s).bus = s.bus := rfl
@[simp] theorem resetState_pace : (resetState s).pace = s.pace := rfl
@[simp] theorem resetState_wire : (resetState s).wire = s.wire := rfl
@[simp] theorem resetState_drawn : (resetState s).drawn = s.drawn := rfl
@[simp] theorem resetState_resets : (resetState s).resets = s.resets + 1 := rfl

end

section
variable (s : State)

@[simp] theorem advance_cfg : (advance s).cfg = s.cfg := by unfold advance; split <;> simp_all
@[simp] theorem advance_ahead : (advance s).ahead = s.ahead.drop 1 := by unfold advance; split <;> simp_all
@[simp] theorem advance_regs : (advance s).regs = s.regs := by unfold advance; split <;> simp_all
@[simp] theorem advance_mem : (advance s).mem = s.mem := by unfold advance; split <;> simp_all
@[simp] theorem advance_wires : (advance s).wires = s.wires := by unfold advance; split <;> simp_all
@[simp] theorem advance_queue : (advance s).queue = s.queue := by unfold advance; split <;> simp_all
@[simp] theorem advance_master : (advance s).master = s.master := by unfold advance; split <;> simp_all
@[simp] theorem advance_bus : (advance s).bus = s.bus := by unfold advance; split <;> simp_all
@[simp] theorem advance_pace : (advance s).pace = s.pace := by unfold advance; split <;> simp_all
@[simp] theorem advance_wire : (advance s).wire = s.wire := by unfold advance; split <;> simp_all
@[simp] theorem advance_resets : (advance s).resets = s.resets := by unfold advance; split <;> simp_all

end

end Sys2Proof.Machine
end

