-- ==== Sys2Proof/Laws/Memory.lean ====
section
/-!
SUPPORT. The laws of the backing memory (20_memory.md R62, R63): what a read after a write gives, and that a write keeps the
canonical form and the address range.
-/

namespace Sys2Proof.Machine

/-- Every address of a list of cells is above `a`: the form the tail of a canonical memory has. -/
abbrev Memory.above (m : Memory) (a : Nat) : Prop := ∀ c ∈ m, a < c.1

theorem Memory.wf_nil : Memory.wf [] := by decide

theorem Memory.wf_cons {b : Nat} {w : Byte} {m : Memory} :
    Memory.wf ((b, w) :: m) ↔ Memory.above m b ∧ w ≠ Memory.unlisted b ∧ Memory.wf m := by
  simp only [Memory.wf, Memory.above, List.pairwise_cons, List.mem_cons, forall_eq_or_imp]
  tauto

/-- The cells of a memory after a write: the written one, if it is listed, and the others. -/
theorem Memory.mem_write {m : Memory} {a : Nat} {v : Byte} {c : Host.Cell} (hc : c ∈ m.write a v) :
    c = (a, v) ∨ c ∈ m := by
  induction m with
  | nil =>
    rw [Memory.write] at hc
    split at hc <;> simp_all
  | cons d m ih =>
    obtain ⟨b, w⟩ := d
    rw [Memory.write] at hc
    split_ifs at hc <;> simp only [List.mem_cons] at hc ⊢ <;> tauto

theorem Memory.read_above {m : Memory} {a : Nat} (h : Memory.above m a) : Memory.read m a = Memory.unlisted a := by
  induction m with
  | nil => rfl
  | cons c m ih =>
    obtain ⟨b, w⟩ := c
    have hb : a < b := h (b, w) (by simp)
    rw [Memory.read, if_neg (by omega)]
    exact ih fun c hc => h c (by simp [hc])

theorem Memory.read_write {m : Memory} (h : m.wf) (a b : Nat) (v : Byte) :
    Memory.read (Memory.write m a v) b = if b = a then v else Memory.read m b := by
  induction m with
  | nil =>
    rw [Memory.write]
    split <;> rw [Memory.read] <;> split_ifs <;> simp_all [Memory.read]
  | cons c m ih =>
    obtain ⟨d, w⟩ := c
    obtain ⟨habove, -, hm⟩ := Memory.wf_cons.1 h
    rw [Memory.write]
    by_cases h1 : a < d
    · have hlow : Memory.read ((d, w) :: m) a = Memory.unlisted a := by
        refine Memory.read_above fun c hc => ?_
        rcases List.mem_cons.1 hc with rfl | hc
        exacts [h1, h1.trans (habove c hc)]
      by_cases h2 : v = Memory.unlisted a
      · by_cases hb : b = a
        · rw [if_pos h1, if_pos h2, if_pos hb, hb, hlow, h2]
        · rw [if_pos h1, if_pos h2, if_neg hb]
      · rw [if_pos h1, if_neg h2, Memory.read]
    · by_cases h3 : a = d
      · subst h3
        by_cases h4 : v = Memory.unlisted a
        · by_cases hb : b = a
          · rw [if_neg h1, if_pos rfl, if_pos h4, if_pos hb, hb, Memory.read_above habove, h4]
          · rw [if_neg h1, if_pos rfl, if_pos h4, if_neg hb, Memory.read, if_neg hb]
        · rw [if_neg h1, if_pos rfl, if_neg h4, Memory.read, Memory.read]
          by_cases hb : b = a <;> simp [hb]
      · rw [if_neg h1, if_neg h3, Memory.read, Memory.read, ih hm]
        by_cases hb : b = a
        · rw [if_pos hb, if_neg (by omega), if_pos hb]
        · rw [if_neg hb, if_neg hb]

/-- A write keeps the canonical form. -/
theorem Memory.wf_write {m : Memory} (h : m.wf) (a : Nat) (v : Byte) : Memory.wf (Memory.write m a v) := by
  induction m with
  | nil =>
    rw [Memory.write]
    split <;> simp_all [Memory.wf]
  | cons c m ih =>
    obtain ⟨d, w⟩ := c
    obtain ⟨habove, hw, hm⟩ := Memory.wf_cons.1 h
    rw [Memory.write]
    split_ifs with h1 h2 h3 h4
    · exact h
    · refine Memory.wf_cons.2 ⟨fun c hc => ?_, h2, h⟩
      rcases List.mem_cons.1 hc with rfl | hc
      exacts [h1, h1.trans (habove c hc)]
    · exact hm
    · subst h3
      exact Memory.wf_cons.2 ⟨habove, h4, hm⟩
    · refine Memory.wf_cons.2 ⟨fun c hc => ?_, hw, ih hm⟩
      rcases Memory.mem_write hc with rfl | hc
      exacts [(by omega : d < a), habove c hc]

/-- A write to a cell of `Mem[0..n-1]` leaves only such cells listed. -/
theorem Memory.within_write {m : Memory} {n a : Nat} {v : Byte} (h : m.within n) (ha : a < n) :
    Memory.within (Memory.write m a v) n := by
  intro c hc
  rcases Memory.mem_write hc with rfl | hc
  exacts [ha, h c hc]

end Sys2Proof.Machine
end

