-- ==== Sys2Proof/Laws/Tick.lean ====
section
/-!
SUPPORT. The shared operations, each with the one lemma that says everything it can do: sequencing, the tick, the strobes of the
state rules, the ranges the next register values stay in, and what ticks of bus operations keep.
-/

namespace Sys2Proof.Machine

/-! ### Sequencing and the tick -/

@[simp] theorem andThen_next (s : State) (f : State → Result) : andThen (.next s) f = f s := rfl
@[simp] theorem andThen_fault (e : Fault) (f : State → Result) : andThen (.fault e) f = .fault e := rfl
@[simp] theorem andThen_refused (e : Refusal) (f : State → Result) : andThen (.refused e) f = .refused e := rfl

theorem andThen_assoc (o : Result) (f g : State → Result) :
    andThen (andThen o f) g = andThen o (fun s => andThen (f s) g) := by
  cases o <;> rfl

/-- A sequence that answers a next state went through a state in between. -/
theorem andThen_cases {o : Result} {f : State → Result} {t : State} (h : andThen o f = .next t) :
    ∃ u, o = .next u ∧ f u = .next t := by
  cases o with
  | next u => exact ⟨u, rfl, h⟩
  | fault e => cases h
  | refused e => cases h

/-- Everything a tick can do: commit the next registers, memory and signals. -/
theorem tick_next (s : State) : tick s = .next (tickState s) := rfl

theorem runOps_append (is js : List Instr) (s : State) : runOps (is ++ js) s = andThen (runOps is s) (runOps js) := by
  induction is generalizing s with
  | nil => rfl
  | cons i is ih =>
    show andThen (exec i s) (runOps (is ++ js)) = andThen (andThen (exec i s) (runOps is)) (runOps js)
    rw [andThen_assoc]
    exact congrArg _ (funext ih)

/-! ### The strobes (44 R183): which state asserts which, and when -/

theorem strobes_captureDir (s : State) : strobes .captureDir s = (s.regs.state == .rcvAddress && byteComplete s && addrMatch s) := by
  unfold strobes decision
  cases s.regs.state <;>
    simp only [ruleWaitStart, ruleRcvAddress, ruleAckAddress0, ruleAckAddress1, ruleAckAddress2, ruleRcvOffset,
      ruleAckOffset0, ruleAckOffset1, ruleAckOffset2, ruleRcvData, ruleAckData0, ruleAckData1, ruleAckData2, ruleRead,
      ruleAckRead] <;> (try split_ifs) <;> simp_all <;> rfl

theorem strobes_ocLoad (s : State) : strobes .ocLoad s = (s.regs.state == .rcvOffset && byteComplete s) := by
  unfold strobes decision
  cases s.regs.state <;>
    simp only [ruleWaitStart, ruleRcvAddress, ruleAckAddress0, ruleAckAddress1, ruleAckAddress2, ruleRcvOffset,
      ruleAckOffset0, ruleAckOffset1, ruleAckOffset2, ruleRcvData, ruleAckData0, ruleAckData1, ruleAckData2, ruleRead,
      ruleAckRead] <;> (try split_ifs) <;> simp_all <;> rfl

theorem strobes_ocInc (s : State) : strobes .ocInc s = ((s.regs.state == .ackData2 && !s.regs.scl) || (s.regs.state == .ackRead && masterAck s)) := by
  unfold strobes decision
  cases s.regs.state <;>
    simp only [ruleWaitStart, ruleRcvAddress, ruleAckAddress0, ruleAckAddress1, ruleAckAddress2, ruleRcvOffset,
      ruleAckOffset0, ruleAckOffset1, ruleAckOffset2, ruleRcvData, ruleAckData0, ruleAckData1, ruleAckData2, ruleRead,
      ruleAckRead] <;> (try split_ifs) <;> simp_all [masterAck, masterNack] <;> rfl

theorem strobes_memWe (s : State) : strobes .memWe s = (s.regs.state == .rcvData && byteComplete s) := by
  unfold strobes decision
  cases s.regs.state <;>
    simp only [ruleWaitStart, ruleRcvAddress, ruleAckAddress0, ruleAckAddress1, ruleAckAddress2, ruleRcvOffset,
      ruleAckOffset0, ruleAckOffset1, ruleAckOffset2, ruleRcvData, ruleAckData0, ruleAckData1, ruleAckData2, ruleRead,
      ruleAckRead] <;> (try split_ifs) <;> simp_all <;> rfl

theorem strobes_dataDrvEn (s : State) : strobes .dataDrvEn s = (s.regs.state == .read && !s.regs.scl && !byteComplete s) := by
  unfold strobes decision
  cases s.regs.state <;>
    simp only [ruleWaitStart, ruleRcvAddress, ruleAckAddress0, ruleAckAddress1, ruleAckAddress2, ruleRcvOffset,
      ruleAckOffset0, ruleAckOffset1, ruleAckOffset2, ruleRcvData, ruleAckData0, ruleAckData1, ruleAckData2, ruleRead,
      ruleAckRead] <;> (try split_ifs) <;> simp_all <;> rfl

theorem strobes_dataDrvStop (s : State) : strobes .dataDrvStop s = (s.regs.state == .read && !s.regs.scl && byteComplete s) := by
  unfold strobes decision
  cases s.regs.state <;>
    simp only [ruleWaitStart, ruleRcvAddress, ruleAckAddress0, ruleAckAddress1, ruleAckAddress2, ruleRcvOffset,
      ruleAckOffset0, ruleAckOffset1, ruleAckOffset2, ruleRcvData, ruleAckData0, ruleAckData1, ruleAckData2, ruleRead,
      ruleAckRead] <;> (try split_ifs) <;> simp_all <;> rfl

/-! ### The ranges of the next register values (10 R38) -/

theorem nextSampCount_lt {s : State} (h : s.regs.sampCount < s.cfg.K) : nextSampCount s < s.cfg.K := by
  unfold nextSampCount captures
  split
  · exact s.cfg.K_pos
  · simp_all
    omega

theorem nextBitCount_le {s : State} (h : s.regs.bitCount ≤ 8) : nextBitCount s ≤ 8 := by
  unfold nextBitCount
  split_ifs with h1 h2 h3
  · omega
  · omega
  · simp [countIncs] at h3
    omega
  · exact h

theorem loadedOffset_lt (s : State) : loadedOffset s < s.cfg.N := Nat.mod_lt _ s.cfg.N_pos

theorem steppedOffset_lt (s : State) : steppedOffset s < s.cfg.N := Nat.mod_lt _ s.cfg.N_pos

theorem nextOffset_lt {s : State} (h : s.regs.offset < s.cfg.N) : nextOffset s < s.cfg.N := by
  unfold nextOffset
  split_ifs
  exacts [loadedOffset_lt s, steppedOffset_lt s, h]

theorem nextMem_wf {s : State} (h : s.mem.wf) : (nextMem s).wf := by
  unfold nextMem
  split
  exacts [Memory.wf_write h _ _, h]

theorem nextMem_within {s : State} (h : s.mem.within s.cfg.N) (ho : s.regs.offset < s.cfg.N) :
    (nextMem s).within s.cfg.N := by
  unfold nextMem
  split
  exacts [Memory.within_write h ho, h]

/-- What memory reads as after a tick: the addressed cell holds `value` if the tick writes, all else as before (20 R63). -/
theorem nextMem_read {s : State} (h : s.mem.wf) (a : Nat) :
    (nextMem s).read a =
      if a = s.regs.offset ∧ strobes .memWe s = true then s.regs.value else s.mem.read a := by
  unfold nextMem
  split
  · rw [Memory.read_write h]
    simp_all
  · simp_all

theorem nextDataDrv_inRead {s : State} (h : DrivesInRead s) : nextDataDrv s = true → nextState s = .read := by
  intro hd
  have hstart : startSeen s = false := by
    by_contra hc
    simp_all [nextDataDrv]
  have hstop : stopSeen s = false := by
    by_contra hc
    simp_all [nextDataDrv]
  have hread : s.regs.state = .read := by
    by_contra hc
    have hdd : s.regs.dataDrv = false := by
      by_contra hd'
      exact hc (h (by simpa using hd'))
    simp_all [nextDataDrv, strobes_dataDrvEn, strobes_dataDrvStop]
  simp only [nextDataDrv, strobes_dataDrvEn, strobes_dataDrvStop, hread, hstart, hstop] at hd
  simp only [nextState, applyOverrides, hstart, hstop, decision, hread, ruleRead]
  by_cases hscl : s.regs.scl = true <;> by_cases hb : byteComplete s = true <;> simp_all

/-! ### The invariants across a tick -/

theorem tickState_inv {s : State} (h : Invariant s) : Invariant (tickState s) := by
  obtain ⟨hk, hb, ho, hw, hn, -, -⟩ := h
  exact ⟨nextSampCount_lt hk, nextBitCount_le hb, nextOffset_lt ho, nextMem_wf hw, nextMem_within hn ho, rfl, rfl⟩

theorem tickState_drivesInRead {s : State} (h : DrivesInRead s) : DrivesInRead (tickState s) := nextDataDrv_inRead h

/-- Single registers and signals do not touch what the invariants speak of, nor does the environment. -/
theorem inv_of_eq {s t : State} (h : Invariant s) (hcfg : t.cfg = s.cfg) (hmem : t.mem = s.mem)
    (hs : t.regs.sampCount < s.cfg.K) (hb : t.regs.bitCount ≤ 8) (ho : t.regs.offset < s.cfg.N)
    (hd : t.wires.sdaO = false) (hc : t.wires.sclO = false) : Invariant t := by
  obtain ⟨-, -, -, hw, hn, -, -⟩ := h
  refine ⟨?_, hb, ?_, ?_, ?_, hd, hc⟩
  · rw [hcfg]; exact hs
  · rw [hcfg]; exact ho
  · rw [hmem]; exact hw
  · rw [hmem, hcfg]; exact hn

theorem resetMem_wf {s : State} (h : s.mem.wf) : (resetMem s).wf := by
  unfold resetMem
  split
  exacts [Memory.wf_write h _ _, h]

theorem resetMem_within {s : State} (h : s.mem.within s.cfg.N) (ho : s.regs.offset < s.cfg.N) :
    (resetMem s).within s.cfg.N := by
  unfold resetMem
  split
  exacts [Memory.within_write h ho, h]

/-- What a reset can leave in memory: every cell as it was, but for the cell of a write request of this tick, which takes the
free value of this reset. -/
theorem resetMem_read {s : State} (h : s.mem.wf) (a : Nat) :
    (resetMem s).read a =
      if strobes .memWe s = true ∧ a = s.regs.offset then Config.cutWrite s.resets else s.mem.read a := by
  unfold resetMem
  split
  · rename_i hs
    simp [hs, Memory.read_write h]
  · rename_i hs
    simp [hs]

theorem resetState_inv {s : State} (h : Invariant s) : Invariant (resetState s) := by
  obtain ⟨-, -, ho, hw, hn, -, -⟩ := h
  exact ⟨s.cfg.K_pos, Nat.zero_le _, s.cfg.N_pos, resetMem_wf hw, resetMem_within hn ho, rfl, rfl⟩

theorem resetState_drivesInRead (s : State) : DrivesInRead (resetState s) := fun h => by cases h

/-! ### The ticks of bus operations: what every tick keeps, every operation keeps -/

theorem tickInv_of_eq {s t : State} (h : TickInv s) (hcfg : t.cfg = s.cfg) (hmem : t.mem = s.mem) (hregs : t.regs = s.regs)
    (hw : t.wires = s.wires) : TickInv t := by
  obtain ⟨h, hd⟩ := h
  refine ⟨?_, ?_⟩
  · unfold Invariant at *
    rw [hcfg, hmem, hregs, hw]
    exact h
  · unfold DrivesInRead at *
    rw [hregs]
    exact hd

/-- The invariants survive a tick of a bus operation. -/
theorem busTick_inv {s : State} (h : Invariant s) : Invariant (busTick s) := by
  have ha : ∀ u : State, Invariant u → Invariant (advance u) := fun u hu => by
    obtain ⟨hk, hb, ho, -⟩ := id hu
    exact inv_of_eq hu (by simp) (by simp) (by simpa using hk) (by simpa using hb) (by simpa using ho)
      (by simpa using hu.2.2.2.2.2.1) (by simpa using hu.2.2.2.2.2.2)
  unfold busTick
  split
  · exact ha _ (resetState_inv h)
  · exact ha _ (tickState_inv (s := wired s) h)

theorem busTick_drivesInRead {s : State} (h : DrivesInRead s) : DrivesInRead (busTick s) := by
  unfold busTick
  split
  · simpa [DrivesInRead] using resetState_drivesInRead s
  · have := tickState_drivesInRead (s := wired s) h
    unfold DrivesInRead at *
    simpa using this

@[simp] theorem busTick_cfg (s : State) : (busTick s).cfg = s.cfg := by unfold busTick; split <;> simp
@[simp] theorem busTick_queue (s : State) : (busTick s).queue = s.queue := by unfold busTick; split <;> simp
@[simp] theorem busTick_master (s : State) : (busTick s).master = s.master := by unfold busTick; split <;> simp
@[simp] theorem busTick_bus (s : State) : (busTick s).bus = s.bus := by unfold busTick; split <;> simp
@[simp] theorem busTick_pace (s : State) : (busTick s).pace = s.pace := by unfold busTick; split <;> simp
@[simp] theorem busTick_wire (s : State) : (busTick s).wire = s.wire := by unfold busTick; split <;> simp
@[simp] theorem busTick_ahead (s : State) : (busTick s).ahead = s.ahead.drop 1 := by unfold busTick; split <;> simp

/-- A property that ticks keep, and that does not look at the master, is kept by a whole bus operation. -/
theorem play_keeps {P : State → Prop} (tick : ∀ s, P s → P (busTick s)) (bus : ∀ s b, P s → P { s with bus := b })
    (drives : ∀ s c d, P s → P (drive c d s)) (records : ∀ s b, P s → P (recordBit b s)) :
    ∀ (phases : List Phase) (s : State), P s → P (play phases s) := by
  have ticks : ∀ n s, P s → P (busTicks n s) := fun n => by
    induction n with
    | zero => exact fun s h => h
    | succ n ih => exact fun s h => ih _ (tick s h)
  intro phases
  induction phases with
  | nil => exact fun s h => bus s [] h
  | cons ph rest ih =>
    intro s h
    have hd := drives s ph.scl ph.sda h
    rw [play]
    split
    · exact bus _ _ hd
    · refine ih _ (ticks _ _ ?_)
      unfold noted
      split
      exacts [records _ _ hd, hd]

theorem play_inv (phases : List Phase) (s : State) (h : Invariant s) : Invariant (play phases s) :=
  play_keeps (P := Invariant) (fun _ => busTick_inv) (fun _ _ h => h) (fun _ _ _ h => h) (fun _ _ h => h) phases s h

theorem play_drivesInRead (phases : List Phase) (s : State) (h : DrivesInRead s) : DrivesInRead (play phases s) :=
  play_keeps (P := DrivesInRead) (fun _ => busTick_drivesInRead) (fun _ _ h => h) (fun _ _ _ h => h) (fun _ _ h => h) phases s h

/-- No bus operation changes the configuration, the queue or the pace. -/
theorem play_env (phases : List Phase) (s : State) :
    (play phases s).cfg = s.cfg ∧ (play phases s).queue = s.queue ∧ (play phases s).pace = s.pace :=
  play_keeps (P := fun t => t.cfg = s.cfg ∧ t.queue = s.queue ∧ t.pace = s.pace) (fun u h => by simpa using h) (fun _ _ h => h)
    (fun _ _ _ h => h) (fun _ _ h => h) phases s ⟨rfl, rfl, rfl⟩

end Sys2Proof.Machine
end

