-- ==== Sys2Proof/Laws/Bus.lean ====
section
/-!
SUPPORT. A tick of the core without its synchronizer. `View` is the part of the state a tick depends on or changes beyond the nine
line registers; `lowStep`, `riseStep`, `holdStep`, `startStep` and `stopStep` say once what a tick does to it with SCL seen low,
rising, held high, and with SDA seen to move while SCL is high. `Tracks` says which raw levels the line registers of one line hold.
-/

namespace Sys2Proof.Machine

/-- The part of the state a bus operation depends on or changes, beyond the line registers and the signals shown. -/
structure View where
  cfg : Config
  st : ProtocolState
  bitCount : Nat
  value : Byte
  offset : Nat
  isRead : Bit
  dataDrv : Bit
  dataBit : Bit
  mem : Memory
  wire : BitVec 9

/-- The view of a state. -/
def view (s : State) : View :=
  { cfg := s.cfg, st := s.regs.state, bitCount := s.regs.bitCount, value := s.regs.value, offset := s.regs.offset,
    isRead := s.regs.isRead, dataDrv := s.regs.dataDrv, dataBit := s.regs.dataBit, mem := s.mem, wire := s.wire }

/-- `sda_oe` of a view (43 R146). -/
def View.oe (v : View) : Bit := acknowledges v.st || (v.dataDrv && !v.dataBit)

/-- A tick with SCL low: the state rules with `scl == 0`; nothing is counted or shifted. -/
def View.lowStep (v : View) : View :=
  match v.st with
  | .waitStart => v
  | .rcvAddress =>
    if v.bitCount = 8 then
      if v.value.extractLsb' 1 7 = v.cfg.addr then { v with st := .ackAddress0, isRead := v.value.getLsbD 0 }
      else { v with st := .waitStart }
    else v
  | .ackAddress0 => { v with st := .ackAddress1 }
  | .ackAddress1 => v
  | .ackAddress2 => { v with st := if v.isRead then .read else .rcvOffset }
  | .rcvOffset => if v.bitCount = 8 then { v with st := .ackOffset0, offset := v.value.toNat % v.cfg.N } else v
  | .ackOffset0 => { v with st := .ackOffset1 }
  | .ackOffset1 => v
  | .ackOffset2 => { v with st := .rcvData }
  | .rcvData => if v.bitCount = 8 then { v with st := .ackData0, mem := v.mem.write v.offset v.value } else v
  | .ackData0 => { v with st := .ackData1 }
  | .ackData1 => v
  | .ackData2 => { v with st := .rcvData, offset := (v.offset + 1) % v.cfg.N }
  | .read =>
    if v.bitCount = 8 then { v with st := .ackRead, dataDrv := false }
    else
      { v with
        dataDrv := true
        dataBit := if v.bitCount ≤ 7 then (v.mem.read v.offset).getLsbD (7 - v.bitCount) else false }
  | .ackRead => v

/-- A tick with SCL held high and no edge: the state rules with `scl == 1`; nothing is counted or shifted. -/
def View.holdStep (v : View) : View :=
  match v.st with
  | .rcvAddress =>
    if v.bitCount = 8 then
      if v.value.extractLsb' 1 7 = v.cfg.addr then { v with st := .ackAddress0, isRead := v.value.getLsbD 0 }
      else { v with st := .waitStart }
    else v
  | .ackAddress1 => { v with st := .ackAddress2 }
  | .rcvOffset => if v.bitCount = 8 then { v with st := .ackOffset0, offset := v.value.toNat % v.cfg.N } else v
  | .ackOffset1 => { v with st := .ackOffset2 }
  | .rcvData => if v.bitCount = 8 then { v with st := .ackData0, mem := v.mem.write v.offset v.value } else v
  | .ackData1 => { v with st := .ackData2 }
  | .waitStart | .ackAddress0 | .ackAddress2 | .ackOffset0 | .ackOffset2 | .ackData0 | .ackData2 | .read | .ackRead => v

/-- What the shifter does at a rising edge of SCL with SDA at `b` (42 R131 to R133). -/
def View.count (b : Bit) (v w : View) : View :=
  if v.bitCount = 8 then { w with bitCount := 0 }
  else if receives v.st then { w with bitCount := v.bitCount + 1, value := shiftLeftIn v.value b }
  else if v.st = .read then { w with bitCount := v.bitCount + 1 }
  else w

/-- A tick in which SCL rises with SDA still at `b`: the shifter counts, the state rules see `scl == 1`, and ACK_READ samples
the master's answer (44 R176). -/
def View.riseStep (b : Bit) (v : View) : View :=
  v.count b
    (match v.st with
     | .ackRead => if b then { v with st := .waitStart } else { v with st := .read, offset := (v.offset + 1) % v.cfg.N }
     | .waitStart | .rcvAddress | .ackAddress0 | .ackAddress1 | .ackAddress2 | .rcvOffset | .ackOffset0 | .ackOffset1
     | .ackOffset2 | .rcvData | .ackData0 | .ackData1 | .ackData2 | .read => v.holdStep)

/-- A tick in which SDA is seen to fall with SCL held high: the state's strobe acts, and the START is taken (44 R177, R181). -/
def View.startStep (v : View) : View := { v.holdStep with st := .rcvAddress, bitCount := 0, dataDrv := false }

/-- A tick in which SDA is seen to rise with SCL held high: the state's strobe acts, and the STOP is taken (44 R178, R181). -/
def View.stopStep (v : View) : View := { v.holdStep with st := .waitStart, dataDrv := false }

/-- SDA is seen to move to `b` while SCL is held high. -/
def View.edgeStep (b : Bit) (v : View) : View := if b then v.stopStep else v.startStep

/-- The next registers and memory of a tick, seen through the view, with the strobes spelled out. -/
theorem view_tickState (s : State) :
    view (tickState s) =
      { cfg := s.cfg, st := nextState s, bitCount := nextBitCount s, value := nextValue s, offset := nextOffset s,
        isRead := nextIsRead s, dataDrv := nextDataDrv s, dataBit := nextDataBit s, mem := nextMem s, wire := s.wire } := rfl

/-- A tick with SCL seen low. -/
theorem view_low (s : State) (hc : s.regs.scl = false) : view (tickState s) = (view s).lowStep := by
  rw [view_tickState]
  obtain ⟨cfg, inp, ah, ⟨f1, f2, g1, g2, sc, scl, sda, sp, dp, value, bc, off, st, ir, dd, db⟩, mem, wires, q, ms, bus, pc, w, dr⟩ := s
  obtain rfl : scl = false := hc
  by_cases h8 : bc = 8 <;> by_cases h7 : bc ≤ 7 <;> cases st <;>
    simp [view, View.lowStep, nextState, nextBitCount, nextValue, nextOffset, nextIsRead, nextDataDrv, nextDataBit, nextMem,
      strobes, decision, applyOverrides, countClears, countWraps, countIncs, shiftsIn, startSeen, stopSeen, sclRising,
      ruleWaitStart, ruleRcvAddress, ruleAckAddress0, ruleAckAddress1, ruleAckAddress2, ruleRcvOffset,
      ruleAckOffset0, ruleAckOffset1, ruleAckOffset2, ruleRcvData, ruleAckData0, ruleAckData1, ruleAckData2, ruleRead,
      ruleAckRead, masterAck, masterNack, addrMatch, loadedOffset, steppedOffset, outBit, memRdata, byteComplete, h8, h7] <;>
    split_ifs <;> simp_all

/-- A tick in which SCL is seen to rise, SDA having been at its level before. -/
theorem view_rise (s : State) (hc : s.regs.scl = true) (hp : s.regs.sclPrev = false) (hd : s.regs.sdaPrev = s.regs.sda) :
    view (tickState s) = (view s).riseStep s.regs.sda := by
  rw [view_tickState]
  obtain ⟨cfg, inp, ah, ⟨f1, f2, g1, g2, sc, scl, sda, sp, dp, value, bc, off, st, ir, dd, db⟩, mem, wires, q, ms, bus, pc, w, dr⟩ := s
  obtain rfl : scl = true := hc
  obtain rfl : sp = false := hp
  obtain rfl : dp = sda := hd
  by_cases h8 : bc = 8 <;> cases st <;> cases dp <;>
    simp [view, View.riseStep, View.holdStep, View.count, receives, transfers, nextState, nextBitCount, nextValue, nextOffset,
      nextIsRead, nextDataDrv, nextDataBit, nextMem, strobes, decision, applyOverrides, countClears, countWraps, countIncs,
      shiftsIn, startSeen, stopSeen, sclRising, sdaRising, sdaFalling, ruleWaitStart, ruleRcvAddress,
      ruleAckAddress0, ruleAckAddress1, ruleAckAddress2, ruleRcvOffset, ruleAckOffset0, ruleAckOffset1, ruleAckOffset2,
      ruleRcvData, ruleAckData0, ruleAckData1, ruleAckData2, ruleRead, ruleAckRead, masterAck, masterNack, addrMatch,
      loadedOffset, steppedOffset, byteComplete, h8] <;>
    split_ifs <;> simp_all

/-- A tick with SCL seen held high and SDA still. -/
theorem view_hold (s : State) (hc : s.regs.scl = true) (hp : s.regs.sclPrev = true) (hd : s.regs.sdaPrev = s.regs.sda) :
    view (tickState s) = (view s).holdStep := by
  rw [view_tickState]
  obtain ⟨cfg, inp, ah, ⟨f1, f2, g1, g2, sc, scl, sda, sp, dp, value, bc, off, st, ir, dd, db⟩, mem, wires, q, ms, bus, pc, w, dr⟩ := s
  obtain rfl : scl = true := hc
  obtain rfl : sp = true := hp
  obtain rfl : dp = sda := hd
  by_cases h8 : bc = 8 <;> cases st <;> cases dp <;>
    simp [view, View.holdStep, nextState, nextBitCount, nextValue, nextOffset,
      nextIsRead, nextDataDrv, nextDataBit, nextMem, strobes, decision, applyOverrides, countClears, countWraps, countIncs,
      shiftsIn, startSeen, stopSeen, sclRising, sdaRising, sdaFalling, ruleWaitStart, ruleRcvAddress,
      ruleAckAddress0, ruleAckAddress1, ruleAckAddress2, ruleRcvOffset, ruleAckOffset0, ruleAckOffset1, ruleAckOffset2,
      ruleRcvData, ruleAckData0, ruleAckData1, ruleAckData2, ruleRead, ruleAckRead, masterAck, masterNack, addrMatch,
      loadedOffset, steppedOffset, byteComplete, h8] <;>
    split_ifs <;> simp_all

/-- A tick in which SDA is seen to move to `b` with SCL held high. -/
theorem view_edge (b : Bit) (s : State) (hc : s.regs.scl = true) (hp : s.regs.sclPrev = true) (hd : s.regs.sdaPrev = !b)
    (hb : s.regs.sda = b) : view (tickState s) = (view s).edgeStep b := by
  rw [view_tickState]
  obtain ⟨cfg, inp, ah, ⟨f1, f2, g1, g2, sc, scl, sda, sp, dp, value, bc, off, st, ir, dd, db⟩, mem, wires, q, ms, bus, pc, w, dr⟩ := s
  obtain rfl : scl = true := hc
  obtain rfl : sp = true := hp
  obtain rfl : dp = !b := hd
  obtain rfl : sda = b := hb
  by_cases h8 : bc = 8 <;> cases st <;> cases sda <;>
    simp [view, View.edgeStep, View.startStep, View.stopStep, View.holdStep, nextState, nextBitCount, nextValue, nextOffset,
      nextIsRead, nextDataDrv, nextDataBit, nextMem, strobes, decision, applyOverrides, countClears, countWraps, countIncs,
      shiftsIn, startSeen, stopSeen, sclRising, sdaRising, sdaFalling, ruleWaitStart, ruleRcvAddress,
      ruleAckAddress0, ruleAckAddress1, ruleAckAddress2, ruleRcvOffset, ruleAckOffset0, ruleAckOffset1, ruleAckOffset2,
      ruleRcvData, ruleAckData0, ruleAckData1, ruleAckData2, ruleRead, ruleAckRead, masterAck, masterNack, addrMatch,
      loadedOffset, steppedOffset, byteComplete, h8] <;>
    split_ifs <;> simp_all

/-! ### What the steps do not change -/

theorem View.oe_hold (v : View) : v.holdStep.oe = v.oe := by
  obtain ⟨cfg, st, bc, value, off, ir, dd, db, mem, w⟩ := v
  cases st <;> simp [View.holdStep, View.oe, acknowledges] <;> split_ifs <;> rfl

theorem View.oe_count (b : Bit) (v w : View) : (v.count b w).oe = w.oe := by
  unfold View.count
  split_ifs <;> rfl

theorem View.oe_rise (b : Bit) (v : View) : (v.riseStep b).oe = v.oe := by
  rw [View.riseStep, View.oe_count]
  obtain ⟨cfg, st, bc, value, off, ir, dd, db, mem, w⟩ := v
  cases st <;> first | exact View.oe_hold _ | (cases b <;> simp [View.oe, acknowledges])

theorem View.hold_hold (v : View) : v.holdStep.holdStep = v.holdStep := by
  obtain ⟨cfg, st, bc, value, off, ir, dd, db, mem, w⟩ := v
  by_cases h8 : bc = 8 <;> cases st <;> simp [View.holdStep, h8] <;> split_ifs <;> rfl

theorem View.edge_hold (b : Bit) (v : View) : v.holdStep.edgeStep b = v.edgeStep b := by
  cases b <;> simp [View.edgeStep, View.startStep, View.stopStep, View.hold_hold]

theorem View.hold_edge (b : Bit) (v : View) : (v.edgeStep b).holdStep = v.edgeStep b := by
  cases b <;> simp [View.edgeStep, View.startStep, View.stopStep, View.holdStep]

theorem View.oe_edge (b : Bit) (v : View) : (v.edgeStep b).oe = false := by
  cases b <;> simp [View.edgeStep, View.startStep, View.stopStep, View.oe, acknowledges]

/-- After a rising edge the core is in no state that stretches (43 R148). -/
theorem View.stretches_rise (b : Bit) (v : View) : stretches (v.riseStep b).st = false := by
  obtain ⟨cfg, st, bc, value, off, ir, dd, db, mem, w⟩ := v
  cases st <;> cases b <;> simp [View.riseStep, View.count, View.holdStep, stretches, receives] <;> split_ifs <;> rfl

theorem View.stretches_hold {v : View} (h : stretches v.st = false) : stretches v.holdStep.st = false := by
  obtain ⟨cfg, st, bc, value, off, ir, dd, db, mem, w⟩ := v
  cases st <;> simp [View.holdStep, stretches] at h ⊢ <;> split_ifs <;> rfl

/-- Where two ticks with SCL low lead, and a third changes nothing: from there and from the state one tick with SCL high later
(46 R204). -/
structure Lands (r w : View) : Prop where
  low : r.lowStep.lowStep = w
  hold : r.holdStep.lowStep.lowStep = w
  stays : w.lowStep = w

/-- Two ticks with SCL low are enough for the reaction to what was seen last (46 R204), unless an acknowledge is left at its end
with a complete byte. -/
theorem lands {v : View} (h8 : v.bitCount = 8 → transfers v.st = true) (hs : stretches v.st = false) :
    Lands v v.lowStep.lowStep := by
  obtain ⟨cfg, st, bc, value, off, ir, dd, db, mem, w⟩ := v
  simp only at h8 hs
  by_cases h : bc = 8
  · by_cases ha : value.extractLsb' 1 7 = cfg.addr
    all_goals
      cases st <;> simp [transfers, receives, h] at h8 <;> refine ⟨rfl, ?_, ?_⟩ <;> simp [View.lowStep, View.holdStep, h, ha]
  · cases st <;> cases ir <;> simp [stretches] at hs <;> refine ⟨rfl, ?_, ?_⟩ <;> simp [View.lowStep, View.holdStep, h]

theorem transfers_rise (b : Bit) (v : View) : (v.riseStep b).bitCount = 8 → transfers (v.riseStep b).st = true := by
  obtain ⟨cfg, st, bc, value, off, ir, dd, db, mem, w⟩ := v
  by_cases h8 : bc = 8
  · simp [View.riseStep, View.count, h8]
  · cases st <;> cases b <;> simp [View.riseStep, View.count, View.holdStep, receives, transfers, h8]

/-- Two ticks with SCL low are enough for the reaction to a rising edge (46 R204). -/
theorem lands_rise (b : Bit) (v : View) : Lands (v.riseStep b) (v.riseStep b).lowStep.lowStep :=
  lands (transfers_rise b v) (View.stretches_rise b v)

/-! ### The synchronizer -/

/-- Where in the history of the raw line the tick before saw LineSample. -/
def prevIndex (K sc : Nat) : Nat := if sc = 0 then 2 + K else 2 + sc

/-- The registers of one line hold the raw levels `h` of the ticks before, the latest first (40 R110 to R113, 41 R120): the
stages the last two, LineSample the one that was two ticks old at the last capture, its history the one a tick before. -/
structure Tracks (f1 f2 l p : Bit) (K sc : Nat) (h : Nat → Bit) : Prop where
  ff1 : f1 = h 0
  ff2 : f2 = h 1
  sample : l = h (2 + sc)
  prev : p = h (prevIndex K sc)

/-- The history with one more level in front. -/
def push (raw : Bit) (h : Nat → Bit) : Nat → Bit
  | 0 => raw
  | i + 1 => h i

/-- A tick of the synchronizer. -/
theorem tracks_tick {f1 f2 l p raw : Bit} {K sc : Nat} {h : Nat → Bit} (hs : sc < K) (ht : Tracks f1 f2 l p K sc h) :
    Tracks raw f1 (if sc == K - 1 then f2 else l) l K (if sc == K - 1 then 0 else sc + 1) (push raw h) := by
  obtain ⟨h1, h2, h3, h4⟩ := ht
  by_cases hc : sc = K - 1
  · refine ⟨rfl, h1, ?_, ?_⟩
    · simp only [hc, beq_self_eq_true, if_true]
      exact h2
    · rw [h3, show prevIndex K (if sc == K - 1 then 0 else sc + 1) = (2 + sc) + 1 by simp [prevIndex, hc]; omega]
      rfl
  · refine ⟨rfl, h1, ?_, ?_⟩
    · simp only [beq_iff_eq, hc, if_false]
      exact h3
    · rw [h3, show prevIndex K (if sc == K - 1 then 0 else sc + 1) = (2 + sc) + 1 by simp [prevIndex, hc]; omega]
      rfl

theorem tracks_congr {f1 f2 l p : Bit} {K sc : Nat} {h g : Nat → Bit} (hs : sc < K) (ht : Tracks f1 f2 l p K sc h)
    (he : ∀ i, i ≤ K + 2 → h i = g i) : Tracks f1 f2 l p K sc g :=
  ⟨ht.ff1.trans (he 0 (by omega)), ht.ff2.trans (he 1 (by omega)), ht.sample.trans (he _ (by omega)),
    ht.prev.trans (he _ (by unfold prevIndex; split <;> omega))⟩

/-- The registers of a line that has been at one level for long. -/
theorem tracks_const {b : Bit} {K sc : Nat} : Tracks b b b b K sc (fun _ => b) := ⟨rfl, rfl, rfl, rfl⟩

end Sys2Proof.Machine
end

