-- ==== Sys2Proof/Laws/Phases.lean ====
section
/-!
SUPPORT. The phases of the bus master on the raw lines (47_bus_operations.md R210), as the core lives through them. `High`, `Edge`
and `Low` say where the core is after some ticks of SCL high, of SCL high with SDA moved, and of SCL low: which raw levels its
synchronizer holds and how far its reaction has come. Each has one lemma for a tick and one for a phase.
-/

namespace Sys2Proof.Machine
set_option Elab.async false -- one thread: the module build bounds memory, and every thread reserves a stack

/-! ### Ticks on a bus without third parties -/

/-- In this tick no third party drives a line and no reset comes. -/
abbrev Calm (inp : Inputs) : Prop := inp.sclIn = true ∧ inp.sdaIn = true ∧ inp.reset = false

/-- The synchronizer's registers of SCL hold the levels `h`. -/
abbrev SclTracks (s : State) (h : Nat → Bit) : Prop :=
  Tracks s.regs.sclFf1 s.regs.sclFf2 s.regs.scl s.regs.sclPrev s.cfg.K s.regs.sampCount h

/-- The synchronizer's registers of SDA hold the levels `h`. -/
abbrev SdaTracks (s : State) (h : Nat → Bit) : Prop :=
  Tracks s.regs.sdaFf1 s.regs.sdaFf2 s.regs.sda s.regs.sdaPrev s.cfg.K s.regs.sampCount h

theorem busTick_calm {s : State} (h : Calm s.inputs) : busTick s = advance (tickState (wired s)) := by
  rw [busTick, if_neg (by simp [h.2.2])]

theorem view_busTick {s : State} (h : Calm s.inputs) : view (busTick s) = view (tickState s) := by
  rw [busTick_calm h]
  simp only [view, advance_cfg, advance_regs, advance_mem, advance_wire, tickState_cfg, wired_cfg, tickState_mem, tickState_wire,
    wired_wire]
  rfl

theorem sampCount_busTick {s : State} (h : Calm s.inputs) :
    (busTick s).regs.sampCount = if s.regs.sampCount == s.cfg.K - 1 then 0 else s.regs.sampCount + 1 := by
  rw [busTick_calm h, advance_regs]
  rfl

theorem sclTracks_busTick {s : State} {h : Nat → Bit} (hc : Calm s.inputs) (hs : s.regs.sampCount < s.cfg.K)
    (ht : SclTracks s h) : SclTracks (busTick s) (push (sclLine s) h) := by
  have := tracks_tick (raw := sclLine s) hs ht
  rw [SclTracks, sampCount_busTick hc, busTick_cfg, busTick_calm hc, advance_regs]
  exact this

theorem sdaTracks_busTick {s : State} {h : Nat → Bit} (hc : Calm s.inputs) (hs : s.regs.sampCount < s.cfg.K)
    (ht : SdaTracks s h) : SdaTracks (busTick s) (push (sdaLine s) h) := by
  have := tracks_tick (raw := sdaLine s) hs ht
  rw [SdaTracks, sampCount_busTick hc, busTick_cfg, busTick_calm hc, advance_regs]
  exact this

theorem sampCount_busTick_lt {s : State} (hc : Calm s.inputs) (hs : s.regs.sampCount < s.cfg.K) :
    (busTick s).regs.sampCount < (busTick s).cfg.K := by
  rw [sampCount_busTick hc, busTick_cfg]
  split
  · exact s.cfg.K_pos
  · simp_all; omega

/-- Where the two indices of the synchronizer are, and where a tick moves them. -/
theorem index_tick {s : State} (hc : Calm s.inputs) (hs : s.regs.sampCount < s.cfg.K) :
    prevIndex (busTick s).cfg.K (busTick s).regs.sampCount = 2 + s.regs.sampCount + 1 ∧
    ((busTick s).regs.sampCount = s.regs.sampCount + 1 ∨ (busTick s).regs.sampCount = 0 ∧ s.regs.sampCount = s.cfg.K - 1) ∧
    ((s.regs.sampCount = 0 ∧ prevIndex s.cfg.K s.regs.sampCount = 2 + s.cfg.K) ∨
      (s.regs.sampCount ≠ 0 ∧ prevIndex s.cfg.K s.regs.sampCount = 2 + s.regs.sampCount)) := by
  rw [sampCount_busTick hc, busTick_cfg]
  unfold prevIndex
  refine ⟨?_, ?_, ?_⟩
  · split <;> split <;> simp_all <;> omega
  · split <;> simp_all
  · split <;> simp_all

theorem index_le {K sc : Nat} (h : sc < K) : prevIndex K sc ≤ K + 2 := by
  unfold prevIndex; split <;> omega

theorem sdaLine_calm {s : State} (hc : Calm s.inputs) : sdaLine s = (s.master.sda && !(view s).oe) := by
  unfold sdaLine
  rw [hc.2.1, Bool.and_true]
  rfl

theorem sclLine_calm {s : State} (hc : Calm s.inputs) :
    sclLine s = (s.master.scl && !(s.inputs.storeBusy && !s.regs.scl && stretches (view s).st)) := by
  unfold sclLine
  rw [hc.1, Bool.and_true]
  rfl

/-- The tick of a view, by what the lines show. -/
theorem view_busTick_low {s : State} (hc : Calm s.inputs) (h : s.regs.scl = false) :
    view (busTick s) = (view s).lowStep := (view_busTick hc).trans (view_low s h)

theorem view_busTick_rise {s : State} {d : Bit} (hc : Calm s.inputs) (h : s.regs.scl = true) (hp : s.regs.sclPrev = false)
    (hd : s.regs.sda = d) (hdp : s.regs.sdaPrev = d) : view (busTick s) = (view s).riseStep d :=
  hd ▸ (view_busTick hc).trans (view_rise s h hp (hdp.trans hd.symm))

theorem view_busTick_hold {s : State} {d : Bit} (hc : Calm s.inputs) (h : s.regs.scl = true) (hp : s.regs.sclPrev = true)
    (hd : s.regs.sda = d) (hdp : s.regs.sdaPrev = d) : view (busTick s) = (view s).holdStep :=
  (view_busTick hc).trans (view_hold s h hp (hdp.trans hd.symm))

theorem view_busTick_edge {s : State} {b : Bit} (hc : Calm s.inputs) (h : s.regs.scl = true) (hp : s.regs.sclPrev = true)
    (hd : s.regs.sda = b) (hdp : s.regs.sdaPrev = !b) : view (busTick s) = (view s).edgeStep b :=
  (view_busTick hc).trans (view_edge b s h hp hdp hd)

/-! ### SCL high -/

/-- `n` ticks of SCL high with SDA at `d` have followed an SCL low phase, whose settled view is `v0`; `r` is what the rising edge
makes of it. -/
structure High (n : Nat) (d : Bit) (v0 r : View) (s : State) : Prop where
  samp : s.regs.sampCount < s.cfg.K
  scl : SclTracks s (fun i => decide (i < n))
  sda : ∃ g, SdaTracks s g ∧ ∀ i, i < n + s.cfg.K → g i = d
  before : n ≤ prevIndex s.cfg.K s.regs.sampCount → view s = v0
  after : prevIndex s.cfg.K s.regs.sampCount < n → view s = r ∨ view s = r.holdStep
  settled : s.cfg.K + 4 ≤ n → view s = r.holdStep
  step : n ≤ s.cfg.K + 2 → v0.lowStep = v0 ∧ v0.riseStep d = r

theorem High.tick {n : Nat} {d : Bit} {v0 r : View} {s : State} (h : High n d v0 r s) (hc : Calm s.inputs)
    (hl : sclLine s = true) (hd : sdaLine s = d) : High (n + 1) d v0 r (busTick s) := by
  obtain ⟨g, hg, hgd⟩ := h.sda
  obtain ⟨hq', hp', hq⟩ := index_tick hc h.samp
  have hs := h.samp
  have hscl : s.regs.scl = decide (2 + s.regs.sampCount < n) := h.scl.sample
  have hprev : s.regs.sclPrev = decide (prevIndex s.cfg.K s.regs.sampCount < n) := h.scl.prev
  refine ⟨sampCount_busTick_lt hc h.samp, ?_, ⟨push (sdaLine s) g, sdaTracks_busTick hc h.samp hg, ?_⟩, ?_, ?_, ?_, ?_⟩
  · have := sclTracks_busTick hc h.samp h.scl
    rw [hl] at this
    refine tracks_congr (sampCount_busTick_lt hc h.samp) this fun i _ => ?_
    cases i <;> simp [push]
  · intro i hi
    rw [busTick_cfg] at hi
    cases i with
    | zero => exact hd
    | succ i => exact hgd i (by omega)
  · intro hle
    rw [hq'] at hle
    rw [view_busTick_low hc (by rw [hscl]; simp; omega), h.before (by omega)]
    exact (h.step (by omega)).1
  · intro hlt
    rw [hq'] at hlt
    have h1 : s.regs.scl = true := by rw [hscl]; simp; omega
    have hsda : s.regs.sda = d := hg.sample.trans (hgd _ (by omega))
    have hsp : s.regs.sdaPrev = d := hg.prev.trans (hgd _ (by omega))
    by_cases hqn : prevIndex s.cfg.K s.regs.sampCount < n
    · rw [view_busTick_hold hc h1 (by rw [hprev]; simpa using hqn) hsda hsp]
      rcases h.after hqn with hv | hv <;> rw [hv]
      · exact .inr rfl
      · exact .inr (View.hold_hold r)
    · rw [view_busTick_rise hc h1 (by rw [hprev]; simpa using hqn) hsda hsp, h.before (by omega)]
      exact .inl (h.step (by omega)).2
  · intro hle
    rw [busTick_cfg] at hle
    have h1 : s.regs.scl = true := by rw [hscl]; simp; omega
    rw [view_busTick_hold hc h1 (by rw [hprev]; simp; omega) (hg.sample.trans (hgd _ (by omega)))
      (hg.prev.trans (hgd _ (by omega)))]
    rcases h.after (by omega) with hv | hv <;> rw [hv]
    exact View.hold_hold r
  · intro hle
    rw [busTick_cfg] at hle
    exact h.step (by omega)

theorem High.oe {n : Nat} {d : Bit} {v0 r : View} {s : State} (h : High n d v0 r s) : (view s).oe = r.oe := by
  by_cases hq : prevIndex s.cfg.K s.regs.sampCount < n
  · rcases h.after hq with hv | hv <;> rw [hv]
    exact View.oe_hold r
  · have hp := index_le (K := s.cfg.K) h.samp
    obtain ⟨-, hr⟩ := h.step (by omega)
    rw [h.before (by omega), ← hr, View.oe_rise]

/-- The core holds SCL only where it stretches and has not yet seen SCL high (43 R148). -/
theorem High.sclLine {n : Nat} {d : Bit} {v0 r : View} {s : State} (h : High n d v0 r s) (hc : Calm s.inputs)
    (hm : s.master.scl = true) (hb : stretches v0.st = false ∨ s.inputs.storeBusy = false ∨ s.cfg.K + 3 ≤ n) :
    sclLine s = true := by
  rw [sclLine_calm hc, hm]
  have hscl : s.regs.scl = decide (2 + s.regs.sampCount < n) := h.scl.sample
  have hs := h.samp
  by_cases hp : 2 + s.regs.sampCount < n
  · simp [hscl, hp]
  · rcases hb with hb | hb | hb
    · obtain ⟨-, -, hq⟩ := index_tick hc h.samp
      rw [h.before (by omega), hb]
      simp
    · simp [hb]
    · omega

/-! ### Phases: the inputs of their ticks -/

/-- Ticks leave everything but the core as it was, and use up the inputs that were to come. -/
structure Elapsed (k : Nat) (s t : State) : Prop where
  cfg : t.cfg = s.cfg
  queue : t.queue = s.queue
  pace : t.pace = s.pace
  ahead : t.ahead = s.ahead.drop k

theorem Elapsed.refl (s : State) : Elapsed 0 s s := ⟨rfl, rfl, rfl, rfl⟩

theorem Elapsed.trans {k l : Nat} {s t u : State} (h : Elapsed k s t) (h' : Elapsed l t u) : Elapsed (k + l) s u :=
  ⟨h'.cfg.trans h.cfg, h'.queue.trans h.queue, h'.pace.trans h.pace, by rw [h'.ahead, h.ahead, List.drop_drop]⟩

theorem busTick_elapsed (s : State) : Elapsed 1 s (busTick s) := ⟨by simp, by simp, by simp, by simp⟩

theorem busTicks_elapsed (n : Nat) (s : State) : Elapsed n s (busTicks n s) ∧ (busTicks n s).master = s.master := by
  induction n generalizing s with
  | zero => exact ⟨.refl s, rfl⟩
  | succ n ih =>
    have h := ih (busTick s)
    refine ⟨?_, h.2.trans (by simp)⟩
    have ht := (busTick_elapsed s).trans h.1
    rw [Nat.add_comm] at ht
    exact ht

/-- The next inputs are these. -/
abbrev Feeds (inps : List Inputs) (s : State) : Prop := inps <+: coming s

theorem Feeds.head {inp : Inputs} {inps : List Inputs} {s : State} (h : Feeds (inp :: inps) s) : s.inputs = inp :=
  (List.cons_prefix_cons.1 h).1.symm

theorem Feeds.tail {inp : Inputs} {inps : List Inputs} {s : State} (h : Feeds (inp :: inps) s) : Feeds inps (busTick s) := by
  have ha : inps <+: s.ahead := (List.cons_prefix_cons.1 h).2
  have key : ∀ u : State, u.ahead = s.ahead → inps <+: coming (advance u) := by
    intro u hu
    cases hs : s.ahead with
    | nil =>
      rw [hs, List.prefix_nil] at ha
      rw [ha]
      exact List.nil_prefix
    | cons i rest =>
      rw [hs] at ha hu
      unfold advance
      rw [hu]
      exact ha
  unfold busTick
  split
  exacts [key _ rfl, key _ rfl]

theorem Feeds.ticks {a b : List Inputs} {s : State} (h : Feeds (a ++ b) s) : Feeds b (busTicks a.length s) := by
  induction a generalizing s with
  | nil => exact h
  | cons inp a ih => exact ih h.tail

/-- The inputs of the first `k` ticks, and the others. -/
theorem split_inputs {a : List Inputs} {k l : Nat} (h : a.length = k + l) :
    ∃ a1 a2, a = a1 ++ a2 ∧ a1.length = k ∧ a2.length = l :=
  ⟨a.take k, a.drop k, (List.take_append_drop _ _).symm, by rw [List.length_take]; omega, by rw [List.length_drop]; omega⟩

theorem slotTicks_pace {s t : State} (h : t.pace = s.pace) : slotTicks t = slotTicks s := by simp only [slotTicks, h]

/-- SCL high for a phase. -/
theorem High.ticks {n : Nat} {d : Bit} {v0 r : View} {s : State} {inps : List Inputs} (h : High n d v0 r s)
    (hf : Feeds inps s) (hc : ∀ inp ∈ inps, Calm inp) (hm : s.master.scl = true) (hd : (s.master.sda && !r.oe) = d)
    (hb : stretches v0.st = false ∨ (∀ inp ∈ inps, inp.storeBusy = false) ∨ s.cfg.K + 3 ≤ n) :
    High (n + inps.length) d v0 r (busTicks inps.length s) := by
  induction inps generalizing n s with
  | nil => exact h
  | cons inp inps ih =>
    have hci : Calm s.inputs := hf.head ▸ hc inp (by simp)
    have h1 : High (n + 1) d v0 r (busTick s) := by
      refine h.tick hci (h.sclLine hci hm ?_) ?_
      · rcases hb with hb | hb | hb
        exacts [.inl hb, .inr (.inl (hf.head ▸ hb inp (by simp))), .inr (.inr hb)]
      · rw [sdaLine_calm hci, h.oe, hd]
    have := ih h1 hf.tail (fun i hi => hc i (by simp [hi])) (by simpa using hm) (by simpa using hd) (by
      rcases hb with hb | hb | hb
      exacts [.inl hb, .inr (.inl fun i hi => hb i (by simp [hi])), .inr (.inr (by rw [busTick_cfg]; omega))])
    rwa [show n + (inp :: inps).length = n + 1 + inps.length by simp; omega]

/-! ### SCL high with SDA moved -/

/-- SDA has been at `b` for `n` ticks, with SCL high, after `h` ticks of SCL high with SDA at `!b`. -/
structure Edge (h : Nat) (b : Bit) (v0 r : View) (n : Nat) (s : State) : Prop where
  samp : s.regs.sampCount < s.cfg.K
  long : s.cfg.K ≤ h
  scl : SclTracks s (fun i => decide (i < n + h))
  sda : ∃ g, SdaTracks s g ∧ (∀ i, i < n → g i = b) ∧ ∀ i, n ≤ i → i < n + h + s.cfg.K → g i = !b
  before : n + h ≤ prevIndex s.cfg.K s.regs.sampCount → view s = v0
  during : n ≤ prevIndex s.cfg.K s.regs.sampCount → prevIndex s.cfg.K s.regs.sampCount < n + h →
    view s = r ∨ view s = r.holdStep
  after : prevIndex s.cfg.K s.regs.sampCount < n → view s = r.edgeStep b
  step : n + h ≤ s.cfg.K + 2 → v0.lowStep = v0 ∧ v0.riseStep (!b) = r

/-- SDA moves after SCL has been high for long enough. -/
theorem High.edge {n : Nat} {b : Bit} {v0 r : View} {s : State} (h : High n (!b) v0 r s) (hn : s.cfg.K ≤ n) :
    Edge n b v0 r 0 s := by
  obtain ⟨g, hg, hgd⟩ := h.sda
  exact ⟨h.samp, hn, by simpa using h.scl, ⟨g, hg, fun i hi => absurd hi (by omega), fun i _ hi => hgd i (by omega)⟩,
    fun hq => h.before (by omega), fun _ hq => h.after (by omega), fun hq => absurd hq (by omega),
    fun hk => h.step (by omega)⟩

theorem Edge.tick {h n : Nat} {b : Bit} {v0 r : View} {s : State} (e : Edge h b v0 r n s) (hc : Calm s.inputs)
    (hl : sclLine s = true) (hd : sdaLine s = b) : Edge h b v0 r (n + 1) (busTick s) := by
  obtain ⟨g, hg, hgb, hgd⟩ := e.sda
  obtain ⟨hq', hp', hq⟩ := index_tick hc e.samp
  have hs := e.samp
  have hlong := e.long
  have hscl : s.regs.scl = decide (2 + s.regs.sampCount < n + h) := e.scl.sample
  have hprev : s.regs.sclPrev = decide (prevIndex s.cfg.K s.regs.sampCount < n + h) := e.scl.prev
  refine ⟨sampCount_busTick_lt hc e.samp, by simpa using hlong, ?_,
    ⟨push (sdaLine s) g, sdaTracks_busTick hc e.samp hg, ?_, ?_⟩, ?_, ?_, ?_, ?_⟩
  · have := sclTracks_busTick hc e.samp e.scl
    rw [hl] at this
    refine tracks_congr (sampCount_busTick_lt hc e.samp) this fun i _ => ?_
    cases i with
    | zero => simp [push]
    | succ i => exact decide_eq_decide.2 (by omega)
  · intro i hi
    cases i with
    | zero => exact hd
    | succ i => exact hgb i (by omega)
  · intro i hi hi'
    rw [busTick_cfg] at hi'
    cases i with
    | zero => omega
    | succ i => exact hgd i (by omega) (by omega)
  · intro hle
    rw [hq'] at hle
    rw [view_busTick_low hc (by rw [hscl]; simp; omega), e.before (by omega)]
    exact (e.step (by omega)).1
  · intro hle hlt
    rw [hq'] at hle hlt
    have h1 : s.regs.scl = true := by rw [hscl]; simp; omega
    have hsda := hg.sample.trans (hgd _ (by omega) (by omega))
    have hsp := hg.prev.trans (hgd _ (by omega) (by omega))
    by_cases hqn : prevIndex s.cfg.K s.regs.sampCount < n + h
    · rw [view_busTick_hold hc h1 (by rw [hprev]; simpa using hqn) hsda hsp]
      rcases e.during (by omega) hqn with hv | hv <;> rw [hv]
      · exact .inr rfl
      · exact .inr (View.hold_hold r)
    · rw [view_busTick_rise hc h1 (by rw [hprev]; simpa using hqn) hsda hsp, e.before (by omega)]
      exact .inl (e.step (by omega)).2
  · intro hlt
    rw [hq'] at hlt
    have h1 : s.regs.scl = true := by rw [hscl]; simp; omega
    have h2 : s.regs.sclPrev = true := by rw [hprev]; simp; omega
    have hsda := hg.sample.trans (hgb _ (by omega))
    by_cases hqn : prevIndex s.cfg.K s.regs.sampCount < n
    · rw [view_busTick_hold hc h1 h2 hsda (hg.prev.trans (hgb _ hqn)), e.after hqn, View.hold_edge]
    · rw [view_busTick_edge hc h1 h2 hsda (hg.prev.trans (hgd _ (by omega) (by omega)))]
      rcases e.during (by omega) (by omega) with hv | hv <;> rw [hv]
      exact View.edge_hold b r
  · intro hle
    rw [busTick_cfg] at hle
    exact e.step (by omega)

theorem Edge.oe {h n : Nat} {b : Bit} {v0 r : View} {s : State} (e : Edge h b v0 r n s) (hr : r.oe = false) :
    (view s).oe = false := by
  by_cases hq : prevIndex s.cfg.K s.regs.sampCount < n
  · rw [e.after hq, View.oe_edge]
  · by_cases hq' : prevIndex s.cfg.K s.regs.sampCount < n + h
    · rcases e.during (by omega) hq' with hv | hv <;> rw [hv]
      exacts [hr, (View.oe_hold r).trans hr]
    · obtain ⟨-, hv⟩ := e.step (by have := index_le e.samp; omega)
      rw [e.before (by omega), ← hr, ← hv, View.oe_rise]

theorem Edge.sclLine {h n : Nat} {b : Bit} {v0 r : View} {s : State} (e : Edge h b v0 r n s) (hc : Calm s.inputs)
    (hm : s.master.scl = true) (hb : stretches v0.st = false ∨ s.cfg.K + 3 ≤ h) : sclLine s = true := by
  rw [sclLine_calm hc, hm]
  have hscl : s.regs.scl = decide (2 + s.regs.sampCount < n + h) := e.scl.sample
  have hs := e.samp
  by_cases hp : 2 + s.regs.sampCount < n + h
  · simp [hscl, hp]
  · rcases hb with hb | hb
    · obtain ⟨-, -, hq⟩ := index_tick hc e.samp
      rw [e.before (by omega), hb]
      simp
    · omega

theorem Edge.ticks {h n : Nat} {b : Bit} {v0 r : View} {s : State} {inps : List Inputs} (e : Edge h b v0 r n s)
    (hf : Feeds inps s) (hc : ∀ inp ∈ inps, Calm inp) (hm : s.master = ⟨true, b⟩) (hr : r.oe = false)
    (hb : stretches v0.st = false ∨ s.cfg.K + 3 ≤ h) : Edge h b v0 r (n + inps.length) (busTicks inps.length s) := by
  induction inps generalizing n s with
  | nil => exact e
  | cons inp inps ih =>
    have hci : Calm s.inputs := hf.head ▸ hc inp (by simp)
    have h1 : Edge h b v0 r (n + 1) (busTick s) :=
      e.tick hci (e.sclLine hci (by rw [hm]) hb) (by rw [sdaLine_calm hci, e.oe hr, hm]; simp)
    have := ih h1 hf.tail (fun i hi => hc i (by simp [hi])) (by simpa using hm) (by rw [busTick_cfg]; exact hb)
    rwa [show n + (inp :: inps).length = n + 1 + inps.length by simp; omega]

/-! ### SCL low -/

/-- `n` ticks of SCL low have followed `h` of SCL high; `w` is where the core's reaction ends, and SDA has been at `d'` for `e`
ticks since. -/
structure LowAfter (h : Nat) (d : Bit) (v0 r : View) (n e : Nat) (d' : Bit) (w : View) (s : State) : Prop where
  samp : s.regs.sampCount < s.cfg.K
  long : s.cfg.K ≤ h
  scl : SclTracks s (fun i => decide (n ≤ i ∧ i < n + h))
  sda : ∃ g, SdaTracks s g ∧ (∀ i, n ≤ i → i < n + h + s.cfg.K → g i = d) ∧ ∀ i, i < e → g i = d'
  before : n + h ≤ prevIndex s.cfg.K s.regs.sampCount → view s = v0
  during : n ≤ 2 + s.regs.sampCount → prevIndex s.cfg.K s.regs.sampCount < n + h → view s = r ∨ view s = r.holdStep
  after : 2 + s.regs.sampCount < n →
    (view s).lowStep.lowStep = w ∧ (s.cfg.K + 3 ≤ n → (view s).lowStep = w) ∧ (s.cfg.K + 4 ≤ n → view s = w)
  step : n + h ≤ s.cfg.K + 2 → v0.lowStep = v0 ∧ v0.riseStep d = r
  lands : n ≤ s.cfg.K + 1 → Lands r w
  stays : w.lowStep = w

/-- As `LowAfter`, whatever went before. -/
def Low (n e : Nat) (d' : Bit) (w : View) (s : State) : Prop := ∃ h d v0 r, LowAfter h d v0 r n e d' w s

theorem LowAfter.tick {h n e e' : Nat} {d d' : Bit} {v0 r w : View} {s : State} (l : LowAfter h d v0 r n e d' w s)
    (hc : Calm s.inputs) (hl : sclLine s = false) (he : e' = 0 ∨ e' = e + 1 ∧ sdaLine s = d') :
    LowAfter h d v0 r (n + 1) e' d' w (busTick s) := by
  obtain ⟨g, hg, hgd, hge⟩ := l.sda
  obtain ⟨hq', hp', hq⟩ := index_tick hc l.samp
  have hs := l.samp
  have hlong := l.long
  have hscl : s.regs.scl = decide (n ≤ 2 + s.regs.sampCount ∧ 2 + s.regs.sampCount < n + h) := l.scl.sample
  have hprev : s.regs.sclPrev = decide (n ≤ prevIndex s.cfg.K s.regs.sampCount ∧ prevIndex s.cfg.K s.regs.sampCount < n + h) :=
    l.scl.prev
  have hhigh : n ≤ 2 + s.regs.sampCount → 2 + s.regs.sampCount < n + h → view (busTick s) = r ∨ view (busTick s) = r.holdStep := by
    intro hn hlt
    have h1 : s.regs.scl = true := by rw [hscl]; simp; omega
    have hsda := hg.sample.trans (hgd _ (by omega) (by omega))
    have hsp := hg.prev.trans (hgd _ (by omega) (by omega))
    by_cases hqn : prevIndex s.cfg.K s.regs.sampCount < n + h
    · rw [view_busTick_hold hc h1 (by rw [hprev]; simp; omega) hsda hsp]
      rcases l.during hn hqn with hv | hv <;> rw [hv]
      · exact .inr rfl
      · exact .inr (View.hold_hold r)
    · rw [view_busTick_rise hc h1 (by rw [hprev]; simp; omega) hsda hsp, l.before (by omega)]
      exact .inl (l.step (by omega)).2
  refine ⟨sampCount_busTick_lt hc l.samp, by simpa using hlong, ?_,
    ⟨push (sdaLine s) g, sdaTracks_busTick hc l.samp hg, ?_, ?_⟩, ?_, ?_, ?_, ?_, ?_, l.stays⟩
  · have := sclTracks_busTick hc l.samp l.scl
    rw [hl] at this
    refine tracks_congr (sampCount_busTick_lt hc l.samp) this fun i _ => ?_
    cases i with
    | zero => simp [push]
    | succ i => exact decide_eq_decide.2 (by omega)
  · intro i hi hi'
    rw [busTick_cfg] at hi'
    cases i with
    | zero => omega
    | succ i => exact hgd i (by omega) (by omega)
  · intro i hi
    cases i with
    | zero =>
      rcases he with he | he
      · omega
      · exact he.2
    | succ i => exact hge i (by omega)
  · intro hle
    rw [hq'] at hle
    rw [view_busTick_low hc (by rw [hscl]; simp; omega), l.before (by omega)]
    exact (l.step (by omega)).1
  · intro hle hlt
    rw [hq'] at hlt
    exact hhigh (by omega) (by omega)
  · intro hlt
    rw [busTick_cfg]
    by_cases hpn : 2 + s.regs.sampCount < n
    · obtain ⟨h1, h2, h3⟩ := l.after hpn
      rw [view_busTick_low hc (by rw [hscl]; simp; omega)]
      refine ⟨?_, fun hk => ?_, fun hk => ?_⟩
      · rw [h1]; exact l.stays
      · exact h1
      · exact h2 (by omega)
    · have hl' := l.lands (by omega)
      refine ⟨?_, fun hk => absurd hk (by omega), fun hk => absurd hk (by omega)⟩
      rcases hhigh (by omega) (by omega) with hv | hv <;> rw [hv]
      exacts [hl'.low, hl'.hold]
  · intro hle
    rw [busTick_cfg] at hle
    exact l.step (by omega)
  · intro hle
    rw [busTick_cfg] at hle
    exact l.lands (by omega)

theorem LowAfter.settled {h n e : Nat} {d d' : Bit} {v0 r w : View} {s : State} (l : LowAfter h d v0 r n e d' w s)
    (hn : s.cfg.K + 4 ≤ n) : view s = w ∧ s.regs.scl = false := by
  have hs := l.samp
  exact ⟨(l.after (by omega)).2.2 hn, l.scl.sample.trans (decide_eq_false (by omega))⟩

/-- SCL begins to be low after it has been high for long enough. -/
theorem High.low {n : Nat} {d : Bit} {v0 r w : View} {s : State} (h : High n d v0 r s) (hn : s.cfg.K ≤ n) (hw : Lands r w)
    (d' : Bit) : Low 0 0 d' w s := by
  obtain ⟨g, hg, hgd⟩ := h.sda
  exact ⟨n, d, v0, r, h.samp, hn, by simpa using h.scl,
    ⟨g, hg, fun i _ hi => hgd i (by omega), fun i hi => absurd hi (by omega)⟩, fun hq => h.before (by omega),
    fun _ hq => h.after (by omega), fun hq => absurd hq (by omega), fun hk => h.step (by omega), fun _ => hw, hw.stays⟩

/-- With SDA settled for long enough, SCL may rise. -/
theorem Low.high {n e : Nat} {d' : Bit} {w : View} {s : State} (l : Low n e d' w s) (hn : s.cfg.K + 4 ≤ n) (he : s.cfg.K ≤ e) :
    High 0 d' w (w.riseStep d') s := by
  obtain ⟨h, d, v0, r, l⟩ := l
  obtain ⟨g, hg, -, hge⟩ := l.sda
  exact ⟨l.samp, tracks_congr l.samp l.scl fun i hi => by simp; omega, ⟨g, hg, fun i hi => hge i (by omega)⟩,
    fun _ => (l.settled hn).1, fun hq => absurd hq (by omega), fun hk => absurd hk (by omega), fun _ => ⟨l.stays, rfl⟩⟩

/-- The first tick of SCL low, with SCL seen low for long before. -/
theorem Low.ofQuiet {w : View} {s : State} (hs : s.regs.sampCount < s.cfg.K) (hq : SclTracks s (fun _ => false))
    (hw : (view s).lowStep = w) (hww : w.lowStep = w) (hc : Calm s.inputs) (hl : sclLine s = false) (d' : Bit) :
    Low (s.cfg.K + 3) 0 d' w (busTick s) := by
  have hlt := sampCount_busTick_lt hc hs
  obtain ⟨hq', hp', -⟩ := index_tick hc hs
  have hscl : s.regs.scl = false := hq.sample
  have hsda : ∃ g, SdaTracks (busTick s) g ∧ g (s.cfg.K + 3) = g (s.cfg.K + 3) := by
    refine ⟨fun i => if i = 0 then (busTick s).regs.sdaFf1 else if i = 1 then (busTick s).regs.sdaFf2
      else if i = 2 + (busTick s).regs.sampCount then (busTick s).regs.sda else (busTick s).regs.sdaPrev, ⟨?_, ?_, ?_, ?_⟩, rfl⟩
    · simp
    · simp
    · simp; intro h; omega
    · rw [hq']
      have hprev : (busTick s).regs.sdaPrev = s.regs.sda := by rw [busTick_calm hc, advance_regs]; rfl
      have hne : ¬ 2 + s.regs.sampCount + 1 = 0 ∧ ¬ 2 + s.regs.sampCount + 1 = 1 := by omega
      rw [if_neg hne.1, if_neg hne.2]
      split
      · rename_i heq
        have hcap : captures s = false := by
          rw [captures, beq_eq_false_iff_ne]
          intro hcap
          have := sampCount_busTick hc
          rw [if_pos (by simpa using hcap)] at this
          omega
        rw [hprev, busTick_calm hc, advance_regs]
        show _ = nextSda (wired s)
        unfold nextSda
        rw [show captures (wired s) = captures s from rfl, hcap]
        rfl
      · rfl
  obtain ⟨g, hg, -⟩ := hsda
  have hK : (busTick s).cfg.K = s.cfg.K := by rw [busTick_cfg]
  have hidx := index_le hlt
  -- past the indices that the registers hold, the history is free
  let g' : Nat → Bit := fun i => if i ≤ s.cfg.K + 2 then g i else d'
  refine ⟨s.cfg.K, d', w, w, hlt, by rw [hK], ?_, ⟨g', tracks_congr hlt hg fun i hi => ?_, fun i hi _ => ?_, fun i hi => absurd hi (by omega)⟩,
    ?_, fun hle => absurd hle (by omega), fun _ => ?_, ?_, fun hle => absurd hle (by omega), hww⟩
  · have := sclTracks_busTick hc hs hq
    rw [hl] at this
    refine tracks_congr hlt this fun i hi => ?_
    have : decide (s.cfg.K + 3 ≤ i ∧ i < s.cfg.K + 3 + s.cfg.K) = false := decide_eq_false (by omega)
    rw [this]
    cases i <;> rfl
  · exact (if_pos (by omega)).symm
  · exact if_neg (by omega)
  · intro hle; omega
  · rw [view_busTick_low hc hscl, hw]
    exact ⟨by rw [hww, hww], fun _ => hww, fun _ => rfl⟩
  · intro hle; have := s.cfg.K_pos; omega

/-- SCL falls, or has been low: `w` is where the core's reaction ends. -/
def Falls (w : View) (s : State) : Prop :=
  (∀ d', Low 0 0 d' w s) ∨
  (s.regs.sampCount < s.cfg.K ∧ SclTracks s (fun _ => false) ∧ (view s).lowStep = w ∧ w.lowStep = w)

theorem sclLine_low {s : State} (h : s.master.scl = false) : sclLine s = false := by simp [sclLine, h]

theorem Low.ticks {n : Nat} {d' : Bit} {w : View} {s : State} {inps : List Inputs} (l : Low n 0 d' w s)
    (hf : Feeds inps s) (hc : ∀ inp ∈ inps, Calm inp) (hm : s.master.scl = false) :
    Low (n + inps.length) 0 d' w (busTicks inps.length s) := by
  induction inps generalizing n s with
  | nil => exact l
  | cons inp inps ih =>
    have hci : Calm s.inputs := hf.head ▸ hc inp (by simp)
    obtain ⟨h, d, v0, r, l⟩ := l
    have := ih (n := n + 1) ⟨h, d, v0, r, l.tick hci (sclLine_low hm) (.inl rfl)⟩ hf.tail (fun i hi => hc i (by simp [hi]))
      (by simpa using hm)
    rwa [show n + (inp :: inps).length = n + 1 + inps.length by simp; omega]

/-- SCL low for a phase, from its fall on. -/
theorem Falls.ticks {w : View} {s : State} {inps : List Inputs} (l : Falls w s) (hf : Feeds inps s)
    (hc : ∀ inp ∈ inps, Calm inp) (hm : s.master.scl = false) (hi : 0 < inps.length) (d' : Bit) :
    ∃ n, inps.length ≤ n ∧ Low n 0 d' w (busTicks inps.length s) := by
  rcases l with l | ⟨hs, hq, hw, hww⟩
  · exact ⟨0 + inps.length, by omega, (l d').ticks hf hc hm⟩
  · cases inps with
    | nil => cases hi
    | cons inp inps =>
      have hci : Calm s.inputs := hf.head ▸ hc inp (by simp)
      have := (Low.ofQuiet hs hq hw hww hci (sclLine_low hm) d').ticks hf.tail (fun i hi => hc i (by simp [hi])) (by simpa using hm)
      exact ⟨_, by simp, this⟩

/-- SCL low for a phase in which the master leaves SDA alone: once the core's reaction is over, SDA is still. -/
theorem Low.still {n e : Nat} {d' : Bit} {w : View} {s : State} {inps : List Inputs} (l : Low n e d' w s)
    (hf : Feeds inps s) (hc : ∀ inp ∈ inps, Calm inp) (hm : s.master.scl = false) (hd : (s.master.sda && !w.oe) = d') :
    Low (n + inps.length) (if s.cfg.K + 4 ≤ n then e + inps.length else inps.length - (s.cfg.K + 4 - n)) d' w
      (busTicks inps.length s) := by
  induction inps generalizing n e s with
  | nil =>
    by_cases hn : s.cfg.K + 4 ≤ n
    · simpa [hn, busTicks] using l
    · obtain ⟨h, d, v0, r, l⟩ := l
      obtain ⟨g, hg, hgd, -⟩ := l.sda
      rw [if_neg hn, List.length_nil, Nat.zero_sub]
      exact ⟨h, d, v0, r, l.samp, l.long, l.scl, ⟨g, hg, hgd, fun i hi => absurd hi (by omega)⟩, l.before, l.during, l.after,
        l.step, l.lands, l.stays⟩
  | cons inp inps ih =>
    have hci : Calm s.inputs := hf.head ▸ hc inp (by simp)
    have hK : (busTick s).cfg.K = s.cfg.K := by rw [busTick_cfg]
    have hlen : n + (inp :: inps).length = n + 1 + inps.length := by simp; omega
    obtain ⟨h, d, v0, r, l⟩ := l
    by_cases hn : s.cfg.K + 4 ≤ n
    · have h1 := l.tick (e' := e + 1) hci (sclLine_low hm) (.inr ⟨rfl, by rw [sdaLine_calm hci, (l.settled hn).1, hd]⟩)
      have := ih (n := n + 1) ⟨h, d, v0, r, h1⟩ hf.tail (fun i hi => hc i (by simp [hi])) (by simpa using hm) (by simpa using hd)
      rw [hK, if_pos (by omega)] at this
      rw [if_pos hn, hlen, show e + (inp :: inps).length = e + 1 + inps.length by simp; omega]
      exact this
    · have h1 := l.tick (e' := 0) hci (sclLine_low hm) (.inl rfl)
      have := ih (n := n + 1) ⟨h, d, v0, r, h1⟩ hf.tail (fun i hi => hc i (by simp [hi])) (by simpa using hm) (by simpa using hd)
      rw [hK] at this
      rw [if_neg hn, hlen]
      by_cases hn' : s.cfg.K + 4 ≤ n + 1
      · rw [if_pos hn'] at this
        rwa [show (inp :: inps).length - (s.cfg.K + 4 - n) = 0 + inps.length by simp; omega]
      · rw [if_neg hn'] at this
        rwa [show (inp :: inps).length - (s.cfg.K + 4 - n) = inps.length - (s.cfg.K + 4 - (n + 1)) by simp; omega]

/-! ### What the master does between ticks -/

/-- The bit of a slot as the master records it. -/
def View.record (b : Bit) (v : View) : View := { v with wire := BitVec.concat (v.wire.extractLsb' 0 8) b }

theorem View.lowStep_record (b : Bit) (v : View) : (v.record b).lowStep = v.lowStep.record b := by
  obtain ⟨cfg, st, bc, value, off, ir, dd, db, mem, w⟩ := v
  by_cases h8 : bc = 8 <;> by_cases ha : value.extractLsb' 1 7 = cfg.addr <;> cases st <;>
    simp only [View.record, View.lowStep, h8, ha, reduceIte] <;> rfl

theorem LowAfter.driven {h n e : Nat} {d d' c b : Bit} {v0 r w : View} {s : State} (l : LowAfter h d v0 r n e d' w s) :
    LowAfter h d v0 r n e d' w (drive c b s) :=
  ⟨l.samp, l.long, l.scl, l.sda, l.before, l.during, l.after, l.step, l.lands, l.stays⟩

theorem Low.driven {n e : Nat} {d' c b : Bit} {w : View} {s : State} (l : Low n e d' w s) : Low n e d' w (drive c b s) :=
  let ⟨h, d, v0, r, l⟩ := l
  ⟨h, d, v0, r, l.driven⟩

theorem Falls.driven {c b : Bit} {w : View} {s : State} (l : Falls w s) : Falls w (drive c b s) :=
  l.imp (fun l d' => (l d').driven) id

theorem High.driven {n : Nat} {d c b : Bit} {v0 r : View} {s : State} (h : High n d v0 r s) : High n d v0 r (drive c b s) :=
  ⟨h.samp, h.scl, h.sda, h.before, h.after, h.settled, h.step⟩

theorem Edge.driven {h n : Nat} {b c d : Bit} {v0 r : View} {s : State} (e : Edge h b v0 r n s) :
    Edge h b v0 r n (drive c d s) :=
  ⟨e.samp, e.long, e.scl, e.sda, e.before, e.during, e.after, e.step⟩

/-- SCL low, the core's reaction over, SDA still for long enough: the master may release SCL. -/
def Poised (d' : Bit) (w : View) (s : State) : Prop := ∃ n e, s.cfg.K + 4 ≤ n ∧ s.cfg.K ≤ e ∧ Low n e d' w s

theorem Poised.settled {d' : Bit} {w : View} {s : State} (h : Poised d' w s) : view s = w ∧ s.regs.scl = false :=
  let ⟨_, _, hn, _, _, _, _, _, l⟩ := h
  l.settled hn

/-- A tick in which SCL is still held low, by the core or by the master. -/
theorem Poised.tick {d' : Bit} {w : View} {s : State} (h : Poised d' w s) (hc : Calm s.inputs) (hl : sclLine s = false)
    (hd : (s.master.sda && !w.oe) = d') : Poised d' w (busTick s) := by
  have hv := h.settled.1
  obtain ⟨n, e, hn, he, h', d, v0, r, l⟩ := h
  exact ⟨n + 1, e + 1, by rw [busTick_cfg]; omega, by rw [busTick_cfg]; omega, h', d, v0, r,
    l.tick hc hl (.inr ⟨rfl, by rw [sdaLine_calm hc, hv, hd]⟩)⟩

/-- SCL may rise: the slot's level of SDA has been there for long enough, and the master notes it if it samples. -/
theorem Poised.high {d' : Bit} {w : View} {s : State} (h : Poised d' w s) : High 0 d' w (w.riseStep d') s :=
  let ⟨_, _, hn, he, l⟩ := h
  l.high hn he

theorem High.recorded {d b : Bit} {w : View} {s : State} (h : High 0 d w (w.riseStep d) s) (hw : w.lowStep = w) :
    High 0 d (w.record b) ((w.record b).riseStep d) (recordBit b s) :=
  ⟨h.samp, h.scl, h.sda, fun hq => congrArg (View.record b) (h.before hq), fun hq => absurd hq (by omega),
    fun hk => absurd hk (by simp only [recordBit_cfg] at hk; omega), fun _ => ⟨by rw [View.lowStep_record, hw], rfl⟩⟩

/-! ### Bus operations, phase by phase -/

theorem play_low {p : Bit} {n : Nat} {smp : Bit} {rest : List Phase} {s : State} :
    play ({ scl := false, sda := p, ticks := n, samples := smp } :: rest) s =
      play rest (perform { scl := false, sda := p, ticks := n, samples := smp } s) := rfl

theorem perform_elapsed (ph : Phase) (s : State) :
    Elapsed ph.ticks s (perform ph s) ∧ (perform ph s).master = ⟨ph.scl, ph.sda⟩ := by
  have h := busTicks_elapsed ph.ticks (noted ph (drive ph.scl ph.sda s))
  have hn : ∀ u : State, (noted ph u).cfg = u.cfg ∧ (noted ph u).queue = u.queue ∧ (noted ph u).pace = u.pace ∧
      (noted ph u).ahead = u.ahead ∧ (noted ph u).master = u.master := fun u => by
    unfold noted; split <;> exact ⟨rfl, rfl, rfl, rfl, rfl⟩
  obtain ⟨h1, h2, h3, h4, h5⟩ := hn (drive ph.scl ph.sda s)
  exact ⟨⟨h.1.cfg.trans h1, h.1.queue.trans h2, h.1.pace.trans h3, by rw [perform, h.1.ahead, h4]; rfl⟩, h.2.trans h5⟩

theorem perform_feeds {ph : Phase} {a b : List Inputs} {s : State} (h : Feeds (a ++ b) s) (ha : a.length = ph.ticks) :
    Feeds b (perform ph s) := by
  unfold perform
  rw [← ha]
  refine Feeds.ticks (a := a) ?_
  unfold noted
  split <;> exact h

/-- The SCL low phases of a slot bring the core to rest and SDA to the slot's level. -/
theorem lowPhases_run {w : View} {s : State} {p d : Bit} {a b : List Inputs} {rest : List Phase} (hw : Falls w s)
    (hp : Paced s) (hf : Feeds (a ++ b) s) (hc : ∀ inp ∈ a, Calm inp) (ha : a.length = s.pace.hold + s.pace.setup) :
    ∃ u, play (lowPhases s.pace p d ++ rest) s = play rest u ∧ Poised (d && !w.oe) w u ∧
      Elapsed (s.pace.hold + s.pace.setup) s u ∧ u.master = ⟨false, d⟩ ∧ Feeds b u := by
  obtain ⟨h1, h2, h3, -, -⟩ := hp
  have hK := s.cfg.K_pos
  obtain ⟨a1, a2, rfl, ha1, ha2⟩ := split_inputs ha
  rw [List.append_assoc] at hf
  let ph1 : Phase := { scl := false, sda := p, ticks := s.pace.hold, samples := false }
  let ph2 : Phase := { scl := false, sda := d, ticks := s.pace.setup, samples := false }
  have hd : Feeds (a1 ++ (a2 ++ b)) (drive false p s) := hf
  obtain ⟨n, hn, l⟩ := (hw.driven (c := false) (b := p)).ticks ((List.prefix_append _ _).trans hd)
    (fun i hi => hc i (by simp [hi])) rfl (by omega) (d && !w.oe)
  rw [ha1] at l hn
  have hf1 : Feeds (a2 ++ b) (perform ph1 s) := perform_feeds hf ha1
  have l2 := (l.driven (c := false) (b := d)).still (inps := a2) ((List.prefix_append _ _).trans hf1)
    (fun i hi => hc i (by simp [hi])) rfl rfl
  rw [ha2] at l2
  have e1 := perform_elapsed ph1 s
  have e2 := perform_elapsed ph2 (perform ph1 s)
  refine ⟨perform ph2 (perform ph1 s), rfl, ?_, e1.1.trans e2.1, e2.2, perform_feeds hf1 ha2⟩
  have hcfg : (perform ph2 (perform ph1 s)).cfg = s.cfg := e2.1.cfg.trans e1.1.cfg
  refine ⟨_, _, ?_, ?_, l2⟩
  · rw [hcfg]; omega
  · have hcfg1 : (drive false d (busTicks s.pace.hold (drive false p s))).cfg = s.cfg := e1.1.cfg
    rw [hcfg, hcfg1]
    split <;> omega

/-- When the master may release SCL, it waits exactly if the core stretches. -/
theorem Poised.waits {d d' : Bit} {w : View} {s : State} (h : Poised d' w s) (hc : Calm s.inputs) :
    waits (drive true d s) = (s.inputs.storeBusy && stretches w.st) := by
  obtain ⟨hv, hs⟩ := h.settled
  have hc' : Calm (drive true d s).inputs := hc
  rw [Machine.waits, sclLine_calm hc']
  simp only [drive_master, drive_inputs, drive_regs, hs]
  rw [show view (drive true d s) = w from hv]
  cases s.inputs.storeBusy <;> cases stretches w.st <;> rfl

/-- The SCL high phase of a slot, not stretched. -/
theorem release_run {w : View} {s : State} {d d' smp : Bit} {n : Nat} {a b : List Inputs} {rest : List Phase}
    (h : Poised d' w s) (hd : (d && !w.oe) = d') (hn : 0 < n) (hf : Feeds (a ++ b) s) (hc : ∀ inp ∈ a, Calm inp)
    (ha : a.length = n) (hb : stretches w.st = false ∨ ∀ inp ∈ a, inp.storeBusy = false) :
    ∃ t w', w' = (if smp then w.record d' else w) ∧
      play ({ scl := true, sda := d, ticks := n, samples := smp } :: rest) s = play rest t ∧
      High n d' w' (w'.riseStep d') t ∧ Elapsed n s t ∧ t.master = ⟨true, d⟩ ∧ Feeds b t := by
  let ph : Phase := { scl := true, sda := d, ticks := n, samples := smp }
  have hci : Calm s.inputs := by
    cases a with
    | nil => simp at ha; omega
    | cons i a => exact hf.head ▸ hc i (by simp)
  have hbusy : (s.inputs.storeBusy && stretches w.st) = false := by
    rcases hb with hb | hb
    · simp [hb]
    · cases a with
      | nil => simp at ha; omega
      | cons i a => simp [hf.head, hb i (by simp)]
  have hline : sdaLine (drive true d s) = d' := by
    rw [sdaLine_calm (s := drive true d s) hci, show view (drive true d s) = w from h.settled.1]
    exact hd
  have hstays : w.lowStep = w := let ⟨_, _, _, _, _, _, _, _, l⟩ := h; l.stays
  refine ⟨perform ph s, _, rfl, ?_, ?_, (perform_elapsed ph s).1, (perform_elapsed ph s).2, perform_feeds hf ha⟩
  · rw [play]
    rw [if_neg (by rw [h.waits hci, hbusy]; decide)]
  · have hfa : Feeds a (noted ph (drive true d s)) := by
      have : Feeds a s := (List.prefix_append _ _).trans hf
      unfold noted
      split <;> exact this
    unfold perform
    rw [show ph.ticks = a.length from ha.symm, ← ha]
    have key : ∀ w' : View, High 0 d' w' (w'.riseStep d') (noted ph (drive true d s)) → w'.oe = w.oe → w'.st = w.st →
        High a.length d' w' (w'.riseStep d') (busTicks a.length (noted ph (drive true d s))) := by
      intro w' hw' hoe hst
      have hm : (noted ph (drive true d s)).master = ⟨true, d⟩ := by unfold noted; split <;> rfl
      have := hw'.ticks hfa hc (by rw [hm]) (by rw [hm, View.oe_rise, hoe]; exact hd) (by
        rw [hst]; rcases hb with hb | hb; exacts [.inl hb, .inr (.inl hb)])
      rwa [Nat.zero_add] at this
    cases smp with
    | false => exact key w (h.high.driven) rfl rfl
    | true =>
      refine key (w.record d') ?_ rfl rfl
      have := h.high.driven (c := true) (b := d) |>.recorded (b := d') hstays
      unfold noted
      rw [if_pos rfl, hline]
      exact this

/-- What a bit slot makes of a view, from one SCL low phase to the next (30 R84). -/
def View.slot (d : Bit) (w : View) : View :=
  ((w.record (d && !w.oe)).riseStep (d && !w.oe)).lowStep.lowStep

/-- A bit slot, not stretched. -/
theorem slot_run {w : View} {s : State} {p d : Bit} {a b : List Inputs} {rest : List Phase} (hw : Falls w s) (hp : Paced s)
    (hf : Feeds (a ++ b) s) (hc : ∀ inp ∈ a, Calm inp) (ha : a.length = slotTicks s)
    (hb : stretches w.st = false ∨ ∀ inp ∈ a.drop (s.pace.hold + s.pace.setup), inp.storeBusy = false) :
    ∃ t, play (slotPhases s.pace p d ++ rest) s = play rest t ∧ Falls (w.slot d) t ∧ Elapsed (slotTicks s) s t ∧
      t.master = ⟨true, d⟩ ∧ Feeds b t := by
  have hK := s.cfg.K_pos
  have hp4 := hp.2.2.2.1
  obtain ⟨a1, a2, rfl, ha1, ha2⟩ := split_inputs ha
  rw [List.append_assoc] at hf
  rw [← ha1, List.drop_left] at hb
  obtain ⟨u, hu, hpo, he, hm, hfu⟩ := lowPhases_run (p := p) (d := d)
    (rest := { scl := true, sda := d, ticks := s.pace.high, samples := true } :: rest) hw hp hf (fun i hi => hc i (by simp [hi])) ha1
  obtain ⟨t, w', hw', ht, hh, he', hm', hft⟩ := release_run (smp := true) (rest := rest) (n := s.pace.high) hpo rfl (by omega) hfu
    (fun i hi => hc i (by simp [hi])) ha2 hb
  refine ⟨t, ?_, ?_, he.trans he', hm', hft⟩
  · rw [slotPhases, List.append_assoc]
    exact hu.trans ht
  · rw [if_pos rfl] at hw'
    subst hw'
    exact .inl fun d' => hh.low (by rw [he'.cfg, he.cfg]; omega) (lands_rise _ _) d'

/-- The bit slots of a list, one after the other. -/
def View.slots : List Bit → View → View
  | [], w => w
  | d :: ds, w => View.slots ds (w.slot d)

/-- No slot of the list begins in a state that stretches. -/
def View.unstretched : List Bit → View → Prop
  | [], _ => True
  | d :: ds, w => stretches w.st = false ∧ View.unstretched ds (w.slot d)

/-- Bit slots of a frame in which the core does not stretch. -/
theorem slots_run {ds es : List Bit} {w : View} {s : State} {a b : List Inputs} (hw : Falls w s) (hp : Paced s)
    (hf : Feeds (a ++ b) s) (hc : ∀ inp ∈ a, Calm inp) (ha : a.length = ds.length * slotTicks s) (hs : w.unstretched ds) :
    ∃ t, play (framePhases s.pace s.master.sda (ds ++ es)) s = play (framePhases t.pace t.master.sda es) t ∧
      Falls (w.slots ds) t ∧ Elapsed (ds.length * slotTicks s) s t ∧ Feeds b t := by
  induction ds generalizing w s a with
  | nil =>
    obtain rfl : a = [] := by simpa using ha
    refine ⟨s, rfl, hw, ?_, hf⟩
    rw [List.length_nil, Nat.zero_mul]
    exact .refl s
  | cons d ds ih =>
    rw [List.length_cons, Nat.add_mul, Nat.one_mul, Nat.add_comm] at ha
    obtain ⟨a1, a2, rfl, ha1, ha2⟩ := split_inputs ha
    rw [List.append_assoc] at hf
    obtain ⟨t, ht, hft, he, hm, hfe⟩ := slot_run (p := s.master.sda) (d := d) (rest := framePhases s.pace d (ds ++ es)) hw hp hf
      (fun i hi => hc i (by simp [hi])) ha1 (.inl hs.1)
    obtain ⟨u, hu, hfu, he', hfe'⟩ := ih hft (by rw [Paced, he.cfg, he.pace]; exact hp) hfe (fun i hi => hc i (by simp [hi]))
      (by rw [ha2, slotTicks_pace he.pace]) hs.2
    refine ⟨u, ?_, hfu, ?_, hfe'⟩
    · rw [hm, he.pace] at hu
      exact ht.trans hu
    · rw [List.length_cons, Nat.add_mul, Nat.one_mul, Nat.add_comm]
      rw [slotTicks_pace he.pace] at he'
      exact he.trans he'

/-- The SCL low phase a frame ends with: the core is at the end of its reaction, and the master at rest. -/
theorem rest_run {w : View} {s : State} {a b : List Inputs} (hw : Falls w s) (hp : Paced s) (hf : Feeds (a ++ b) s)
    (hc : ∀ inp ∈ a, Calm inp) (ha : a.length = s.pace.rest) :
    ∃ t, play (framePhases s.pace s.master.sda []) s = t ∧ view t = w ∧ t.regs.sampCount < t.cfg.K ∧ AtRest t ∧
      t.master.scl = false ∧ Elapsed s.pace.rest s t ∧ Feeds b t := by
  let ph := restPhase s.pace false s.master.sda
  have hd : Feeds (a ++ b) (drive false s.master.sda s) := hf
  have hrest := hp.2.2.2.2
  obtain ⟨n, hn, l⟩ := (hw.driven (c := false) (b := s.master.sda)).ticks ((List.prefix_append _ _).trans hd) hc rfl (by omega) true
  have he := perform_elapsed ph s
  rw [ha] at l hn
  obtain ⟨h, d, v0, r, l⟩ := l
  have hcfg : (perform ph s).cfg = s.cfg := he.1.cfg
  obtain ⟨hv, -⟩ := l.settled (by show (perform ph s).cfg.K + 4 ≤ n; rw [hcfg]; omega)
  have hscl : ∀ i, i ≤ s.cfg.K + 2 → decide (n ≤ i ∧ i < n + h) = false := fun i hi => decide_eq_false (by omega)
  have hs : (perform ph s).regs.sampCount < s.cfg.K := hcfg ▸ l.samp
  have hsc : SclTracks (perform ph s) _ := l.scl
  have hm : (perform ph s).master = ⟨false, s.master.sda⟩ := he.2
  refine ⟨_, rfl, hv, l.samp, ⟨rfl, ?_, ?_, ?_, ?_, ?_⟩, ?_, ⟨he.1.cfg, he.1.queue, he.1.pace, he.1.ahead⟩, perform_feeds hf ha⟩
  · show (perform ph s).regs.sclFf1 = (perform ph s).master.scl
    rw [hm]
    exact hsc.ff1.trans (hscl 0 (by omega))
  · show (perform ph s).regs.sclFf2 = (perform ph s).master.scl
    rw [hm]
    exact hsc.ff2.trans (hscl 1 (by omega))
  · show (perform ph s).regs.scl = (perform ph s).master.scl
    rw [hm]
    exact hsc.sample.trans (hscl _ (by omega))
  · show (perform ph s).regs.sclPrev = (perform ph s).master.scl
    rw [hm]
    exact hsc.prev.trans (hscl _ (by have := index_le hs; rw [hcfg]; omega))
  · intro hc
    have : (perform ph s).master.scl = true := hc
    rw [hm] at this
    cases this
  · show (perform ph s).master.scl = false
    rw [hm]

end Sys2Proof.Machine
end

