-- ==== Sys2Proof/Laws/Operations.lean ====
section
/-!
SUPPORT. The bus operations as wholes: one lemma each for a frame, a frame that the core stretches, a START or STOP, and a single
bit slot. Each says, from the premises of 47_bus_operations.md R210, what the operation makes of the view of the core.
-/

namespace Sys2Proof.Machine
set_option Elab.async false -- one thread: the module build bounds memory, and every thread reserves a stack

/-- From `x`, an SCL low phase ends the core's reaction in `w`, whether SCL was low or high before. -/
structure Reacts (x w : View) : Prop where
  low : x.lowStep = w
  stays : w.lowStep = w
  hold : x.holdStep.lowStep.lowStep = w

theorem sclTracks_atRest {s : State} (h : AtRest s) : SclTracks s (fun _ => s.master.scl) :=
  ⟨h.2.1, h.2.2.1, h.2.2.2.1, h.2.2.2.2.1⟩

/-- At rest with SCL high, the core is as after a long SCL high phase. -/
theorem high_atRest {s : State} (hs : s.regs.sampCount < s.cfg.K) (h : AtRest s) (hm : s.master.scl = true) :
    High (s.cfg.K + 3) (s.master.sda && !(view s).oe) (view s) (view s) s := by
  obtain ⟨h1, h2, h3, h4⟩ := h.2.2.2.2.2 hm
  have hq := index_le hs
  refine ⟨hs, tracks_congr hs (sclTracks_atRest h) fun i hi => ?_, ⟨fun _ => s.master.sda && !(view s).oe, ⟨h1, h2, h3, h4⟩,
    fun _ _ => rfl⟩, fun hle => absurd hle (by omega), fun _ => .inl rfl, fun hk => absurd hk (by omega), fun hk => absurd hk (by omega)⟩
  rw [hm]
  exact (decide_eq_true (by omega)).symm

theorem falls_atRest {s : State} {w : View} (hs : s.regs.sampCount < s.cfg.K) (h : AtRest s) (hw : Reacts (view s) w) :
    Falls w s := by
  cases hm : s.master.scl with
  | false =>
    have := sclTracks_atRest h
    rw [hm] at this
    exact .inr ⟨hs, this, hw.low, hw.stays⟩
  | true =>
    refine .inl fun d' => (high_atRest hs h hm).low (by omega) ⟨?_, hw.hold, hw.stays⟩ d'
    rw [hw.low, hw.stays]

/-- The inputs of the next ticks, under the premises. -/
theorem peaceful_feeds {n : Nat} {s : State} (h : Peaceful n s) :
    Feeds ((coming s).take n) s ∧ (∀ inp ∈ (coming s).take n, Calm inp) ∧ ((coming s).take n).length = n :=
  ⟨List.take_prefix _ _, h.2, by rw [List.length_take]; omega⟩

/-- The inputs from tick `k` on, among the inputs of the next ticks. -/
theorem inputs_at {l a b c : List Inputs} {k n : Nat} (h : a ++ (b ++ c) <+: l) (ha : a.length = k) (hb : b.length = n) :
    (l.drop k).take n = b := by
  obtain ⟨r, rfl⟩ := h
  rw [← ha, ← hb, List.append_assoc, List.drop_left, List.append_assoc, List.take_left]

theorem play_cons {ph : Phase} {rest : List Phase} {s : State} (h : waits (drive ph.scl ph.sda s) = false) :
    play (ph :: rest) s = play rest (perform ph s) := by
  rw [play, if_neg (by rw [h]; decide)]

/-- The end of an operation with SCL high and seen high, and SDA seen at the level it has. -/
theorem atRest_high {d : Bit} {s : State} {hc hd : Nat → Bit} (hs : s.regs.sampCount < s.cfg.K) (hm : s.master.scl = true)
    (h : SclTracks s hc) (h1 : ∀ i, i ≤ s.cfg.K + 2 → hc i = true) (h' : SdaTracks s hd) (hd1 : ∀ i, i ≤ s.cfg.K + 2 → hd i = d)
    (ho : (s.master.sda && !(view s).oe) = d) : AtRest (play [] s) := by
  have hi := index_le hs
  refine ⟨rfl, ?_, ?_, ?_, ?_, fun _ => ⟨?_, ?_, ?_, ?_⟩⟩
  · exact (h.ff1.trans (h1 _ (by omega))).trans hm.symm
  · exact (h.ff2.trans (h1 _ (by omega))).trans hm.symm
  · exact (h.sample.trans (h1 _ (by omega))).trans hm.symm
  · exact (h.prev.trans (h1 _ hi)).trans hm.symm
  · exact (h'.ff1.trans (hd1 _ (by omega))).trans ho.symm
  · exact (h'.ff2.trans (hd1 _ (by omega))).trans ho.symm
  · exact (h'.sample.trans (hd1 _ (by omega))).trans ho.symm
  · exact (h'.prev.trans (hd1 _ hi)).trans ho.symm

/-- SDA moves to `b` while SCL is high, and the operation is over. -/
theorem edge_run {h : Nat} {b : Bit} {v0 r : View} {s : State} {a c : List Inputs} (e : Edge h b v0 r 0 s) (hp : Paced s)
    (hr : r.oe = false) (hf : Feeds (a ++ c) s) (hc : ∀ inp ∈ a, Calm inp) (ha : a.length = s.pace.rest)
    (hb : stretches v0.st = false ∨ s.cfg.K + 3 ≤ h) :
    ∃ t, play [restPhase s.pace true b] s = t ∧ view t = r.edgeStep b ∧ t.regs.sampCount < t.cfg.K ∧ AtRest t ∧
      t.master = ⟨true, b⟩ ∧ Elapsed s.pace.rest s t ∧ Feeds c t := by
  have hrest := hp.2.2.2.2
  have hK := s.cfg.K_pos
  have he := perform_elapsed (restPhase s.pace true b) s
  have hcfg : (perform (restPhase s.pace true b) s).cfg = s.cfg := he.1.cfg
  have e' := (e.driven (c := true) (d := b)).ticks (inps := a) ((List.prefix_append _ _).trans hf) hc rfl hr hb
  rw [ha, Nat.zero_add] at e'
  have hwait : waits (drive true b s) = false := by
    have hci : Calm (drive true b s).inputs := by
      cases a with
      | nil => simp at ha; omega
      | cons i a => exact hf.head ▸ hc i (by simp)
    rw [waits, (e.driven (c := true) (d := b)).sclLine hci rfl hb]
    rfl
  have hs : (perform (restPhase s.pace true b) s).regs.sampCount < (perform (restPhase s.pace true b) s).cfg.K := e'.samp
  have hi := index_le hs
  have hv : view (perform (restPhase s.pace true b) s) = r.edgeStep b := e'.after (by
    show prevIndex (perform (restPhase s.pace true b) s).cfg.K _ < _
    rw [hcfg] at hi ⊢
    exact Nat.lt_of_le_of_lt hi (by omega))
  obtain ⟨g, hg, hgb, -⟩ := e'.sda
  refine ⟨play [] (perform (restPhase s.pace true b) s), play_cons hwait, hv, hs, ?_, he.2,
    ⟨he.1.cfg, he.1.queue, he.1.pace, he.1.ahead⟩, perform_feeds hf ha⟩
  refine atRest_high (d := b) hs (by rw [he.2]; rfl) e'.scl (fun i hi => decide_eq_true (by rw [hcfg] at hi; omega)) hg
    (fun i hi => hgb i (by rw [hcfg] at hi; omega)) ?_
  rw [he.2, hv, View.oe_edge]
  simp [restPhase]

/-- A START (`d` is 1) or STOP (`d` is 0) that can follow at once. -/
theorem condition_direct {d : Bit} {s : State} {a c : List Inputs} (hs : s.regs.sampCount < s.cfg.K) (hr : AtRest s)
    (hp : Paced s) (hf : Feeds (a ++ c) s) (hc : ∀ inp ∈ a, Calm inp) (ha : a.length = s.pace.rest) (hd : direct d s = true)
    (ho : (view s).oe = false) :
    ∃ t, condition d s = .next t ∧ view t = (view s).edgeStep (!d) ∧ t.regs.sampCount < t.cfg.K ∧ AtRest t ∧
      t.master = ⟨true, !d⟩ ∧ Elapsed s.pace.rest s t ∧ Feeds c t := by
  obtain ⟨hm, hsda⟩ : s.master.scl = true ∧ s.master.sda = d := by simpa using hd
  have h0 := high_atRest hs hr hm
  rw [ho, hsda] at h0
  have e := High.edge (b := !d) (by simpa using h0) (by omega)
  obtain ⟨t, ht, h⟩ := edge_run e hp ho hf hc ha (.inr (by omega))
  refine ⟨t, ?_, h⟩
  rw [condition, performAll, conditionPhases, if_pos (by simpa using hd), hr.1, List.nil_append, ht]

/-- A START or STOP for which the master first brings the lines to SCL high and SDA `d`: the core sees one more rising edge. -/
theorem condition_indirect {d : Bit} {w : View} {s : State} {a c : List Inputs} (hw : Falls w s) (hbus : s.bus = [])
    (hp : Paced s) (hf : Feeds (a ++ c) s) (hc : ∀ inp ∈ a, Calm inp) (ha : a.length = slotTicks s + s.pace.rest)
    (hd : direct d s = false) (ho : w.oe = false) (hst : stretches w.st = false) :
    ∃ t, condition d s = .next t ∧ view t = (w.riseStep d).edgeStep (!d) ∧ t.regs.sampCount < t.cfg.K ∧ AtRest t ∧
      t.master = ⟨true, !d⟩ ∧ Elapsed (slotTicks s + s.pace.rest) s t ∧ Feeds c t := by
  have hK := s.cfg.K_pos
  have hp4 := hp.2.2.2.1
  obtain ⟨a12, a3, rfl, ha12, ha3⟩ := split_inputs ha
  obtain ⟨a1, a2, rfl, ha1, ha2⟩ := split_inputs ha12
  rw [List.append_assoc, List.append_assoc] at hf
  obtain ⟨u, hu, hpo, he, hm, hfu⟩ := lowPhases_run (p := s.master.sda) (d := d)
    (rest := [{ scl := true, sda := d, ticks := s.pace.high, samples := false }, restPhase s.pace true !d]) hw hp hf
    (fun i hi => hc i (by simp [hi])) ha1
  obtain ⟨v, w', rfl, hv, hh, he', hm', hfv⟩ := release_run (smp := false) (rest := [restPhase s.pace true !d]) (n := s.pace.high)
    hpo rfl (by omega) hfu (fun i hi => hc i (by simp [hi])) ha2 (.inl hst)
  have hpace : v.pace = s.pace := he'.pace.trans he.pace
  have hcfg : v.cfg = s.cfg := he'.cfg.trans he.cfg
  have hpv : Paced v := by rw [Paced, hcfg, hpace]; exact hp
  simp only [ho, Bool.not_false, Bool.and_true] at hh
  have e := High.edge (b := !d) (by simpa using hh) (by rw [hcfg]; exact hp4)
  obtain ⟨t, ht, h1, h2, h3, h4, h5, h6⟩ := edge_run e hpv (by rw [View.oe_rise, ho]) hfv (fun i hi => hc i (by simp [hi]))
    (by rw [ha3, hpace]) (.inl hst)
  rw [hpace] at ht h5
  refine ⟨t, ?_, h1, h2, h3, h4, (he.trans he').trans h5, h6⟩
  rw [condition, performAll, conditionPhases, if_neg (by simpa using hd), hbus, List.nil_append, hu, hv, ht]

/-- A single bit slot, not stretched. -/
theorem bit_run {d : Bit} {w : View} {s : State} {a c : List Inputs} (hw : Falls w s) (hbus : s.bus = [])
    (hp : Paced s) (hf : Feeds (a ++ c) s) (hc : ∀ inp ∈ a, Calm inp) (ha : a.length = bitTicks s)
    (hb : stretches w.st = false ∨ ∀ inp ∈ a.drop (s.pace.hold + s.pace.setup), inp.storeBusy = false) :
    ∃ t, bitSlot d s = .next t ∧ view t = ((w.record (d && !w.oe)).riseStep (d && !w.oe)).holdStep ∧
      t.regs.sampCount < t.cfg.K ∧ AtRest t ∧ t.master = ⟨true, d⟩ ∧ Elapsed (bitTicks s) s t ∧ Feeds c t := by
  have hK := s.cfg.K_pos
  have hrest := hp.2.2.2.2
  obtain ⟨a1, a2, rfl, ha1, ha2⟩ := split_inputs ha
  rw [← ha1, List.drop_left] at hb
  rw [List.append_assoc] at hf
  obtain ⟨u, hu, hpo, he, hm, hfu⟩ := lowPhases_run (p := s.master.sda) (d := d)
    (rest := [{ scl := true, sda := d, ticks := s.pace.rest, samples := true }]) hw hp hf (fun i hi => hc i (by simp [hi])) ha1
  obtain ⟨v, w', rfl, hv, hh, he', hm', hfv⟩ := release_run (smp := true) (rest := []) (n := s.pace.rest) hpo rfl (by omega) hfu
    (fun i hi => hc i (by simp [hi])) ha2 hb
  rw [if_pos rfl] at hh
  have hcfg : v.cfg = s.cfg := he'.cfg.trans he.cfg
  have hview := hh.settled (by rw [hcfg]; omega)
  obtain ⟨g, hg, hgd⟩ := hh.sda
  refine ⟨play [] v, ?_, hview, hh.samp, ?_, hm', ?_, hfv⟩
  · rw [bitSlot, performAll, bitPhases, hbus, List.nil_append, hu, hv]
  · refine atRest_high (d := d && !w.oe) hh.samp (by rw [hm']) hh.scl (fun i hi => decide_eq_true (by rw [hcfg] at hi; omega)) hg
      (fun i hi => hgd i (by rw [hcfg] at hi ⊢; omega)) ?_
    rw [hm', hview, View.oe_hold, View.oe_rise]
    rfl
  · have := he.trans he'
    exact ⟨this.cfg, this.queue, this.pace, this.ahead⟩

theorem unstretched_append {ds es : List Bit} {w : View} (h : w.unstretched ds) (h' : (w.slots ds).unstretched es) :
    w.unstretched (ds ++ es) := by
  induction ds generalizing w with
  | nil => exact h'
  | cons d ds ih => exact ⟨h.1, ih h.2 h'⟩

theorem slots_append (ds es : List Bit) (w : View) : w.slots (ds ++ es) = (w.slots ds).slots es := by
  induction ds generalizing w with
  | nil => rfl
  | cons d ds ih => exact ih _

theorem paced_of {k : Nat} {s t : State} (h : Elapsed k s t) (hp : Paced s) : Paced t := by
  rw [Paced, h.cfg, h.pace]
  exact hp

/-- The first eight slots of a frame, and the SCL low phase of the ninth: the master is about to release SCL for slot 9. -/
theorem frame_to_ack {byte : Byte} {ack : Bit} {w : View} {s : State} {a c : List Inputs} (hw : Falls w s) (hbus : s.bus = [])
    (hp : Paced s) (hf : Feeds (a ++ c) s) (hc : ∀ inp ∈ a, Calm inp) (ha : a.length = ackTick s)
    (hu : w.unstretched (byteBits byte)) :
    ∃ u, frame byte ack s =
        .next (play [{ scl := true, sda := ack, ticks := s.pace.high, samples := true }, restPhase s.pace false ack] u) ∧
      Poised (ack && !(w.slots (byteBits byte)).oe) (w.slots (byteBits byte)) u ∧ Elapsed (ackTick s) s u ∧
      u.master = ⟨false, ack⟩ ∧ Feeds c u := by
  rw [ackTick, Nat.add_assoc] at ha
  obtain ⟨a1, a2, rfl, ha1, ha2⟩ := split_inputs ha
  rw [List.append_assoc] at hf
  obtain ⟨t, ht, hft, het, hfe⟩ := slots_run (ds := byteBits byte) (es := [ack]) hw hp hf (fun i hi => hc i (by simp [hi]))
    (by rw [ha1]; rfl) hu
  obtain ⟨u, hu', hpo, heu, hm, hfu⟩ := lowPhases_run (p := t.master.sda) (d := ack)
    (rest := [{ scl := true, sda := ack, ticks := s.pace.high, samples := true }, restPhase s.pace false ack]) hft
    (paced_of het hp) hfe (fun i hi => hc i (by simp [hi])) (by rw [ha2, het.pace])
  refine ⟨u, ?_, hpo, ?_, hm, hfu⟩
  · rw [frame, performAll, hbus, List.nil_append, ht, ← hu', het.pace]
    rfl
  · rw [het.pace] at heu
    rw [ackTick, Nat.add_assoc]
    exact het.trans heu

/-- Slot 9 once SCL may rise, and the SCL low phase that follows. -/
theorem frame_from_ack {ack : Bit} {w : View} {u : State} {a c : List Inputs} (h : Poised (ack && !w.oe) w u) (hp : Paced u)
    (hf : Feeds (a ++ c) u) (hc : ∀ inp ∈ a, Calm inp) (ha : a.length = u.pace.high + u.pace.rest)
    (hb : stretches w.st = false ∨ ∀ inp ∈ a.take u.pace.high, inp.storeBusy = false) :
    ∃ t, play [{ scl := true, sda := ack, ticks := u.pace.high, samples := true }, restPhase u.pace false ack] u = t ∧
      view t = w.slot ack ∧ t.regs.sampCount < t.cfg.K ∧ AtRest t ∧ t.master.scl = false ∧
      Elapsed (u.pace.high + u.pace.rest) u t ∧ Feeds c t := by
  have hK := u.cfg.K_pos
  have hp4 := hp.2.2.2.1
  obtain ⟨a1, a2, rfl, ha1, ha2⟩ := split_inputs ha
  rw [← ha1, List.take_left] at hb
  rw [List.append_assoc] at hf
  obtain ⟨v, w', rfl, hv, hh, he, hm, hfv⟩ := release_run (smp := true) (rest := [restPhase u.pace false ack]) (n := u.pace.high) h
    rfl (by omega) hf (fun i hi => hc i (by simp [hi])) ha1 hb
  rw [if_pos rfl] at hh
  have hfalls : Falls (w.slot ack) v :=
    .inl fun d' => hh.low (by rw [he.cfg]; omega) (lands_rise _ _) d'
  obtain ⟨t, ht, h1, h2, h3, h4, h5, h6⟩ := rest_run hfalls (paced_of he hp) hfv (fun i hi => hc i (by simp [hi]))
    (by rw [ha2, he.pace])
  rw [hm, framePhases, he.pace] at ht
  rw [he.pace] at h5
  exact ⟨t, hv.trans ht, h1, h2, h3, h4, he.trans h5, h6⟩

/-- A frame, not stretched. -/
theorem frame_run {byte : Byte} {ack : Bit} {w : View} {s : State} {a c : List Inputs} (hw : Falls w s) (hbus : s.bus = [])
    (hp : Paced s) (hf : Feeds (a ++ c) s) (hc : ∀ inp ∈ a, Calm inp) (ha : a.length = frameTicks s)
    (hu : w.unstretched (byteBits byte))
    (hb : stretches (w.slots (byteBits byte)).st = false ∨
      ∀ inp ∈ (a.drop (ackTick s)).take s.pace.high, inp.storeBusy = false) :
    ∃ t, frame byte ack s = .next t ∧ view t = w.slots (byteBits byte ++ [ack]) ∧ t.regs.sampCount < t.cfg.K ∧ AtRest t ∧
      t.master.scl = false ∧ Elapsed (frameTicks s) s t ∧ Feeds c t := by
  have hsum : frameTicks s = ackTick s + (s.pace.high + s.pace.rest) := by simp only [frameTicks, ackTick, slotTicks]; omega
  rw [hsum] at ha ⊢
  obtain ⟨a1, a2, rfl, ha1, ha2⟩ := split_inputs ha
  rw [← ha1, List.drop_left] at hb
  rw [List.append_assoc] at hf
  obtain ⟨u, hu', hpo, he, hm, hfu⟩ := frame_to_ack (ack := ack) hw hbus hp hf (fun i hi => hc i (by simp [hi])) ha1 hu
  obtain ⟨t, ht, h1, h2, h3, h4, h5, h6⟩ := frame_from_ack hpo (paced_of he hp) hfu (fun i hi => hc i (by simp [hi]))
    (by rw [ha2, he.pace]) (by rw [he.pace]; exact hb)
  rw [he.pace] at ht h5
  exact ⟨t, by rw [hu', ht], by rw [slots_append]; exact h1, h2, h3, h4, he.trans h5, h6⟩

/-- The core stretches slot 9 of a frame: the master waits in the middle of the operation, both lines held low by the core. -/
structure Stretched (ack : Bit) (w : View) (s u : State) : Prop where
  poised : Poised (ack && !w.oe) w u
  master : u.master = ⟨true, ack⟩
  bus : u.bus = [{ scl := true, sda := ack, ticks := s.pace.high, samples := true }, restPhase s.pace false ack]
  stretches : stretches w.st = true
  cfg : u.cfg = s.cfg
  pace : u.pace = s.pace

/-- A frame whose slot 9 the core stretches stops there, the master waiting. -/
theorem frame_stretched {byte : Byte} {ack : Bit} {w : View} {s : State} {a c : List Inputs} {inp : Inputs} (hw : Falls w s)
    (hbus : s.bus = []) (hp : Paced s) (hf : Feeds (a ++ inp :: c) s) (hc : ∀ inp ∈ a, Calm inp) (ha : a.length = ackTick s)
    (hu : w.unstretched (byteBits byte)) (hs : stretches (w.slots (byteBits byte)).st = true) (hci : Calm inp)
    (hb : inp.storeBusy = true) :
    ∃ u, frame byte ack s = .next u ∧ Stretched ack (w.slots (byteBits byte)) s u ∧ Elapsed (ackTick s) s u ∧
      Feeds (inp :: c) u := by
  obtain ⟨u, hu', hpo, he, hm, hfu⟩ := frame_to_ack (ack := ack) hw hbus hp hf hc ha hu
  have hwait : waits (drive true ack u) = true := by
    rw [hpo.waits (by rw [hfu.head]; exact hci), hfu.head, hb, hs]
    rfl
  obtain ⟨n, e, hn, he', l⟩ := hpo
  refine ⟨{ drive true ack u with
      bus := [{ scl := true, sda := ack, ticks := s.pace.high, samples := true }, restPhase s.pace false ack] },
    hu'.trans (by rw [play, if_pos hwait]), ⟨⟨n, e, hn, he', ?_⟩, rfl, rfl, hs, he.cfg, he.pace⟩,
    ⟨he.cfg, he.queue, he.pace, he.ahead⟩, hfu⟩
  obtain ⟨h, d, v0, r, l⟩ := l
  exact ⟨h, d, v0, r, l.samp, l.long, l.scl, l.sda, l.before, l.during, l.after, l.step, l.lands, l.stays⟩

/-- A step while the core stretches is one tick (43 R155). -/
theorem Stretched.step {ack : Bit} {w : View} {s u : State} (h : Stretched ack w s u) (hc : Calm u.inputs)
    (hb : u.inputs.storeBusy = true) :
    Machine.step u = .next (busTick u) ∧ Stretched ack w s (busTick u) ∧ view (busTick u) = w ∧ Drives (busTick u) w.oe true := by
  obtain ⟨hv, hscl⟩ := h.poised.settled
  have hline : sclLine u = false := by
    rw [sclLine_calm hc, h.master, hb, hscl, hv, h.stretches]
    rfl
  have hpo := h.poised.tick hc hline (by rw [h.master])
  refine ⟨?_, ⟨hpo, by rw [busTick_master, h.master], by rw [busTick_bus, h.bus], h.stretches, by rw [busTick_cfg, h.cfg],
    by rw [busTick_pace, h.pace]⟩, hpo.settled.1, ?_, ?_⟩
  · have hwait : waits u = true := by rw [waits, hline, h.master]; rfl
    rw [Machine.step, if_neg (by rw [hc.2.2]; decide), if_neg (by rw [h.bus]; simp), resume, if_pos hwait]
  · rw [busTick_calm hc, advance_wires]
    exact (show sdaOe u = (view u).oe from rfl).trans (by rw [hv])
  · rw [busTick_calm hc, advance_wires]
    show sclOe u = true
    rw [show sclOe u = (u.inputs.storeBusy && !u.regs.scl && Machine.stretches (view u).st) from rfl, hb, hscl, hv, h.stretches]
    rfl

/-- While the store stays busy, the steps stay in the acknowledge. -/
theorem Stretched.steps {ack : Bit} {w : View} {s u : State} {a c : List Inputs} (h : Stretched ack w s u)
    (hf : Feeds (a ++ c) u) (hc : ∀ inp ∈ a, Calm inp) (hb : ∀ inp ∈ a, inp.storeBusy = true) :
    ∃ t, runSteps a.length u = .next t ∧ Stretched ack w s t ∧ Feeds c t ∧ Elapsed a.length u t ∧
      (a ≠ [] → Drives t w.oe true) := by
  induction a generalizing u with
  | nil => exact ⟨u, rfl, h, hf, .refl u, fun hn => absurd rfl hn⟩
  | cons i a ih =>
    have hci : Calm u.inputs := hf.head ▸ hc i (by simp)
    obtain ⟨h1, h2, -, h4⟩ := h.step hci (hf.head ▸ hb i (by simp))
    obtain ⟨t, ht, hst, hfc, he, hd⟩ := ih h2 hf.tail (fun i hi => hc i (by simp [hi])) (fun i hi => hb i (by simp [hi]))
    refine ⟨t, ?_, hst, hfc, ?_, fun _ => ?_⟩
    · rw [List.length_cons, runSteps, h1]
      exact ht
    · have := (busTick_elapsed u).trans he
      rw [Nat.add_comm] at this
      exact this
    · cases a with
      | nil =>
        cases ht
        exact h4
      | cons j a => exact hd (by simp)

/-- When the store is ready, a step ends the frame (47 R223). -/
theorem Stretched.finish {ack : Bit} {w : View} {s u : State} {a c : List Inputs} (h : Stretched ack w s u) (hp : Paced s)
    (hf : Feeds (a ++ c) u) (hc : ∀ inp ∈ a, Calm inp) (ha : a.length = s.pace.high + s.pace.rest)
    (hb : ∀ inp ∈ a.take s.pace.high, inp.storeBusy = false) :
    ∃ t, Machine.step u = .next t ∧ view t = w.slot ack ∧ t.regs.sampCount < t.cfg.K ∧ AtRest t ∧ t.master.scl = false ∧
      Elapsed (s.pace.high + s.pace.rest) u t ∧ Feeds c t := by
  have hpu : Paced u := by rw [Paced, h.cfg, h.pace]; exact hp
  have hK := s.cfg.K_pos
  have hp4 := hp.2.2.2.1
  obtain ⟨hv, hscl⟩ := h.poised.settled
  rw [← h.pace] at ha hb ⊢
  obtain ⟨i, a, rfl⟩ : ∃ i a', a = i :: a' := by
    cases a with
    | nil => rw [h.pace] at ha; simp at ha; omega
    | cons i a => exact ⟨i, a, rfl⟩
  have hci : Calm u.inputs := hf.head ▸ hc i (by simp)
  have hready : u.inputs.storeBusy = false := by
    rw [hf.head]
    refine hb i ?_
    obtain ⟨k, hk⟩ : ∃ k, u.pace.high = k + 1 := ⟨u.pace.high - 1, by rw [h.pace]; omega⟩
    rw [hk]
    simp
  have hwait : waits u = false := by
    rw [waits, sclLine_calm hci, hready, h.master]
    rfl
  obtain ⟨t, ht, h1⟩ := frame_from_ack h.poised hpu hf hc ha (.inr hb)
  refine ⟨t, ?_, h1⟩
  rw [Machine.step, if_neg (by rw [hci.2.2]; decide), if_neg (by rw [h.bus]; simp), resume, if_neg (by rw [hwait]; decide), h.bus,
    ← h.pace, ht]

end Sys2Proof.Machine
end

