-- ==== Sys2Proof/Laws/Frames.lean ====
section
/-!
SUPPORT. What bit slots and frames make of the view of the core (30_encoding.md R84, R85): a slot in which the core receives a bit,
one in which it transmits a bit, the acknowledge slot it drives, the acknowledge slot it samples, and a slot it ignores; then eight
slots of a byte. Each slot is seen from the end of one SCL low phase to the end of the next.
-/

namespace Sys2Proof.Machine
set_option Elab.async false -- one thread: the module build bounds memory, and every thread reserves a stack

/-- A slot in a receive state: one bit is counted and shifted in (42 R132, R133), and the state's rule acts on a complete byte. -/
theorem slot_receive {v : View} (m : Bit) (hr : receives v.st = true) (hb : v.bitCount < 8) (hd : v.dataDrv = false) :
    v.slot m =
      ({ v with
         bitCount := v.bitCount + 1
         value := shiftLeftIn v.value m
         wire := BitVec.concat (v.wire.extractLsb' 0 8) m } : View).lowStep.lowStep := by
  obtain ⟨cfg, st, bc, value, off, ir, dd, db, mem, w⟩ := v
  obtain rfl : dd = false := hd
  have h8 : bc ≠ 8 := Nat.ne_of_lt hb
  cases st <;> simp [receives] at hr <;>
    simp [View.slot, View.record, View.riseStep, View.holdStep, View.count, View.oe, acknowledges, receives, h8]

/-- One of the first seven bits of a byte. -/
theorem slot_receiveBit {v : View} (m : Bit) (hr : receives v.st = true) (hb : v.bitCount < 7) (hd : v.dataDrv = false) :
    v.slot m =
      { v with
        bitCount := v.bitCount + 1
        value := shiftLeftIn v.value m
        wire := BitVec.concat (v.wire.extractLsb' 0 8) m } := by
  refine (slot_receive m hr (by omega) hd).trans ?_
  obtain ⟨cfg, st, bc, value, off, ir, dd, db, mem, w⟩ := v
  have h7 : bc ≠ 7 := Nat.ne_of_lt hb
  cases st <;> simp [receives] at hr <;> simp [View.lowStep, h7]

/-- The acknowledge slot of an address byte (43 R151), then the state of the direction (44 R166). -/
theorem slot_ackAddress {v : View} (m : Bit) (hs : v.st = .ackAddress1) (hb : v.bitCount = 8) :
    v.slot m =
      { v with
        st := if v.isRead then .read else .rcvOffset
        bitCount := 0
        dataDrv := v.isRead || v.dataDrv
        dataBit := if v.isRead then (v.mem.read v.offset).getLsbD 7 else v.dataBit
        wire := BitVec.concat (v.wire.extractLsb' 0 8) false } := by
  obtain ⟨cfg, st, bc, value, off, ir, dd, db, mem, w⟩ := v
  obtain rfl : st = .ackAddress1 := hs
  obtain rfl : bc = 8 := hb
  cases ir <;> simp [View.slot, View.record, View.lowStep, View.riseStep, View.holdStep, View.count, View.oe, acknowledges]

/-- As `slot_ackAddress`, after the offset byte. -/
theorem slot_ackOffset {v : View} (m : Bit) (hs : v.st = .ackOffset1) (hb : v.bitCount = 8) :
    v.slot m = { v with st := .rcvData, bitCount := 0, wire := BitVec.concat (v.wire.extractLsb' 0 8) false } := by
  obtain ⟨cfg, st, bc, value, off, ir, dd, db, mem, w⟩ := v
  obtain rfl : st = .ackOffset1 := hs
  obtain rfl : bc = 8 := hb
  simp [View.slot, View.record, View.lowStep, View.riseStep, View.holdStep, View.count, View.oe, acknowledges]

/-- As `slot_ackAddress`, after a data byte: the offset is incremented at the end of the acknowledge (44 R174). -/
theorem slot_ackData {v : View} (m : Bit) (hs : v.st = .ackData1) (hb : v.bitCount = 8) :
    v.slot m =
      { v with
        st := .rcvData
        bitCount := 0
        offset := (v.offset + 1) % v.cfg.N
        wire := BitVec.concat (v.wire.extractLsb' 0 8) false } := by
  obtain ⟨cfg, st, bc, value, off, ir, dd, db, mem, w⟩ := v
  obtain rfl : st = .ackData1 := hs
  obtain rfl : bc = 8 := hb
  simp [View.slot, View.record, View.lowStep, View.riseStep, View.holdStep, View.count, View.oe, acknowledges]

/-- A slot the core transmits, not the last: the bit it has on SDA, then the next bit (42 R140). -/
theorem slot_transmit {v : View} (hs : v.st = .read) (hb : v.bitCount < 7) (hd : v.dataDrv = true) :
    v.slot true =
      { v with
        bitCount := v.bitCount + 1
        dataBit := (v.mem.read v.offset).getLsbD (7 - (v.bitCount + 1))
        wire := BitVec.concat (v.wire.extractLsb' 0 8) v.dataBit } := by
  obtain ⟨cfg, st, bc, value, off, ir, dd, db, mem, w⟩ := v
  obtain rfl : st = .read := hs
  obtain rfl : dd = true := hd
  have h8 : bc ≠ 8 := by simp at hb; omega
  have h7 : bc ≠ 7 := Nat.ne_of_lt hb
  have h6 : bc < 7 := hb
  simp [View.slot, View.record, View.lowStep, View.riseStep, View.holdStep, View.count, View.oe, acknowledges, receives, h8, h7, h6]

/-- The last slot the core transmits: SDA is released after it (44 R175). -/
theorem slot_transmitLast {v : View} (hs : v.st = .read) (hb : v.bitCount = 7) (hd : v.dataDrv = true) :
    v.slot true =
      { v with
        st := .ackRead
        bitCount := 8
        dataDrv := false
        wire := BitVec.concat (v.wire.extractLsb' 0 8) v.dataBit } := by
  obtain ⟨cfg, st, bc, value, off, ir, dd, db, mem, w⟩ := v
  obtain rfl : st = .read := hs
  obtain rfl : dd = true := hd
  obtain rfl : bc = 7 := hb
  simp [View.slot, View.record, View.lowStep, View.riseStep, View.holdStep, View.count, View.oe, acknowledges, receives]

/-- The acknowledge slot of a transmitted byte, pulled low by the master: the next byte follows (44 R176). -/
theorem slot_masterAck {v : View} (hs : v.st = .ackRead) (hb : v.bitCount = 8) :
    v.slot false =
      { v with
        st := .read
        bitCount := 0
        offset := (v.offset + 1) % v.cfg.N
        dataDrv := true
        dataBit := (v.mem.read ((v.offset + 1) % v.cfg.N)).getLsbD 7
        wire := BitVec.concat (v.wire.extractLsb' 0 8) false } := by
  obtain ⟨cfg, st, bc, value, off, ir, dd, db, mem, w⟩ := v
  obtain rfl : st = .ackRead := hs
  obtain rfl : bc = 8 := hb
  simp [View.slot, View.record, View.lowStep, View.riseStep, View.count]

/-- The acknowledge slot of a transmitted byte, released by the master: the read ends (44 R176). -/
theorem slot_masterNack {v : View} (hs : v.st = .ackRead) (hb : v.bitCount = 8) (hd : v.dataDrv = false) :
    v.slot true = { v with st := .waitStart, bitCount := 0, wire := BitVec.concat (v.wire.extractLsb' 0 8) true } := by
  obtain ⟨cfg, st, bc, value, off, ir, dd, db, mem, w⟩ := v
  obtain rfl : st = .ackRead := hs
  obtain rfl : bc = 8 := hb
  obtain rfl : dd = false := hd
  simp [View.slot, View.record, View.lowStep, View.riseStep, View.count, View.oe, acknowledges]

/-- A slot in WAIT_START is ignored, but for the return of a counter left at 8 (30 R100, 42 R131). -/
theorem slot_ignored {v : View} (m : Bit) (hs : v.st = .waitStart) (hd : v.dataDrv = false) :
    v.slot m =
      { v with
        bitCount := if v.bitCount = 8 then 0 else v.bitCount
        wire := BitVec.concat (v.wire.extractLsb' 0 8) m } := by
  obtain ⟨cfg, st, bc, value, off, ir, dd, db, mem, w⟩ := v
  obtain rfl : dd = false := hd
  obtain rfl : st = .waitStart := hs
  by_cases h8 : bc = 8 <;>
    simp [View.slot, View.record, View.lowStep, View.riseStep, View.holdStep, View.count, View.oe, acknowledges, receives, h8]

/-- Eight bits shifted in, most significant first, are the byte, whatever was there before (42 R136). -/
theorem shift_byte (b v : Byte) :
    shiftLeftIn (shiftLeftIn (shiftLeftIn (shiftLeftIn (shiftLeftIn (shiftLeftIn (shiftLeftIn (shiftLeftIn v
      (b.getLsbD 7)) (b.getLsbD 6)) (b.getLsbD 5)) (b.getLsbD 4)) (b.getLsbD 3)) (b.getLsbD 2)) (b.getLsbD 1)) (b.getLsbD 0) = b := by
  apply BitVec.eq_of_getLsbD_eq
  intro i hi
  interval_cases i <;> simp [shiftLeftIn]

/-- Nine recorded bits are the nine-bit number `{byte, ack}`, whatever was recorded before (30 R80). -/
theorem record_frame (b : Byte) (a : Bit) (w : BitVec 9) :
    (let r := fun (x : BitVec 9) (y : Bit) => BitVec.concat (x.extractLsb' 0 8) y
     r (r (r (r (r (r (r (r (r w (b.getLsbD 7)) (b.getLsbD 6)) (b.getLsbD 5)) (b.getLsbD 4)) (b.getLsbD 3)) (b.getLsbD 2))
       (b.getLsbD 1)) (b.getLsbD 0)) a) = frameOf b a := by
  apply BitVec.eq_of_getLsbD_eq
  intro i hi
  interval_cases i <;> simp [frameOf]

/-- The nine-bit number `{byte, ack}` is `2*byte + ack`. -/
theorem frameOf_eq (b : Byte) (a : Bit) : frameOf b a = BitVec.ofNat 9 (2 * b.toNat + a.toNat) := by
  apply BitVec.eq_of_toNat_eq
  have := b.isLt
  rw [frameOf, BitVec.toNat_concat, BitVec.toNat_ofNat, Nat.mod_eq_of_lt (by cases a <;> simp <;> omega)]
  cases a <;> simp [Nat.mul_comm]

/-! ### Eight slots of a byte -/

/-- Eight bits recorded behind what was recorded before. -/
def recordByte (w : BitVec 9) (b : Byte) : BitVec 9 :=
  (byteBits b).foldl (fun x y => BitVec.concat (x.extractLsb' 0 8) y) w

theorem recordByte_ack (w : BitVec 9) (b : Byte) (a : Bit) :
    BitVec.concat ((recordByte w b).extractLsb' 0 8) a = BitVec.ofNat 9 (2 * b.toNat + a.toNat) :=
  (record_frame b a w).trans (frameOf_eq b a)

/-- A byte received in one state: after eight bits the accumulator is the byte (42 R136), and the state's rule acts on it. -/
theorem slots_receiveByte {v : View} (b : Byte) (hr : receives v.st = true) (hb : v.bitCount = 0) (hd : v.dataDrv = false) :
    v.unstretched (byteBits b) ∧
      v.slots (byteBits b) = ({ v with bitCount := 8, value := b, wire := recordByte v.wire b } : View).lowStep.lowStep := by
  obtain ⟨cfg, st, bc, value, off, ir, dd, db, mem, w⟩ := v
  obtain rfl : dd = false := hd
  obtain rfl : bc = 0 := hb
  have hr' : receives st = true := hr
  have hst : stretches st = false := by cases st <;> simp [receives] at hr' <;> rfl
  have bit : ∀ (m : Bit) (bc : Nat) (value : Byte) (w : BitVec 9), bc < 7 →
      (View.mk cfg st bc value off ir false db mem w).slot m =
        View.mk cfg st (bc + 1) (shiftLeftIn value m) off ir false db mem (BitVec.concat (w.extractLsb' 0 8) m) :=
    fun m bc value w h => slot_receiveBit m hr' h rfl
  have last := fun value w => slot_receive (v := View.mk cfg st 7 value off ir false db mem w) (b.getLsbD 0) hr' (by simp) rfl
  have hv := shift_byte b value
  constructor
  · simp only [byteBits, View.unstretched, bit _ _ _ _ _, Nat.reduceLT, Nat.reduceAdd, and_self, hst]
  · simp only [byteBits, View.slots, bit _ _ _ _ _, last _ _, Nat.reduceLT, Nat.reduceAdd, hv, recordByte, List.foldl]

/-- A byte transmitted: the master sees the addressed cell, most significant bit first (20 R67, 42 R140). -/
theorem slots_transmitByte {v : View} (hs : v.st = .read) (hb : v.bitCount = 0) (hd : v.dataDrv = true)
    (hdb : v.dataBit = (v.mem.read v.offset).getLsbD 7) :
    v.unstretched (byteBits released) ∧
      v.slots (byteBits released) =
        { v with
          st := .ackRead
          bitCount := 8
          dataDrv := false
          dataBit := (v.mem.read v.offset).getLsbD 0
          wire := recordByte v.wire (v.mem.read v.offset) } := by
  obtain ⟨cfg, st, bc, value, off, ir, dd, db, mem, w⟩ := v
  obtain rfl : st = .read := hs
  obtain rfl : bc = 0 := hb
  obtain rfl : dd = true := hd
  obtain rfl : db = (mem.read off).getLsbD 7 := hdb
  have bit : ∀ (bc : Nat) (db : Bit) (w : BitVec 9), bc < 7 →
      (View.mk cfg .read bc value off ir true db mem w).slot true =
        View.mk cfg .read (bc + 1) value off ir true ((mem.read off).getLsbD (7 - (bc + 1))) mem
          (BitVec.concat (w.extractLsb' 0 8) db) :=
    fun bc db w h => slot_transmit rfl h rfl
  have last := fun db w => slot_transmitLast (v := View.mk cfg .read 7 value off ir true db mem w) rfl rfl rfl
  have ones : byteBits released = [true, true, true, true, true, true, true, true] := by decide
  rw [ones]
  constructor
  · simp only [View.unstretched, bit _ _ _ _, Nat.reduceLT, Nat.reduceAdd, Nat.reduceSub, stretches, and_self]
  · simp only [View.slots, bit _ _ _ _, last _ _, Nat.reduceLT, Nat.reduceAdd, Nat.reduceSub, recordByte, byteBits, List.foldl]

/-- Slots ignored in WAIT_START. -/
theorem slots_ignored {v : View} (ds : List Bit) (hs : v.st = .waitStart) (hd : v.dataDrv = false) (hb : v.bitCount ≠ 8) :
    v.unstretched ds ∧
      v.slots ds = { v with wire := ds.foldl (fun x y => BitVec.concat (x.extractLsb' 0 8) y) v.wire } := by
  induction ds generalizing v with
  | nil => exact ⟨trivial, rfl⟩
  | cons d ds ih =>
    have h := slot_ignored d hs hd
    rw [if_neg hb] at h
    obtain ⟨h1, h2⟩ := ih (v := v.slot d) (by rw [h]; exact hs) (by rw [h]; exact hd) (by rw [h]; exact hb)
    refine ⟨⟨by rw [hs]; rfl, h1⟩, ?_⟩
    rw [View.slots, h2, h]
    rfl

end Sys2Proof.Machine
end

