-- ==== Sys2Proof/Laws/PerInstr.lean ====
section
/-!
SUPPORT. Laws per instruction, one lemma per constructor: the shape of its encoding (30_encoding.md R80; log 16). A word is its
format byte, one operand byte, and a second operand byte in FRAME9 words only.
-/

namespace Sys2Proof.Laws.EncodedShape

/-- The word of an operation, in every configuration: two bytes, three for a frame. -/
def Statement (i : Instr) : Prop :=
  ∀ cfg : Config, ∃ tag lo rest, encode cfg i = tag :: lo :: rest ∧ rest.length = if tag = tagFrame then 1 else 0

theorem condS : Statement .condS := fun _ => ⟨_, _, _, rfl, rfl⟩
theorem condSr : Statement .condSr := fun _ => ⟨_, _, _, rfl, rfl⟩
theorem condP : Statement .condP := fun _ => ⟨_, _, _, rfl, rfl⟩
theorem bit0 : Statement .bit0 := fun _ => ⟨_, _, _, rfl, rfl⟩
theorem bit1 : Statement .bit1 := fun _ => ⟨_, _, _, rfl, rfl⟩
theorem addrW : Statement .addrW := fun _ => ⟨_, _, _, rfl, rfl⟩
theorem addrR : Statement .addrR := fun _ => ⟨_, _, _, rfl, rfl⟩
theorem addrMiss (byte : Byte) (ack : Bit) : Statement (.addrMiss byte ack) := fun _ => ⟨_, _, _, rfl, rfl⟩
theorem offset (o : Byte) : Statement (.offset o) := fun _ => ⟨_, _, _, rfl, rfl⟩
theorem wdata (d : Byte) : Statement (.wdata d) := fun _ => ⟨_, _, _, rfl, rfl⟩
theorem rdataA : Statement .rdataA := fun _ => ⟨_, _, _, rfl, rfl⟩
theorem rdataN : Statement .rdataN := fun _ => ⟨_, _, _, rfl, rfl⟩
theorem waitStart : Statement .waitStart := fun _ => ⟨_, _, _, rfl, rfl⟩
theorem rcvAddress : Statement .rcvAddress := fun _ => ⟨_, _, _, rfl, rfl⟩
theorem ackAddress0 : Statement .ackAddress0 := fun _ => ⟨_, _, _, rfl, rfl⟩
theorem ackAddress1 : Statement .ackAddress1 := fun _ => ⟨_, _, _, rfl, rfl⟩
theorem ackAddress2 : Statement .ackAddress2 := fun _ => ⟨_, _, _, rfl, rfl⟩
theorem rcvOffset : Statement .rcvOffset := fun _ => ⟨_, _, _, rfl, rfl⟩
theorem ackOffset0 : Statement .ackOffset0 := fun _ => ⟨_, _, _, rfl, rfl⟩
theorem ackOffset1 : Statement .ackOffset1 := fun _ => ⟨_, _, _, rfl, rfl⟩
theorem ackOffset2 : Statement .ackOffset2 := fun _ => ⟨_, _, _, rfl, rfl⟩
theorem rcvData : Statement .rcvData := fun _ => ⟨_, _, _, rfl, rfl⟩
theorem ackData0 : Statement .ackData0 := fun _ => ⟨_, _, _, rfl, rfl⟩
theorem ackData1 : Statement .ackData1 := fun _ => ⟨_, _, _, rfl, rfl⟩
theorem ackData2 : Statement .ackData2 := fun _ => ⟨_, _, _, rfl, rfl⟩
theorem read : Statement .read := fun _ => ⟨_, _, _, rfl, rfl⟩
theorem ackRead : Statement .ackRead := fun _ => ⟨_, _, _, rfl, rfl⟩
theorem syncStage1 : Statement .syncStage1 := fun _ => ⟨_, _, _, rfl, rfl⟩
theorem syncStage2 : Statement .syncStage2 := fun _ => ⟨_, _, _, rfl, rfl⟩
theorem sampleCount : Statement .sampleCount := fun _ => ⟨_, _, _, rfl, rfl⟩
theorem sampleCapture : Statement .sampleCapture := fun _ => ⟨_, _, _, rfl, rfl⟩
theorem edgeHistory : Statement .edgeHistory := fun _ => ⟨_, _, _, rfl, rfl⟩
theorem sclRising : Statement .sclRising := fun _ => ⟨_, _, _, rfl, rfl⟩
theorem sclFalling : Statement .sclFalling := fun _ => ⟨_, _, _, rfl, rfl⟩
theorem sdaRising : Statement .sdaRising := fun _ => ⟨_, _, _, rfl, rfl⟩
theorem sdaFalling : Statement .sdaFalling := fun _ => ⟨_, _, _, rfl, rfl⟩
theorem startDetect : Statement .startDetect := fun _ => ⟨_, _, _, rfl, rfl⟩
theorem stopDetect : Statement .stopDetect := fun _ => ⟨_, _, _, rfl, rfl⟩
theorem countClear : Statement .countClear := fun _ => ⟨_, _, _, rfl, rfl⟩
theorem countWrap : Statement .countWrap := fun _ => ⟨_, _, _, rfl, rfl⟩
theorem countInc : Statement .countInc := fun _ => ⟨_, _, _, rfl, rfl⟩
theorem shiftIn : Statement .shiftIn := fun _ => ⟨_, _, _, rfl, rfl⟩
theorem shiftHold : Statement .shiftHold := fun _ => ⟨_, _, _, rfl, rfl⟩
theorem byteComplete : Statement .byteComplete := fun _ => ⟨_, _, _, rfl, rfl⟩
theorem outBit : Statement .outBit := fun _ => ⟨_, _, _, rfl, rfl⟩
theorem dataDrv : Statement .dataDrv := fun _ => ⟨_, _, _, rfl, rfl⟩
theorem dataBit : Statement .dataBit := fun _ => ⟨_, _, _, rfl, rfl⟩
theorem ackDrive : Statement .ackDrive := fun _ => ⟨_, _, _, rfl, rfl⟩
theorem sdaOe : Statement .sdaOe := fun _ => ⟨_, _, _, rfl, rfl⟩
theorem sdaO : Statement .sdaO := fun _ => ⟨_, _, _, rfl, rfl⟩
theorem sclOe : Statement .sclOe := fun _ => ⟨_, _, _, rfl, rfl⟩
theorem sclO : Statement .sclO := fun _ => ⟨_, _, _, rfl, rfl⟩
theorem masterAck : Statement .masterAck := fun _ => ⟨_, _, _, rfl, rfl⟩
theorem addrMatch : Statement .addrMatch := fun _ => ⟨_, _, _, rfl, rfl⟩
theorem directionCapture : Statement .directionCapture := fun _ => ⟨_, _, _, rfl, rfl⟩
theorem startOverride : Statement .startOverride := fun _ => ⟨_, _, _, rfl, rfl⟩
theorem stopOverride : Statement .stopOverride := fun _ => ⟨_, _, _, rfl, rfl⟩
theorem stateCommit : Statement .stateCommit := fun _ => ⟨_, _, _, rfl, rfl⟩
theorem offsetLoad : Statement .offsetLoad := fun _ => ⟨_, _, _, rfl, rfl⟩
theorem offsetInc : Statement .offsetInc := fun _ => ⟨_, _, _, rfl, rfl⟩
theorem offsetHold : Statement .offsetHold := fun _ => ⟨_, _, _, rfl, rfl⟩
theorem memAddr : Statement .memAddr := fun _ => ⟨_, _, _, rfl, rfl⟩
theorem memWrite : Statement .memWrite := fun _ => ⟨_, _, _, rfl, rfl⟩
theorem memRead : Statement .memRead := fun _ => ⟨_, _, _, rfl, rfl⟩
theorem tickStep : Statement .tickStep := fun _ => ⟨_, _, _, rfl, rfl⟩
theorem reset : Statement .reset := fun _ => ⟨_, _, _, rfl, rfl⟩

end Sys2Proof.Laws.EncodedShape
end

