-- ==== Sys2Proof/Tests/Slice0.lean ====
section
/-!
SUPPORT. Tests of the model, each on one small state, with the expected results of spec/: the encodings of 30_encoding.md, the
single-tick vectors of 95_test_vectors.md section 2 (V42-1 and so on, named in each comment) and the examples of
47_bus_operations.md and of the programs in 95_test_vectors.md, on the bench of its section 1 with `K = 1`; then, for every
obligation with hypotheses, a witness that meets all of them.
-/

namespace Sys2Proof.Tests
set_option Elab.async false -- one thread: the module build bounds memory, and every thread reserves a stack
open Sys2Proof Sys2Proof.Machine

/-! ### Helpers -/

/-- The configuration of the vectors: `K = 4`, `ADDR = 0x50`, `N = 128`. -/
def cfg4 : Config := { K := 4, addr := 0x50, N := 128 }

/-- Inputs of an idle bus and an idle store. -/
def idle : Inputs := ⟨true, true, false, false⟩

/-- The registers of the vectors' "base": the eight line registers 1, the rest as at reset. -/
def baseRegs : Regs :=
  { Regs.reset with
    sclFf1 := true, sclFf2 := true, sdaFf1 := true, sdaFf2 := true, scl := true, sda := true, sclPrev := true, sdaPrev := true }

/-- The vectors' "base". -/
def base : State := { State.resetOf cfg4 with inputs := idle, regs := baseRegs }

/-- The base with other registers. -/
def put (r : Regs) : State := { base with regs := r }

/-- The outcome is a next state with the property. -/
def seen (o : Result) (f : State → Bool) : Bool :=
  match o with
  | .next t => f t
  | .fault _ | .refused _ => false

theorem seen_next {o : Result} {f : State → Bool} (h : seen o f = true) : ∃ t, o = .next t ∧ f t = true := by
  cases o with
  | next t => exact ⟨t, rfl, h⟩
  | fault e => cases h
  | refused e => cases h

/-- The smallest divisor. -/
def cfg1 : Config := { K := 1, addr := 0x50, N := 128 }

/-- The bench of 95_test_vectors.md section 1 with `K = 1`, at rest with both lines high, for that many ticks of an idle
environment. -/
def bench (ticks : Nat) (r : Regs) : State :=
  { State.resetOf cfg1 with inputs := idle, ahead := List.replicate ticks idle, regs := r }

/-- The bench with the master holding SDA low, as it does after a START. -/
def benchLow (ticks : Nat) (r : Regs) : State :=
  { bench ticks { r with sdaFf1 := false, sdaFf2 := false, sda := false, sdaPrev := false } with master := ⟨true, false⟩ }

/-- The bench with the master holding SCL low, as it does after a frame. -/
def benchSclLow (ticks : Nat) (r : Regs) : State :=
  { bench ticks { r with sclFf1 := false, sclFf2 := false, scl := false, sclPrev := false } with master := ⟨false, true⟩ }

/-- What a word decodes to, the rest left out. -/
def read (st : ProtocolState) (bytes : List Byte) : Option Instr := ((decode cfg4 st bytes).toOption).map Prod.fst

/-! ### WellFormed: an ill-formed term for each check -/

theorem test_wf_s_only_in_waitStart : Instr.wf cfg4 .read .condS = false := by decide
theorem test_wf_sr_not_in_waitStart : Instr.wf cfg4 .waitStart .condSr = false := by decide
theorem test_wf_address_frames_in_rcvAddress :
    Instr.wf cfg4 .rcvOffset .addrW = false ∧ Instr.wf cfg4 .waitStart .addrR = false := by decide
theorem test_wf_miss_is_not_our_address :
    Instr.wf cfg4 .rcvAddress (.addrMiss 0xA1 true) = false ∧ Instr.wf cfg4 .rcvAddress (.addrMiss 0xA2 true) = true := by decide
theorem test_wf_miss_not_in_counting_state : Instr.wf cfg4 .rcvData (.addrMiss 0xA2 true) = false := by decide
theorem test_wf_offset_in_rcvOffset : Instr.wf cfg4 .rcvData (.offset 3) = false := by decide
theorem test_wf_wdata_in_rcvData : Instr.wf cfg4 .rcvOffset (.wdata 3) = false := by decide
theorem test_wf_rdata_in_read :
    Instr.wf cfg4 .ackRead .rdataA = false ∧ Instr.wf cfg4 .rcvAddress .rdataN = false := by decide

/-! ### Decode: words written out from 30_encoding.md -/

/-- 30 R81 to R83: 110 is S or Sr, 101 is P; the other six patterns are no condition. -/
theorem test_decode_condition :
    read .waitStart [1, 0b110] = some .condS ∧ read .rcvData [1, 0b110] = some .condSr ∧ read .rcvData [1, 0b101] = some .condP ∧
    ∀ w ∈ [0b000, 0b001, 0b010, 0b011, 0b100, 0b111], read .rcvData [1, w] = none := by decide

/-- 30 R84: 010 is a 0, 011 is a 1; SCL not rising is no bit. -/
theorem test_decode_bit :
    read .rcvData [2, 0b010] = some .bit0 ∧ read .rcvData [2, 0b011] = some .bit1 ∧
    ∀ w ∈ [0b000, 0b001, 0b100, 0b101, 0b110, 0b111], read .rcvData [2, w] = none := by decide

/-- 30 R86, bits `1010000 r a` for `ADDR = 1010000`: 0x140, 0x142; another address is a miss. -/
theorem test_decode_address :
    read .rcvAddress [3, 0b01000000, 0b1] = some .addrW ∧ read .rcvAddress [3, 0b01000010, 0b1] = some .addrR ∧
    read .rcvAddress [3, 0b01000101, 0b1] = some (.addrMiss 0b10100010 true) ∧
    read .rcvAddress [3, 0b01000001, 0b1] = none := by decide

/-- 30 R87 to R89, by context (R91): the same nine bits 000000110 in four states. -/
theorem test_decode_frame_by_context :
    read .rcvOffset [3, 0b00000110, 0] = some (.offset 3) ∧ read .rcvData [3, 0b00000110, 0] = some (.wdata 3) ∧
    read .read [3, 0b00000110, 0] = some .rdataA ∧ read .read [3, 0b00000111, 0] = some .rdataN ∧
    read .rcvAddress [3, 0b00000110, 0] = some (.addrMiss 3 false) ∧
    read .waitStart [3, 0b00000110, 0] = some (.addrMiss 3 false) := by decide

/-- 30 R88: 0x5A is 01011010, so the word 010110100. -/
theorem test_decode_wdata : read .rcvData [3, 0b10110100, 0b0] = some (.wdata 0x5A) := by decide

/-- The states in the order of 30 R95. -/
def stateRows : List Instr :=
  [.waitStart, .rcvAddress, .ackAddress0, .ackAddress1, .ackAddress2, .rcvOffset, .ackOffset0, .ackOffset1,
   .ackOffset2, .rcvData, .ackData0, .ackData1, .ackData2, .read, .ackRead]

/-- 30 R95: the fifteen numbers; 15 and above are no state. -/
theorem test_decode_state :
    (List.range 17).map (fun n => read .waitStart [4, BitVec.ofNat 8 n]) = stateRows.map some ++ [none, none] := by
  decide +kernel

/-- The EVERY_TICK rows in the table's order, the first twenty (log 17). -/
def firstRows : List Instr :=
  [.syncStage1, .syncStage2, .sampleCount, .sampleCapture, .edgeHistory, .sclRising, .sclFalling, .sdaRising,
   .sdaFalling, .startDetect, .stopDetect, .countClear, .countWrap, .countInc, .shiftIn, .shiftHold,
   .byteComplete, .outBit, .dataDrv, .dataBit]

theorem test_decode_everyTick_low :
    (List.range 20).map (fun n => read .read [5, BitVec.ofNat 8 n]) = firstRows.map some := by decide +kernel

/-- The remaining nineteen. -/
def lastRows : List Instr :=
  [.ackDrive, .sdaOe, .sdaO, .sclOe, .sclO, .masterAck, .addrMatch, .directionCapture, .startOverride, .stopOverride,
   .stateCommit, .offsetLoad, .offsetInc, .offsetHold, .memAddr, .memWrite, .memRead, .tickStep, .reset]

/-- With the numbers past the last row. -/
theorem test_decode_everyTick_high :
    (List.range 21).map (fun n => read .read [5, BitVec.ofNat 8 (n + 20)]) = lastRows.map some ++ [none, none] := by
  decide +kernel

/-- Every rejection has its name. -/
theorem test_decode_rejections :
    decode cfg4 .read [] = .error .emptyWord ∧ decode cfg4 .read [1] = .error .truncated ∧
    decode cfg4 .read [3, 0] = .error .truncated ∧ decode cfg4 .read [0, 0] = .error .unknownFormat ∧
    decode cfg4 .read [1, 7] = .error .noCondition ∧ decode cfg4 .read [2, 0] = .error .noBit ∧
    decode cfg4 .read [3, 0, 2] = .error .strayBits ∧ decode cfg4 .rcvData [3, 1, 0] = .error .ackNotDriven ∧
    decode cfg4 .rcvOffset [3, 1, 0] = .error .ackNotDriven ∧ decode cfg4 .read [4, 15] = .error .noState ∧
    decode cfg4 .read [5, 39] = .error .noOperation :=
  ⟨rfl, rfl, rfl, rfl, rfl, rfl, rfl, rfl, rfl, rfl, rfl⟩

/-- Words of spec/opcode_table.json: an address byte above its acknowledge slot, a state number, a row without bits. -/
theorem test_decodeTableWord :
    decodeTableWord 16 0x140 = some .addrW ∧ decodeTableWord 16 0x142 = some .addrR ∧
    decodeTableWord 16 0x145 = some (.addrMiss 0xA2 true) ∧ decodeTableWord 8 13 = some .read ∧
    decodeTableWord 8 15 = none ∧ decodeTableWord 0 0 = some .tickStep := by decide +kernel

/-- A word placed for the fetch is what the next step runs: ADDR_W on the bench ends in RCV_OFFSET (47 R214). -/
theorem test_withFetchWord_frame :
    seen (step ((bench 200 baseRegs).withFetchWord 16 0x140)) (fun t =>
      t.regs.state == .rcvOffset && t.wire == 0x140 && t.queue == []) = true := by decide +kernel

/-- Right after reset as well, where the inputs of the ticks are free values: the step answers a next state. -/
theorem test_withFetchWord_reset : seen (step (State.reset.withFetchWord 16 0x140)) (fun _ => true) = true := rfl

/-- The same for a state number: the tick of ACK_ADDRESS0 with SCL low (as at reset) goes to ACK_ADDRESS1 (44 R164). -/
theorem test_withFetchWord_state :
    seen (step (State.reset.withFetchWord 8 2)) (fun t => t.regs.state == .ackAddress1 && t.drawn == 1) = true := by decide +kernel

/-- Bytes that are no operation are dropped, and the core performs the tick of its state (log 16). -/
theorem test_undecodable_queue : step { base with queue := [9, 9] } = step base := rfl

/-! ### Conditions and bits, performed on the raw lines -/

/-- V44-2, first row: START from WAIT_START clears a counter left at 5. -/
theorem test_condS :
    seen (exec .condS (bench 20 { baseRegs with bitCount := 5, value := 0x2A, offset := 9 }))
      (fun t => t.regs.state == .rcvAddress && t.regs.bitCount == 0 && t.regs.value == 0x2A && t.regs.offset == 9 &&
        !t.regs.sda && t.ahead.length == 12) = true := by decide +kernel

/-- V44-2: START from READ with the output latch driving a 1: no other register changes but those of the line. -/
theorem test_condSr :
    seen (exec .condSr (bench 20 { baseRegs with
        state := .read, bitCount := 5, value := 0x2A, offset := 9, isRead := true, dataDrv := true, dataBit := true }))
      (fun t => t.regs == { baseRegs with
        state := .rcvAddress, value := 0x2A, offset := 9, isRead := true, dataBit := true, sdaFf1 := false, sdaFf2 := false,
        sda := false, sdaPrev := false }) = true := by decide +kernel

/-- V44-2: STOP from READ; the counter is not cleared. -/
theorem test_condP :
    seen (exec .condP (benchLow 20 { baseRegs with
        state := .read, bitCount := 5, value := 0x2A, offset := 9, isRead := true, dataDrv := true, dataBit := true }))
      (fun t => t.regs.state == .waitStart && t.regs.bitCount == 5 && t.regs.value == 0x2A && !t.regs.dataDrv &&
        t.regs.isRead && t.regs.sda) = true := by decide +kernel

/-- 95_test_vectors.md, program P1, ticks 1224 to 1320: after `W 03 A` the rising SCL edge that precedes P shifts a 0 in (0x03 to
0x06, `bit_count` 0 to 1), and the STOP itself keeps both (47 R213). -/
theorem test_condP_after_frame :
    seen (exec .condP (benchSclLow 40 { baseRegs with state := .rcvData, value := 0x03, offset := 3 }))
      (fun t => t.regs.state == .waitStart && t.regs.bitCount == 1 && t.regs.value == 0x06 && t.regs.offset == 3) = true := by
  decide +kernel

/-- V42-4: a 0 shifted into 0xFF, bit 7 dropped. -/
theorem test_bit0 :
    seen (exec .bit0 (bench 20 { baseRegs with state := .rcvData, bitCount := 2, value := 0xFF }))
      (fun t => t.regs.value == 0xFE && t.regs.bitCount == 3 && t.regs.state == .rcvData) = true := by decide +kernel

/-- V42-3 and V44-1d: a 1 shifted into 0x50 completes the address byte 0xA1, which matches. -/
theorem test_bit1 :
    seen (exec .bit1 (bench 20 { baseRegs with state := .rcvAddress, bitCount := 7, value := 0x50 }))
      (fun t => t.regs.value == 0xA1 && t.regs.bitCount == 8 && t.regs.state == .ackAddress0 && t.regs.isRead) = true := by
  decide +kernel

/-- 41 R129, 30 R84: with a master that changes SDA as it releases SCL, a bit slot is a START, and START wins. -/
theorem test_bit0_as_start :
    seen (exec .bit0 { bench 20 { baseRegs with state := .rcvData, bitCount := 2, value := 0xFF } with
        pace := { hold := 8, setup := 0, high := 8, rest := 8 } })
      (fun t => t.regs.state == .rcvAddress && t.regs.bitCount == 0 && t.regs.value == 0xFF) = true := by decide +kernel

/-- 47 R222: a data frame cut by P after the bits 1 0 1 1 0: `value` has shifted five times, nothing is written. -/
theorem test_cut_by_stop :
    seen (runOps [Instr.bit1, .bit0, .bit1, .bit1, .bit0, .condP]
        (benchSclLow 100 { baseRegs with state := .rcvData, value := 0x10, offset := 16 }))
      (fun t => t.regs.state == .waitStart && t.regs.value == 0x16 && t.regs.bitCount == 5 && t.regs.offset == 16 &&
        t.mem == []) = true := by decide +kernel

/-! ### Frames, performed on the raw lines -/

/-- 47 R214: S and the address frame for a write, 0xA0 and an acknowledge: 0x140 on the wire. -/
theorem test_addrW :
    seen (runOps [Instr.condS, .addrW] (bench 200 { baseRegs with isRead := true }))
      (fun t => t.wire == 0x140 && t.regs.state == .rcvOffset && t.regs.value == 0xA0 && !t.regs.isRead &&
        t.regs.bitCount == 0 && t.bus == [] && t.ahead.length == 40) = true := by decide +kernel

/-- 47 R223, R155: the store busy for two ticks at slot 9: the frame stops with the master waiting and both lines held by the
core, takes those ticks one step each, and ends the same. -/
theorem test_addrW_stretched :
    seen (exec .addrW { benchLow 0 { baseRegs with state := .rcvAddress } with
        ahead := List.replicate 135 idle ++ [⟨true, true, true, false⟩, ⟨true, true, true, false⟩] ++ List.replicate 40 idle })
      (fun u => u.bus != [] && u.regs.state == .ackAddress1 && seen (runSteps 2 u) (fun v =>
        v.bus != [] && v.regs.state == .ackAddress1 && v.wires.sdaOe && v.wires.sclOe && seen (step v) (fun t =>
          t.bus == [] && t.regs.state == .rcvOffset && t.regs.value == 0xA0 && t.wire == 0x140))) = true := by decide +kernel

/-- 47 R215: the address frame for a read, 0xA1 and an acknowledge; bit 7 of the cell (0xFE here) is driven. -/
theorem test_addrR :
    seen (exec .addrR { benchLow 160 { baseRegs with state := .rcvAddress, offset := 3 } with mem := [(3, 0xFE)] })
      (fun t => t.wire == 0x142 && t.regs.state == .read && t.regs.isRead && t.regs.dataDrv && t.regs.dataBit) = true := by
  decide +kernel

/-- 93 U6: a third party that holds SDA low through the whole frame turns the address byte into 0x00, a miss; nobody drives a 1. -/
theorem test_addrR_third_party :
    seen (exec .addrR { benchLow 0 { baseRegs with state := .rcvAddress } with
        inputs := ⟨true, false, false, false⟩, ahead := List.replicate 160 ⟨true, false, false, false⟩ })
      (fun t => t.wire == 0 && t.regs.state == .waitStart && t.regs.value == 0x00) = true := by decide +kernel

/-- 47 R216: address 0x51, nobody answers: 0x145 on the wire. -/
theorem test_addrMiss :
    seen (exec (.addrMiss 0xA2 true) (benchLow 160 { baseRegs with state := .rcvAddress }))
      (fun t => t.wire == 0x145 && t.regs.state == .waitStart && t.regs.value == 0xA2) = true := by decide +kernel

/-- 70 R250: a reset in the middle of a frame drops it. -/
theorem test_addrMiss_reset :
    seen (exec (.addrMiss 0xA2 true) { benchLow 0 { baseRegs with state := .rcvAddress, offset := 9 } with
        ahead := List.replicate 60 idle ++ [⟨true, true, false, true⟩] ++ List.replicate 100 idle })
      (fun t => t.regs.state == .waitStart && t.regs.offset == 0 && t.regs.value == 0 && t.regs.bitCount == 0) = true := by
  decide +kernel

/-- 47 R217: offset byte 3. -/
theorem test_offset :
    seen (exec (.offset 0x03) (benchSclLow 160 { baseRegs with state := .rcvOffset, offset := 127 }))
      (fun t => t.wire == 0x006 && t.regs.offset == 3 && t.regs.state == .rcvData) = true := by decide +kernel

/-- 45 R190 (V45-1) through a whole frame: 0x83 mod 128 is 3. -/
theorem test_offset_wraps :
    seen (exec (.offset 0x83) (benchSclLow 160 { baseRegs with state := .rcvOffset, offset := 64 })) (fun t => t.regs.offset == 3) = true := by
  decide +kernel

/-- 47 R218: data byte 0x5A at offset 0x10: 0x0B4 on the wire, the offset incremented. -/
theorem test_wdata :
    seen (exec (.wdata 0x5A) (benchSclLow 160 { baseRegs with state := .rcvData, offset := 0x10 }))
      (fun t => t.wire == 0x0B4 && t.regs.offset == 0x11 && t.regs.state == .rcvData) = true := by decide +kernel

/-- 47 R219: `Mem[127] = 0x7E` read and acknowledged: 0x0FC on the wire, the offset wraps to 0. -/
theorem test_rdataA :
    seen (exec .rdataA { benchSclLow 160 { baseRegs with state := .read, offset := 127, isRead := true } with
        mem := [(0, 0x01), (127, 0x7E)] })
      (fun t => t.wire == 0x0FC && t.regs.offset == 0 && t.regs.state == .read && t.regs.dataDrv && !t.regs.dataBit) = true := by
  decide +kernel

/-- 47 R220: `Mem[3] = 0x16` read and not acknowledged: 0x02D on the wire, the offset kept. -/
theorem test_rdataN :
    seen (exec .rdataN { benchSclLow 160 { baseRegs with state := .read, offset := 3, isRead := true } with mem := [(3, 0x16)] })
      (fun t => t.wire == 0x02D && t.regs.offset == 3 && t.regs.state == .waitStart && !t.regs.dataDrv) = true := by
  decide +kernel

/-! ### The states: single ticks of V44-1 and its neighbours -/

/-- V44-1a: WAIT_START stays, even with a rising edge; everything that changes is `scl_prev` and the sample counter. -/
theorem test_waitStart :
    seen (exec .waitStart (put { baseRegs with sclPrev := false })) (fun t => t.regs == { baseRegs with sampCount := 1 }) = true := by
  decide

/-- V44-1d: a match in the read direction. -/
theorem test_rcvAddress_match :
    seen (exec .rcvAddress (put { baseRegs with state := .rcvAddress, bitCount := 8, value := 0xA1 }))
      (fun t => t.regs == { baseRegs with
        state := .ackAddress0, bitCount := 8, value := 0xA1, isRead := true, sampCount := 1 }) = true := by decide

/-- V44-1f: a mismatch by bit 7; the direction is not touched. -/
theorem test_rcvAddress_mismatch :
    seen (exec .rcvAddress (put { baseRegs with state := .rcvAddress, bitCount := 8, value := 0x20, isRead := true }))
      (fun t => t.regs == { baseRegs with bitCount := 8, value := 0x20, isRead := true, sampCount := 1 }) = true := by decide

/-- V44-1g and V44-1h. -/
theorem test_ackAddress0 :
    seen (exec .ackAddress0 (put { baseRegs with state := .ackAddress0, bitCount := 8 }))
      (fun t => t.regs.state == .ackAddress0 && !t.wires.sdaOe) = true ∧
    seen (exec .ackAddress0 (put { baseRegs with state := .ackAddress0, bitCount := 8, scl := false, sclPrev := false }))
      (fun t => t.regs.state == .ackAddress1 && !t.wires.sdaOe) = true := by decide

/-- V44-1j: SCL rises, the counter wraps. -/
theorem test_ackAddress1 :
    seen (exec .ackAddress1 (put { baseRegs with
      state := .ackAddress1, bitCount := 8, value := 0xA0, sclPrev := false, sda := false, sdaPrev := false }))
      (fun t => t.regs.state == .ackAddress2 && t.regs.bitCount == 0 && t.wires.sdaOe && t.regs.value == 0xA0) = true := by decide

/-- V44-1l and V44-1m: the branch on the direction. -/
theorem test_ackAddress2 :
    seen (exec .ackAddress2 (put { baseRegs with state := .ackAddress2, scl := false, sclPrev := false, sda := false, sdaPrev := false }))
      (fun t => t.regs.state == .rcvOffset && t.wires.sdaOe) = true ∧
    seen (exec .ackAddress2 (put { baseRegs with
      state := .ackAddress2, isRead := true, scl := false, sclPrev := false, sda := false, sdaPrev := false }))
      (fun t => t.regs.state == .read && t.wires.sdaOe) = true := by decide

/-- V44-1o: the offset is loaded. -/
theorem test_rcvOffset :
    seen (exec .rcvOffset (put { baseRegs with state := .rcvOffset, bitCount := 8, value := 0x03, offset := 127 }))
      (fun t => t.regs == { baseRegs with state := .ackOffset0, bitCount := 8, value := 0x03, offset := 3, sampCount := 1 }) = true := by
  decide

/-- V44-3b: byte complete and STOP: the offset is loaded all the same. -/
theorem test_rcvOffset_stop :
    seen (exec .rcvOffset (put { baseRegs with state := .rcvOffset, bitCount := 8, value := 0x21, offset := 5, sdaPrev := false }))
      (fun t => t.regs.state == .waitStart && t.regs.offset == 33) = true := by decide

/-- V44-1p. -/
theorem test_ackOffset0 :
    seen (exec .ackOffset0 (put { baseRegs with state := .ackOffset0, bitCount := 8, offset := 3, scl := false, sclPrev := false }))
      (fun t => t.regs.state == .ackOffset1 && t.regs.offset == 3) = true := by decide

/-- V44-1q. -/
theorem test_ackOffset1 :
    seen (exec .ackOffset1 (put { baseRegs with
      state := .ackOffset1, bitCount := 8, value := 0x03, offset := 3, sclPrev := false, sda := false, sdaPrev := false }))
      (fun t => t.regs.state == .ackOffset2 && t.regs.bitCount == 0 && t.regs.value == 0x03 && t.wires.sdaOe) = true := by decide

/-- V44-1r: to RCV_DATA, not RCV_ADDRESS. -/
theorem test_ackOffset2 :
    seen (exec .ackOffset2 (put { baseRegs with state := .ackOffset2, offset := 3, scl := false, sclPrev := false, sda := false, sdaPrev := false }))
      (fun t => t.regs.state == .rcvData && t.regs.offset == 3) = true := by decide

/-- The core with a complete data byte. -/
def byteReady (value : Byte) (offset : Nat) (sda : Bit) : State :=
  put { baseRegs with state := .rcvData, bitCount := 8, value := value, offset := offset, sda := sda }

/-- What a write leaves in the addressed cell of an empty list. -/
theorem read_nextMem (s : State) (h : s.mem = []) (hs : strobes .memWe s = true) : (nextMem s).read s.regs.offset = s.regs.value := by
  rw [nextMem, if_pos hs, h]
  exact (Memory.read_write Memory.wf_nil _ _ _).trans (if_pos rfl)

/-- V44-1t: the byte is written at the old offset. -/
theorem test_rcvData :
    ∃ t, exec .rcvData (byteReady 0x5A 16 true) = .next t ∧
      t.regs.state = .ackData0 ∧ t.wires.memWe = true ∧ t.mem.read 16 = 0x5A :=
  ⟨_, tick_next (withState .rcvData (byteReady 0x5A 16 true)), rfl, rfl, read_nextMem (withState .rcvData (byteReady 0x5A 16 true)) rfl rfl⟩

/-- V44-3a: byte complete and START: the byte is written all the same. -/
theorem test_rcvData_start :
    ∃ t, exec .rcvData (byteReady 0x77 5 false) = .next t ∧
      t.regs.state = .rcvAddress ∧ t.regs.bitCount = 0 ∧ t.mem.read 5 = 0x77 :=
  ⟨_, tick_next (withState .rcvData (byteReady 0x77 5 false)), rfl, rfl, read_nextMem (withState .rcvData (byteReady 0x77 5 false)) rfl rfl⟩

/-- V44-1u. -/
theorem test_ackData0 :
    seen (exec .ackData0 (put { baseRegs with state := .ackData0, bitCount := 8, offset := 16, scl := false, sclPrev := false }))
      (fun t => t.regs.state == .ackData1 && t.regs.offset == 16) = true := by decide

/-- V44-1v: SCL low and the store busy: both lines held. -/
theorem test_ackData1_stretch :
    seen (exec .ackData1 { put { baseRegs with
        state := .ackData1, bitCount := 8, value := 0x5A, offset := 16, scl := false, sclPrev := false, sda := false, sdaPrev := false } with
      inputs := ⟨false, false, true, false⟩ })
      (fun t => t.regs.state == .ackData1 && t.wires.sdaOe && t.wires.sclOe && !t.wires.memWe && !t.regs.sclFf1) = true := by decide

/-- V44-1w. -/
theorem test_ackData1_rise :
    seen (exec .ackData1 (put { baseRegs with
      state := .ackData1, bitCount := 8, offset := 16, sclPrev := false, sda := false, sdaPrev := false }))
      (fun t => t.regs.state == .ackData2 && t.regs.bitCount == 0 && t.regs.offset == 16) = true := by decide

/-- V44-1x and V44-1y: the increment, and its wrap at 127. -/
theorem test_ackData2 :
    seen (exec .ackData2 (put { baseRegs with state := .ackData2, offset := 16, scl := false, sclPrev := false, sda := false, sdaPrev := false }))
      (fun t => t.regs.state == .rcvData && t.regs.offset == 17) = true ∧
    seen (exec .ackData2 (put { baseRegs with state := .ackData2, offset := 127, scl := false, sclPrev := false, sda := false, sdaPrev := false }))
      (fun t => t.regs.state == .rcvData && t.regs.offset == 0) = true := by decide

/-- V42-12: bit 3 of 0x16 is 0: latched and driven; the port still shows the old latch. -/
theorem test_read_drives :
    seen (exec .read { put { baseRegs with
        state := .read, bitCount := 4, offset := 3, scl := false, sclPrev := false, dataDrv := true, dataBit := true } with
      mem := [(3, 0x16)] })
      (fun t => !t.regs.dataBit && t.regs.dataDrv && t.regs.state == .read && !t.wires.sdaOe) = true := by decide

/-- V42-15: the byte is complete: stop driving. -/
theorem test_read_complete :
    seen (exec .read (put { baseRegs with state := .read, bitCount := 8, offset := 3, scl := false, sclPrev := false, dataDrv := true }))
      (fun t => t.regs.state == .ackRead && !t.regs.dataDrv && t.wires.sdaOe) = true := by decide

/-- V43-3a and V43-3b: a master ACK increments with wrap, a NACK keeps the offset. -/
theorem test_ackRead :
    seen (exec .ackRead (put { baseRegs with
      state := .ackRead, bitCount := 8, offset := 127, sclPrev := false, sda := false, sdaPrev := false }))
      (fun t => t.regs.state == .read && t.regs.offset == 0 && t.regs.bitCount == 0) = true ∧
    seen (exec .ackRead (put { baseRegs with state := .ackRead, bitCount := 8, offset := 127, sclPrev := false }))
      (fun t => t.regs.state == .waitStart && t.regs.offset == 127 && t.regs.bitCount == 0) = true := by decide

/-- V43-3d: SCL high without an edge: the level alone is not sampled. -/
theorem test_ackRead_no_edge :
    seen (exec .ackRead (put { baseRegs with state := .ackRead, bitCount := 8, offset := 127, sda := false, sdaPrev := false }))
      (fun t => t.regs.state == .ackRead && t.regs.offset == 127) = true := by decide

/-! ### EVERY_TICK operations -/

/-- 40 R110, R111: each stage takes the one before it. -/
theorem test_syncStages :
    seen (exec .syncStage1 { base with inputs := ⟨false, true, false, false⟩ })
      (fun t => t.regs == { baseRegs with sclFf1 := false }) = true ∧
    seen (exec .syncStage2 (put { baseRegs with sdaFf1 := false }))
      (fun t => t.regs == { baseRegs with sdaFf1 := false, sdaFf2 := false }) = true := by decide

/-- 40 R112, R113 with `K = 4`: the counter wraps at 3, and only that tick captures. -/
theorem test_sampling :
    seen (exec .sampleCount (put { baseRegs with sampCount := 3 })) (fun t => t.regs.sampCount == 0) = true ∧
    seen (exec .sampleCount (put { baseRegs with sampCount := 2 })) (fun t => t.regs.sampCount == 3) = true ∧
    seen (exec .sampleCapture (put { baseRegs with sampCount := 3, sclFf2 := false })) (fun t => !t.regs.scl && t.regs.sda) = true ∧
    seen (exec .sampleCapture (put { baseRegs with sampCount := 2, sclFf2 := false })) (fun t => t.regs.scl) = true := by decide

/-- 41 R120. -/
theorem test_edgeHistory :
    seen (exec .edgeHistory (put { baseRegs with scl := false })) (fun t => !t.regs.sclPrev && t.regs.sdaPrev) = true := by decide

/-- 41 R121 to R124. -/
theorem test_edges :
    seen (exec .sclRising (put { baseRegs with sclPrev := false })) (fun t => t.wires.sclRising) = true ∧
    seen (exec .sclFalling (put { baseRegs with scl := false })) (fun t => t.wires.sclFalling) = true ∧
    seen (exec .sdaRising (put { baseRegs with sdaPrev := false })) (fun t => t.wires.sdaRising) = true ∧
    seen (exec .sdaFalling (put { baseRegs with sda := false })) (fun t => t.wires.sdaFalling) = true := by decide

/-- 41 R125, R126: SDA moving with SCL high; with SCL low it is neither. -/
theorem test_framing :
    seen (exec .startDetect (put { baseRegs with sda := false })) (fun t => t.wires.start) = true ∧
    seen (exec .startDetect (put { baseRegs with sda := false, scl := false })) (fun t => !t.wires.start) = true ∧
    seen (exec .stopDetect (put { baseRegs with sdaPrev := false })) (fun t => t.wires.stop) = true ∧
    seen (exec .stopDetect (put { baseRegs with sdaPrev := false, scl := false })) (fun t => !t.wires.stop) = true := by decide

/-- V42-2: START together with a rising edge: the counter is cleared and nothing is shifted. -/
theorem test_countClear :
    seen (exec .countClear (put { baseRegs with state := .rcvOffset, bitCount := 5, sda := false, sclPrev := false }))
      (fun t => t.regs.bitCount == 0) = true ∧
    seen (exec .shiftIn (put { baseRegs with state := .rcvOffset, bitCount := 5, value := 0x2A, sda := false, sclPrev := false }))
      (fun t => t.regs.value == 0x2A) = true := by decide

/-- V42-7 and V42-8: the ninth edge wraps in any state, a count below 8 is held in WAIT_START. -/
theorem test_countWrap :
    seen (exec .countWrap (put { baseRegs with bitCount := 8, sclPrev := false })) (fun t => t.regs.bitCount == 0) = true ∧
    seen (exec .countWrap (put { baseRegs with bitCount := 3, sclPrev := false })) (fun t => t.regs.bitCount == 3) = true := by decide

/-- V42-5 and V42-9: counted in READ, held in ACK_DATA2. -/
theorem test_countInc :
    seen (exec .countInc (put { baseRegs with state := .read, bitCount := 3, sclPrev := false })) (fun t => t.regs.bitCount == 4) = true ∧
    seen (exec .countInc (put { baseRegs with state := .ackData2, bitCount := 0, sclPrev := false }))
      (fun t => t.regs.bitCount == 0) = true := by decide

/-- V42-3 and V42-5: shifted in RCV_ADDRESS, not in READ. -/
theorem test_shiftIn :
    seen (exec .shiftIn (put { baseRegs with state := .rcvAddress, bitCount := 7, value := 0x50, sclPrev := false }))
      (fun t => t.regs.value == 0xA1) = true ∧
    seen (exec .shiftIn (put { baseRegs with state := .read, bitCount := 3, value := 0xA1, sclPrev := false }))
      (fun t => t.regs.value == 0xA1) = true := by decide

/-- 42 R134. -/
theorem test_shiftHold :
    seen (exec .shiftHold (put { baseRegs with bitCount := 4, value := 0x0F })) (fun t => t.regs.bitCount == 4 && t.regs.value == 0x0F) = true := by
  decide

/-- 42 R135, R137: complete at 8 only; `out_bit` is bit `7 - bit_count` of 0x16, and 0 when complete. -/
theorem test_outgoing :
    seen (exec .byteComplete (put { baseRegs with bitCount := 7 })) (fun t => !t.wires.byteComplete) = true ∧
    seen (exec .outBit { put { baseRegs with bitCount := 3, offset := 3 } with mem := [(3, 0x16)] }) (fun t => t.wires.outBit) = true ∧
    seen (exec .outBit { put { baseRegs with bitCount := 8, offset := 3 } with mem := [(3, 0xFF)] }) (fun t => !t.wires.outBit) = true := by
  decide

/-- V42-16 and V42-15: the drive begins, and ends. -/
theorem test_dataDrv :
    seen (exec .dataDrv (put { baseRegs with state := .read, scl := false, sclPrev := false })) (fun t => t.regs.dataDrv) = true ∧
    seen (exec .dataDrv (put { baseRegs with state := .read, bitCount := 8, scl := false, sclPrev := false, dataDrv := true }))
      (fun t => !t.regs.dataDrv) = true := by decide

/-- V42-13 and V42-14: bit 4 of 0x16 latched with SCL low, frozen with SCL high. -/
theorem test_dataBit :
    seen (exec .dataBit { put { baseRegs with state := .read, bitCount := 3, offset := 3, scl := false, sclPrev := false } with
      mem := [(3, 0x16)] }) (fun t => t.regs.dataBit) = true ∧
    seen (exec .dataBit { put { baseRegs with state := .read, bitCount := 4, offset := 3, dataBit := true } with
      mem := [(3, 0x16)] }) (fun t => t.regs.dataBit) = true := by decide

/-- V43-1, rows ACK_DATA1 and ACK_DATA2 (`store_busy = 1`, `scl = 0`). -/
theorem test_drive_ports :
    seen (exec .sclOe { put { baseRegs with state := .ackData1, scl := false } with inputs := ⟨false, true, true, false⟩ })
      (fun t => t.wires.sclOe) = true ∧
    seen (exec .sclOe { put { baseRegs with state := .ackData2, scl := false } with inputs := ⟨false, true, true, false⟩ })
      (fun t => !t.wires.sclOe) = true ∧
    seen (exec .ackDrive (put { baseRegs with state := .ackData2 })) (fun t => t.wires.ackDrive) = true ∧
    seen (exec .sdaO base) (fun t => !t.wires.sdaO) = true ∧ seen (exec .sclO base) (fun t => !t.wires.sclO) = true := by decide

/-- V43-2: only a driven 0 pulls the line. -/
theorem test_sdaOe :
    [(false, false), (false, true), (true, false), (true, true)].map (fun p =>
      seen (exec .sdaOe (put { baseRegs with state := .read, dataDrv := p.1, dataBit := p.2 })) (fun t => t.wires.sdaOe)) =
      [false, false, true, false] := by decide

/-- 43 R150 (V43-3a, V43-3b). -/
theorem test_masterAck :
    seen (exec .masterAck (put { baseRegs with sclPrev := false, sda := false })) (fun t => t.wires.masterAck && !t.wires.masterNack) = true ∧
    seen (exec .masterAck (put { baseRegs with sclPrev := false })) (fun t => !t.wires.masterAck && t.wires.masterNack) = true := by decide

/-- 44 R161 (V44-1c, V44-1e). -/
theorem test_addrMatch :
    seen (exec .addrMatch (put { baseRegs with value := 0xA0 })) (fun t => t.wires.addrMatch) = true ∧
    seen (exec .addrMatch (put { baseRegs with value := 0xA3 })) (fun t => !t.wires.addrMatch) = true := by decide

/-- 44 R180 (V44-1c): the direction becomes write. -/
theorem test_directionCapture :
    seen (exec .directionCapture (put { baseRegs with state := .rcvAddress, bitCount := 8, value := 0xA0, isRead := true }))
      (fun t => !t.regs.isRead) = true := by decide

/-- 44 R177 to R179 (V44-2, row ACK_DATA1). -/
theorem test_overrides :
    seen (exec .startOverride (put { baseRegs with state := .ackData1, bitCount := 5, sda := false }))
      (fun t => t.regs.state == .rcvAddress && t.regs.bitCount == 0) = true ∧
    seen (exec .stopOverride (put { baseRegs with state := .ackData1, bitCount := 5, sdaPrev := false }))
      (fun t => t.regs.state == .waitStart && t.regs.bitCount == 5) = true ∧
    seen (exec .stateCommit (put { baseRegs with state := .ackData1, bitCount := 5 }))
      (fun t => t.regs.state == .ackData2 && t.regs.bitCount == 5) = true := by decide

/-- V45-2 to V45-5: the load for three sizes of the store. -/
theorem test_offsetLoad :
    seen (exec .offsetLoad { put { baseRegs with state := .rcvOffset, bitCount := 8, value := 0xFF } with
      cfg := { K := 4, addr := 0x50, N := 100 } }) (fun t => t.regs.offset == 55) = true ∧
    seen (exec .offsetLoad { put { baseRegs with state := .rcvOffset, bitCount := 8, value := 0xFF } with
      cfg := { K := 4, addr := 0x50, N := 256 } }) (fun t => t.regs.offset == 255) = true ∧
    seen (exec .offsetLoad { put { baseRegs with state := .rcvOffset, bitCount := 8, value := 0x07 } with
      cfg := { K := 4, addr := 0x50, N := 1 } }) (fun t => t.regs.offset == 0) = true := by decide

/-- V45-4: the increment at `N - 1` with `N = 100`; with SCL high there is none. -/
theorem test_offsetInc :
    seen (exec .offsetInc { put { baseRegs with state := .ackData2, offset := 99, scl := false, sclPrev := false } with
      cfg := { K := 4, addr := 0x50, N := 100 } }) (fun t => t.regs.offset == 0) = true ∧
    seen (exec .offsetInc (put { baseRegs with state := .ackData2, offset := 99 })) (fun t => t.regs.offset == 99) = true := by decide

/-- V45-8 and 45 R193. -/
theorem test_offsetHold :
    seen (exec .offsetHold (put { baseRegs with offset := 77 })) (fun t => t.regs.offset == 77) = true ∧
    seen (exec .memAddr (put { baseRegs with offset := 77 })) (fun t => t.wires.memAddr == 77) = true := by decide

/-- The start of V45-7. -/
def busyByteReady : State := { byteReady 0xC4 3 true with inputs := ⟨true, true, true, false⟩ }

/-- V45-7: a write with the store busy is issued all the same. -/
theorem test_memWrite :
    ∃ t, exec .memWrite busyByteReady = .next t ∧
      t.wires.memWe = true ∧ t.wires.memWdata = 0xC4 ∧ t.mem.read 3 = 0xC4 :=
  ⟨_, rfl, rfl, rfl, read_nextMem busyByteReady rfl rfl⟩

/-- 45 R195: the answer is used in a tick of READ with SCL low, and ignored in any other. -/
theorem test_memRead :
    seen (exec .memRead { put { baseRegs with state := .read, bitCount := 3, offset := 3, scl := false, sclPrev := false } with
      mem := [(3, 0x16)] }) (fun t => t.regs.dataBit && t.wires.memRdata == 0x16) = true ∧
    seen (exec .memRead { put { baseRegs with offset := 3 } with mem := [(3, 0xFF)] })
      (fun t => !t.regs.dataBit && t.wires.memRdata == 0xFF) = true := by decide

/-- V44-3d: SCL rises together with SDA falling in ACK_READ: START wins the state, the master's ACK still increments. -/
theorem test_tickStep :
    seen (exec .tickStep (put { baseRegs with state := .ackRead, bitCount := 8, offset := 9, sclPrev := false, sda := false }))
      (fun t => t.regs == { baseRegs with
        state := .rcvAddress, offset := 10, sda := false, sdaPrev := false, sampCount := 1 }) = true := by decide

/-- 70 R250, R251: whatever the core was doing, the registers are `R(0)` and the lines are released. -/
theorem test_reset :
    seen (exec .reset (put { baseRegs with state := .ackData1, bitCount := 5, value := 0x2A, offset := 9, dataDrv := true }))
      (fun t => t.regs == { baseRegs with
        sclFf1 := false, sclFf2 := false, sdaFf1 := false, sdaFf2 := false, scl := false, sda := false, sclPrev := false,
        sdaPrev := false } && !t.wires.sdaOe) = true := by decide

/-- 93 U12: the cell of a write cut by a reset holds the free value of that reset, and the next reset has another. -/
theorem test_reset_cutsWrite :
    ∃ t, exec .reset (byteReady 0x5A 3 true) = .next t ∧ t.mem.read 3 = Config.cutWrite 0 ∧ t.resets = 1 :=
  ⟨_, rfl, (resetMem_read (s := byteReady 0x5A 3 true) (by decide) 3).trans (if_pos (by decide)), rfl⟩

/-- 10 R39: reset of the default configuration. -/
theorem test_reset_state :
    State.reset.regs.state = .waitStart ∧ State.reset.cfg.K = 64 ∧ State.reset.cfg.addr = 0x50 ∧ State.reset.cfg.N = 128 := by decide

/-! ### Witnesses: states and operands that meet the hypotheses of each obligation, clause by clause -/

theorem witness_DecodeOfEncodeIsTheOperation :
    Instr.wf cfg4 .rcvAddress (.addrMiss 0xA2 true) = true ∧ Instr.wf cfg4 .read .rdataN = true ∧
    Instr.wf cfg4 .rcvData (.wdata 0xFF) = true := by decide

theorem witness_DecodedOperationIsWellFormed : decode cfg4 .rcvOffset [3, 6, 0, 9] = .ok (.offset 3, [9]) := rfl

/-- A frame where no bits are counted, with the core's own address (log 19). -/
theorem witness_DecodedOperationIsWellFormed_ignored :
    decode cfg4 .waitStart [3, 0x40, 1] = .ok (.addrMiss 0xA0 false, []) ∧ cfg4.addresses 0xA0 = true := by decide

/-- A core with TICK_STEP queued. -/
def queued : State := { base with queue := [5, 37] }

theorem witness_StepRunsTheDecodedOperation :
    queued.inputs.reset = false ∧ queued.bus = [] ∧ queued.queue ≠ [] ∧
    decode queued.cfg queued.regs.state queued.queue = .ok (.tickStep, []) := ⟨rfl, rfl, by decide, rfl⟩

/-- A core with P and the rest of another word queued. -/
def queuedStop : State := { base with queue := [1, 5, 4] }

theorem witness_StepRunsTheDecodedOperation_bus :
    queuedStop.inputs.reset = false ∧ queuedStop.bus = [] ∧ queuedStop.queue ≠ [] ∧
    decode queuedStop.cfg queuedStop.regs.state queuedStop.queue = .ok (.condP, [4]) := ⟨rfl, rfl, by decide, rfl⟩

/-- The last cell, the complete byte, the last count: the ends of the ranges of 10 R38. -/
def edge : State := put { baseRegs with sampCount := 3, bitCount := 8, offset := 127 }

theorem witness_StateRegisterSelectsTheOperation : edge.inputs.reset = false ∧ edge.bus = [] ∧ edge.queue = [] := by decide

theorem witness_StateRegisterSelectsTheOperation_undecodable :
    ({ edge with queue := [4, 15] } : State).inputs.reset = false ∧ ({ edge with queue := [4, 15] } : State).bus = [] ∧
    ∃ e, decode edge.cfg edge.regs.state [4, 15] = .error e := ⟨rfl, rfl, _, rfl⟩

theorem witness_ResetInputRunsReset : ({ base with inputs := ⟨true, true, false, true⟩ } : State).inputs.reset = true := rfl

theorem witness_EveryStepKeepsTheInvariants : Invariant edge ∧ Invariant base := by decide

theorem witness_EveryOperationCompletes : Invariant edge ∧ Invariant base := by decide

theorem witness_ConfigurationNeverChanges : (∃ t, exec .startOverride base = .next t) ∧ ∃ t, step base = .next t :=
  ⟨⟨_, rfl⟩, ⟨_, rfl⟩⟩

theorem witness_OutputLatchOperations :
    edge.regs.bitCount ≤ 8 ∧ base.regs.bitCount ≤ 8 := by decide

theorem witness_StoreOperations : edge.regs.bitCount ≤ 8 ∧ edge.mem.wf := by decide

theorem witness_ResetDuringOperation :
    (byteReady 0x5A 3 true).mem.wf ∧ ¬ ((byteReady 0x5A 3 true).regs.state = .rcvData ∧
      (byteReady 0x5A 3 true).regs.bitCount = 8 ∧ 4 = (byteReady 0x5A 3 true).regs.offset) := by decide

theorem witness_IdleBusAfterReset :
    (∀ inp ∈ List.replicate 4 idle, inp.sclIn = true ∧ inp.sdaIn = true) ∧ cfg1.K + 3 ≤ (List.replicate 4 idle).length := by decide

theorem witness_LineSampleLatency_between : (([] : List Inputs).length + 1) % cfg4.K ≠ 0 := by decide

theorem witness_LineSampleLatency_early :
    ((([] : List Inputs).length + 1) % cfg1.K = 0 ∧ ([] : List Inputs).length + 1 < 3) ∧
    ([idle].length + 1) % cfg1.K = 0 ∧ [idle].length + 1 < 3 := by decide

theorem witness_LineSampleLatency_late :
    ([idle, base.inputs].length + 1) % cfg1.K = 0 ∧ 3 ≤ [idle, base.inputs].length + 1 ∧
    [idle, base.inputs][[idle, base.inputs].length - 2]? = some idle := by decide

/-- At the end of a sample period, the stages holding other levels than the lines show. -/
def changingLines : State := put { baseRegs with sampCount := 3, sclFf2 := false, sdaFf2 := false, bitCount := 8, offset := 127 }

theorem witness_EveryTickKeepsR38 :
    TickInv changingLines ∧ (tickState (withInputs idle changingLines)).regs.scl ≠ changingLines.regs.scl ∧
    (tickState (withInputs idle changingLines)).regs.sda ≠ changingLines.regs.sda := by decide

theorem witness_HeldLevelIsCaptured :
    Invariant edge ∧ edge.cfg.K + 2 ≤ (List.replicate 6 idle).length ∧
    ∀ inp ∈ List.replicate 6 idle, inp.sclIn = true ∧ inp.sdaIn = true := by decide

theorem witness_PulsesNeedAChange :
    edge.regs.scl = edge.regs.sclPrev ∧ edge.regs.sda = edge.regs.sdaPrev := by decide

theorem witness_TickStepUpdatesEverything : edge.regs.bitCount ≤ 8 ∧ edge.mem.wf := by decide

theorem witness_RawLinesReachOnlyTheFirstStage :
    idle.storeBusy = (⟨false, false, false, false⟩ : Inputs).storeBusy := by decide

/-- A complete byte, waiting for the master's answer. -/
def answered : State := put { baseRegs with state := .ackRead, bitCount := 8, offset := 127, scl := false, sclPrev := false }

/-- The smallest divisor for which a tick `v + 2` has no capture before it, the counter at its start, both lines just seen to change
with the counter at 8. -/
def settling : State :=
  { put { baseRegs with state := .ackRead, bitCount := 8, offset := 127, sclPrev := false, sda := false } with
    cfg := { K := 3, addr := 0x50, N := 128 } }

theorem witness_CoreSettlesInTwoTicks :
    TickInv settling ∧ settling.regs.sampCount + 3 ≤ settling.cfg.K ∧ settling.cfg.K = 3 ∧
    settling.regs.scl ≠ settling.regs.sclPrev ∧ settling.regs.sda ≠ settling.regs.sdaPrev ∧
    (settling.regs.bitCount = 8 →
      settling.regs.state ≠ .ackAddress2 ∧ settling.regs.state ≠ .ackOffset2 ∧ settling.regs.state ≠ .ackData2) := by decide

theorem witness_CoreSettlesInTwoTicks_below :
    TickInv (put { baseRegs with state := .ackData2, bitCount := 7, sampCount := 1 }) ∧
    (put { baseRegs with state := .ackData2, bitCount := 7, sampCount := 1 }).regs.sampCount + 3 ≤ cfg4.K ∧
    (put { baseRegs with state := .ackData2, bitCount := 7, sampCount := 1 }).regs.bitCount ≠ 8 := by decide

theorem witness_WaitStartIdles : noOverride edge ∧ edge.regs.dataDrv = false := by decide

/-- An address byte of the given value, complete or not. -/
def addressByte (value : Byte) (bitCount : Nat) : State :=
  put { baseRegs with state := .rcvAddress, bitCount := bitCount, value := value }

theorem witness_AddressByteDecides_incomplete :
    noOverride (addressByte 0x50 7) ∧ (addressByte 0x50 7).regs.dataDrv = false ∧
    (addressByte 0x50 7).regs.bitCount ≠ 8 := by decide

theorem witness_AddressByteDecides_mismatch :
    noOverride (addressByte 0xA2 8) ∧ (addressByte 0xA2 8).regs.dataDrv = false ∧
    (addressByte 0xA2 8).regs.bitCount = 8 ∧
    (addressByte 0xA2 8).regs.value.toNat / 2 ≠ (addressByte 0xA2 8).cfg.addr.toNat := by decide

theorem witness_AddressByteDecides_match :
    noOverride (addressByte 0xA1 8) ∧ (addressByte 0xA1 8).regs.dataDrv = false ∧
    (addressByte 0xA1 8).regs.bitCount = 8 ∧
    (addressByte 0xA1 8).regs.value.toNat / 2 = (addressByte 0xA1 8).cfg.addr.toNat := by decide

theorem witness_AcknowledgeWaitsForSclLow :
    noOverride answered ∧ answered.regs.dataDrv = false ∧ answered.regs.scl = false := by decide

theorem witness_AcknowledgeDrivesUntilSclHigh :
    noOverride edge ∧ edge.regs.dataDrv = false ∧ edge.regs.scl = true := by decide

theorem witness_AcknowledgeEndsAtSclLow :
    noOverride answered ∧ answered.regs.dataDrv = false ∧ answered.regs.scl = false := by decide

theorem witness_OffsetByteIsLoaded :
    noOverride edge ∧ edge.regs.dataDrv = false ∧ edge.regs.bitCount = 8 := by decide

theorem witness_DataByteIsWritten :
    (byteReady 0x5A 127 true).mem.wf ∧
    noOverride (byteReady 0x5A 127 true) ∧ (byteReady 0x5A 127 true).regs.dataDrv = false ∧
    (byteReady 0x5A 127 true).regs.bitCount = 8 := by decide

/-- A read with SCL at the level, `bit_count` bits along. -/
def reading (scl : Bit) (bitCount : Nat) : State :=
  put { baseRegs with state := .read, bitCount := bitCount, offset := 127, scl := scl, sclPrev := scl, dataDrv := true }

theorem witness_ReadDrivesTheAddressedBit_high :
    (reading true 8).regs.bitCount ≤ 8 ∧ noOverride (reading true 8) ∧
    (reading true 8).regs.scl = true := by decide

theorem witness_ReadDrivesTheAddressedBit_complete :
    (reading false 8).regs.bitCount ≤ 8 ∧ noOverride (reading false 8) ∧
    (reading false 8).regs.scl = false ∧ (reading false 8).regs.bitCount = 8 := by decide

theorem witness_ReadDrivesTheAddressedBit_bit :
    (reading false 7).regs.bitCount ≤ 8 ∧ noOverride (reading false 7) ∧
    (reading false 7).regs.scl = false ∧ (reading false 7).regs.bitCount ≠ 8 := by decide

theorem witness_MasterAnswerIsSampled :
    noOverride answered ∧ answered.regs.dataDrv = false := by decide

/-- SDA seen to fall with SCL high; SDA seen to rise with SCL high. -/
def falling : State := put { baseRegs with sda := false }
def rising : State := put { baseRegs with sdaPrev := false }

theorem witness_StartIsTakenInEveryState_tick : falling.mem.wf ∧ showsStart falling := by decide

/-- A core at rest on the bench in a state, the master at SCL high and SDA high, at SCL high and SDA low, at SCL low. -/
def resting (st : ProtocolState) (bitCount : Nat) : State :=
  bench 20 { baseRegs with state := st, bitCount := bitCount, offset := 127 }
def restingLow (st : ProtocolState) (bitCount : Nat) : State :=
  benchLow 40 { baseRegs with state := st, bitCount := bitCount, offset := 127 }
def restingSclLow (st : ProtocolState) (bitCount : Nat) : State :=
  benchSclLow 40 { baseRegs with state := st, bitCount := bitCount, offset := 127 }

theorem witness_StartIsTakenInEveryState_direct :
    TickInv (resting .rcvData 8) ∧ AtRest (resting .rcvData 8) ∧ Paced (resting .rcvData 8) ∧
    Peaceful (conditionTicks true (resting .rcvData 8)) (resting .rcvData 8) ∧ direct true (resting .rcvData 8) = true ∧
    sdaOe (resting .rcvData 8) = false := by decide +kernel

theorem witness_StartIsTakenInEveryState_indirect :
    TickInv (restingSclLow .rcvOffset 0) ∧ AtRest (restingSclLow .rcvOffset 0) ∧ Paced (restingSclLow .rcvOffset 0) ∧
    Peaceful (conditionTicks true (restingSclLow .rcvOffset 0)) (restingSclLow .rcvOffset 0) ∧
    direct true (restingSclLow .rcvOffset 0) = false ∧ FrameBoundary (restingSclLow .rcvOffset 0) := by decide +kernel

/-- A read about to transmit a byte whose bit 7 is 1: the core releases SDA. -/
def readingOne : State := { restingSclLow .read 0 with mem := Memory.write [] 127 0x80 }

theorem witness_StartStop_read :
    TickInv readingOne ∧ AtRest readingOne ∧ Paced readingOne ∧ Peaceful (conditionTicks false readingOne) readingOne ∧
    Peaceful (conditionTicks true readingOne) readingOne ∧ direct false readingOne = false ∧ direct true readingOne = false ∧
    FrameBoundary readingOne := by
  have hwf : readingOne.mem.wf := Memory.wf_write Memory.wf_nil _ _
  have hin : readingOne.mem.within 128 := Memory.within_write (by decide) (by decide)
  have hread : readingOne.mem.read 127 = 0x80 := (Memory.read_write Memory.wf_nil _ _ _).trans (if_pos rfl)
  refine ⟨⟨⟨by decide, by decide, by decide, hwf, hin, rfl, rfl⟩, by decide⟩, by decide +kernel, by decide +kernel,
    by decide +kernel, by decide +kernel, rfl, rfl, rfl, .inr (.inr (.inr (.inr ⟨rfl, ?_⟩)))⟩
  rw [show readingOne.regs.offset = 127 from rfl, hread]
  decide

theorem witness_StopIsTakenInEveryState_tick : rising.mem.wf ∧ showsStop rising := by decide

theorem witness_StopIsTakenInEveryState_direct :
    TickInv (restingLow .rcvData 8) ∧ AtRest (restingLow .rcvData 8) ∧ Paced (restingLow .rcvData 8) ∧
    Peaceful (conditionTicks false (restingLow .rcvData 8)) (restingLow .rcvData 8) ∧
    direct false (restingLow .rcvData 8) = true ∧ sdaOe (restingLow .rcvData 8) = false := by decide +kernel

theorem witness_StopIsTakenInEveryState_indirect :
    TickInv (restingSclLow .waitStart 0) ∧ AtRest (restingSclLow .waitStart 0) ∧ Paced (restingSclLow .waitStart 0) ∧
    Peaceful (conditionTicks false (restingSclLow .waitStart 0)) (restingSclLow .waitStart 0) ∧
    direct false (restingSclLow .waitStart 0) = false ∧ FrameBoundary (restingSclLow .waitStart 0) := by decide +kernel

/-- What every clause of `BitSlotIsCounted` supposes, in the states and counts of the clauses. -/
theorem witness_BitSlotIsCounted :
    ∀ x ∈ [(ProtocolState.rcvAddress, 0), (.rcvData, 6), (.rcvOffset, 7), (.read, 0), (.read, 7), (.waitStart, 8), (.ackRead, 8),
        (.ackAddress1, 8), (.ackOffset1, 8), (.ackData1, 8)],
      TickInv (restingSclLow x.1 x.2) ∧ AtRest (restingSclLow x.1 x.2) ∧ Paced (restingSclLow x.1 x.2) ∧
      Peaceful (bitTicks (restingSclLow x.1 x.2)) (restingSclLow x.1 x.2) := by decide +kernel

theorem witness_BitSlotIsCounted_acknowledge :
    (restingSclLow .ackData1 8).master.scl = false ∧
    StoreReady ((restingSclLow .ackData1 8).pace.hold + (restingSclLow .ackData1 8).pace.setup)
      (restingSclLow .ackData1 8).pace.rest (restingSclLow .ackData1 8) := by decide +kernel

/-- A receive state at the start of a frame, SCL low, for that many ticks. -/
def receiving (st : ProtocolState) (ticks : Nat) : State := benchSclLow ticks { baseRegs with state := st, offset := 127 }

theorem witness_EightBitsAreTheByte :
    TickInv (receiving .rcvAddress 200) ∧ AtRest (receiving .rcvAddress 200) ∧ Paced (receiving .rcvAddress 200) ∧
    Peaceful (8 * bitTicks (receiving .rcvAddress 200)) (receiving .rcvAddress 200) ∧ InReceive (receiving .rcvAddress 200) ∧
    (receiving .rcvAddress 200).regs.bitCount = 0 := by decide +kernel

/-- Seven bits and no more slot, or six bits and one more slot: the longest cut frames. -/
theorem witness_CutFrameResidue_bits :
    TickInv (receiving .rcvData 1300) ∧ AtRest (receiving .rcvData 1300) ∧ Paced (receiving .rcvData 1300) ∧
    Peaceful ((List.replicate 7 true).length.succ * frameTicks (receiving .rcvData 1300)) (receiving .rcvData 1300) ∧
    InReceive (receiving .rcvData 1300) ∧ (receiving .rcvData 1300).regs.bitCount = 0 ∧
    (slotsSeen true (receiving .rcvData 1300) (List.replicate 7 true)).length = 7 ∧
    (slotsSeen false (receiving .rcvData 1300) (List.replicate 7 false)).length = 7 ∧
    (slotsSeen true (receiving .rcvData 1300) (List.replicate 6 false)).length = 7 ∧
    (slotsSeen false (receiving .rcvData 1300) (List.replicate 6 true)).length = 7 := by decide +kernel

theorem witness_CutFrameResidue_byte :
    ∀ st ∈ [ProtocolState.rcvOffset, .rcvData],
      TickInv (receiving st 1500) ∧ AtRest (receiving st 1500) ∧ Paced (receiving st 1500) ∧
      Peaceful (9 * frameTicks (receiving st 1500)) (receiving st 1500) ∧ (receiving st 1500).regs.bitCount = 0 := by
  decide +kernel

/-- The premises of every frame statement, after another frame, with the store ready at slot 9. -/
theorem witness_frames :
    ∀ st ∈ [ProtocolState.rcvAddress, .rcvOffset, .rcvData, .read],
      FrameReady (receiving st 152) ∧ StoreReady (ackTick (receiving st 152)) (receiving st 152).pace.high (receiving st 152) ∧
      (receiving st 152).regs.state = st ∧ (receiving st 152).regs.bitCount = 0 := by decide +kernel

/-- The same after S, with SCL high and SDA low. -/
theorem witness_AddressFrames :
    FrameReady (benchLow 152 { baseRegs with state := .rcvAddress }) ∧
    StoreReady (ackTick (bench 152 baseRegs)) (bench 152 baseRegs).pace.high (benchLow 152 { baseRegs with state := .rcvAddress }) := by
  decide +kernel

theorem witness_AddressMissFrame : (0x9F : Byte).toNat / 2 ≠ (receiving .rcvAddress 152).cfg.addr.toNat := by decide

theorem witness_FrameIsIgnoredInWaitStart : FrameReady (bench 152 { baseRegs with bitCount := 8 }) := by decide +kernel

/-- The store is busy for `k` ticks from the release of SCL for slot 9 on, then ready. -/
def stretching (st : ProtocolState) (k : Nat) : State :=
  { receiving st 0 with ahead := List.replicate 135 idle ++ List.replicate k ⟨true, true, true, false⟩ ++ List.replicate 16 idle }

theorem witness_StretchedFrameEndsTheSame :
    ∀ st ∈ [ProtocolState.rcvAddress, .rcvOffset, .rcvData], ∀ k ∈ [1, 5],
      TickInv (stretching st k) ∧ AtRest (stretching st k) ∧ Paced (stretching st k) ∧ 0 < k ∧
      Peaceful (frameTicks (stretching st k) + k) (stretching st k) ∧ StoreBusy (ackTick (stretching st k)) k (stretching st k) ∧
      StoreReady (ackTick (stretching st k) + k) (stretching st k).pace.high (stretching st k) ∧
      (stretching st k).regs.bitCount = 0 := by decide +kernel

/-- An idle bus and an idle store for twelve frames. -/
def idling : State := bench 1900 { baseRegs with bitCount := 8, offset := 127 }

theorem witness_WriteStream :
    TickInv idling ∧ AtRest idling ∧ Paced idling ∧ Peaceful ((([] : List Byte).length + 4) * frameTicks idling) idling ∧
    StoreReady 0 ((([] : List Byte).length + 4) * frameTicks idling) idling ∧ idling.regs.state = .waitStart := by decide +kernel

theorem witness_ReadStream :
    TickInv idling ∧ AtRest idling ∧ Paced idling ∧ Peaceful ((0 + 3) * frameTicks idling) idling ∧
    StoreReady 0 ((0 + 3) * frameTicks idling) idling ∧ idling.regs.state = .waitStart := by decide +kernel

theorem witness_WriteThenReadReturnsTheByte :
    TickInv idling ∧ AtRest idling ∧ Paced idling ∧ Peaceful (12 * frameTicks idling) idling ∧
    StoreReady 0 (12 * frameTicks idling) idling ∧ idling.regs.state = .waitStart := by decide +kernel

/-- A write that changes its cell, whatever the cell held. -/
def changing : State := byteReady (Memory.unlisted 3 + 1) 3 true

theorem witness_OnlyTheAddressedCellIsWritten :
    ∃ t, changing.mem.wf ∧ exec .rcvData changing = .next t ∧ t.mem.read 3 ≠ changing.mem.read 3 := by
  refine ⟨tickState (withState .rcvData changing), Memory.wf_nil, tick_next (withState .rcvData changing), ?_⟩
  have h : (nextMem (withState .rcvData changing)).read 3 = Memory.unlisted 3 + 1 :=
    read_nextMem (withState .rcvData changing) rfl rfl
  rw [tickState_mem, h]
  exact (by decide : ∀ v : Byte, v + 1 ≠ v) _

theorem witness_DirectionChangesOnlyAtAMatch :
    TickInv edge ∧ ∀ k t, k < [idle].length → runTicks ([idle].take k) edge = .next t →
      ¬ (t.regs.state = .rcvAddress ∧ t.regs.bitCount = 8 ∧ t.regs.value.toNat / 2 = t.cfg.addr.toNat) := by
  refine ⟨by decide, fun k t hk ht => ?_⟩
  obtain rfl : k = 0 := by simpa using hk
  cases ht
  decide

/-- An acknowledge held in its SCL low phase. -/
def held : State :=
  put { baseRegs with
    state := .ackData1, bitCount := 8, sclFf1 := false, sclFf2 := false, scl := false, sclPrev := false }

theorem witness_BusyStoreHoldsTheBus_ticks :
    TickInv held ∧ held.regs.state = .ackData1 ∧ held.regs.scl = false ∧ held.regs.sclFf2 = false ∧ held.regs.sclFf1 = false ∧
    [(⟨false, false, true, false⟩ : Inputs)] ≠ [] ∧
    ∀ inp ∈ [(⟨false, false, true, false⟩ : Inputs)], inp.sclIn = false ∧ inp.storeBusy = true := by decide

/-- A store that is busy from slot 9 on for as long as the inputs are fixed. -/
def hanging (st : ProtocolState) : State :=
  { receiving st 0 with ahead := List.replicate 135 idle ++ List.replicate 9 ⟨true, true, true, false⟩ }

theorem witness_BusyStoreHoldsTheBus_frames :
    ∀ st ∈ [ProtocolState.rcvAddress, .rcvOffset, .rcvData], ∀ n ∈ [1, 9],
      TickInv (hanging st) ∧ AtRest (hanging st) ∧ Paced (hanging st) ∧ (hanging st).regs.bitCount = 0 ∧ 0 < n ∧
      Peaceful (ackTick (hanging st) + n) (hanging st) ∧ StoreBusy (ackTick (hanging st)) n (hanging st) := by decide +kernel

theorem witness_IdleStoreNeverStretches :
    TickInv held ∧ held.wires.sclOe = false ∧ ∀ inp ∈ [idle], inp.storeBusy = false := by decide

end Sys2Proof.Tests
end

section
/-!
PROOFS of the family 00_scope.md: what an operation can answer, by its kind (a bus operation, reset, an operation of one tick), what
a step can answer, and from these that a step runs the operation it decodes and that nothing changes the configuration.
-/

namespace Sys2Proof.Machine

/-! ### What an operation answers -/

/-- A bus operation is phases of the master and nothing else (30 R81 to R90; log 13). -/
theorem exec_of_isBusOp {i : Instr} (h : isBusOp i = true) (s : State) : ∃ phases, exec i s = performAll phases s := by
  cases i with
  | condS | condSr | condP => exact ⟨_, rfl⟩
  | bit0 | bit1 => exact ⟨_, rfl⟩
  | addrW | addrR | addrMiss | offset | wdata | rdataA | rdataN => exact ⟨_, rfl⟩
  | _ => cases h

theorem exec_reset (s : State) : exec .reset s = .next (resetState s) := rfl

/-- An operation of one tick commits registers, memory and signals, and touches neither the configuration nor the environment. -/
theorem exec_of_not_isBusOp {i : Instr} (h : isBusOp i = false) (hr : i ≠ .reset) (s : State) :
    ∃ regs mem wires, exec i s = .next { s with regs := regs, mem := mem, wires := wires } := by
  cases i with
  | condS | condSr | condP | bit0 | bit1 | addrW | addrR | addrMiss | offset | wdata | rdataA | rdataN => cases h
  | reset => exact absurd rfl hr
  | _ => exact ⟨_, _, _, rfl⟩

/-- Every operation answers a next state, with the configuration it had (60 R230; 00 R7 to R9). -/
theorem exec_next_cfg (i : Instr) (s : State) : ∃ t, exec i s = .next t ∧ t.cfg = s.cfg := by
  by_cases hb : isBusOp i = true
  · obtain ⟨phases, h⟩ := exec_of_isBusOp hb s
    exact ⟨_, h, (play_env _ s).1⟩
  by_cases hr : i = .reset
  · subst hr
    exact ⟨_, exec_reset s, resetState_cfg s⟩
  · obtain ⟨regs, mem, wires, h⟩ := exec_of_not_isBusOp (by simpa using hb) hr s
    exact ⟨_, h, rfl⟩

theorem cfg_of_exec {i : Instr} {s t : State} (h : exec i s = .next t) : t.cfg = s.cfg := by
  obtain ⟨u, hu, hcfg⟩ := exec_next_cfg i s
  cases hu.symm.trans h
  exact hcfg

/-! ### What a step answers -/

/-- A queued word that decodes is what `step` finds (30 R91; log 16). -/
theorem fetch_of_decode {s : State} {r : Instr × List Byte} (hq : s.queue ≠ [])
    (hd : decode s.cfg s.regs.state s.queue = .ok r) : fetch s = r := by
  rw [fetch, if_neg (by simpa using hq), hd]

/-- The fetched operation's next state, with the tick passed unless the operation passes its own. -/
theorem runFetched_of_exec {f : Instr × List Byte} {s t : State} (h : exec f.1 { s with queue := f.2 } = .next t) :
    runFetched f s = .next (if isBusOp f.1 then t else advance t) := by
  unfold runFetched
  rw [h]
  split <;> rfl

theorem step_of_reset {s : State} (hr : s.inputs.reset = true) : step s = .next (advance (resetState s)) := by
  rw [step, if_pos hr, exec_reset]
  rfl

theorem step_of_waiting {s : State} (hr : s.inputs.reset = false) (hb : s.bus ≠ []) : step s = .next (resume s) := by
  rw [step, if_neg (by simp [hr]), if_neg (by simpa using hb)]

theorem step_of_exec {s t : State} (hr : s.inputs.reset = false) (hb : s.bus = [])
    (h : exec (fetch s).1 { s with queue := (fetch s).2 } = .next t) :
    step s = .next (if isBusOp (fetch s).1 then t else advance t) := by
  rw [step, if_neg (by simp [hr]), if_pos (by simp [hb]), runFetched_of_exec h]

@[simp] theorem resume_cfg (s : State) : (resume s).cfg = s.cfg := by
  unfold resume
  split
  exacts [busTick_cfg s, (play_env s.bus s).1]

/-- A step answers a next state with the configuration it had, in each of its three cases: a reset, a waiting master, a fetched
operation (60 R230; 00 R7 to R9). -/
theorem step_next_cfg (s : State) : ∃ t, step s = .next t ∧ t.cfg = s.cfg := by
  cases hr : s.inputs.reset with
  | true => exact ⟨_, step_of_reset hr, by simp⟩
  | false =>
    by_cases hb : s.bus = []
    · obtain ⟨t, ht, hcfg⟩ := exec_next_cfg (fetch s).1 { s with queue := (fetch s).2 }
      refine ⟨_, step_of_exec hr hb ht, ?_⟩
      split
      exacts [hcfg, (advance_cfg t).trans hcfg]
    · exact ⟨_, step_of_waiting hr hb, resume_cfg s⟩

/-! ### The obligations -/

/-- Settles O12: an operation, and so a step, answers one next state, and that one has the configuration of the state before. -/
theorem configurationNeverChanges : Obligations.ConfigurationNeverChanges := by
  refine ⟨fun i s t h => cfg_of_exec h, fun s t h => ?_⟩
  obtain ⟨u, hu, hcfg⟩ := step_next_cfg s
  cases hu.symm.trans h
  exact hcfg

/-- Settles O4: `fetch` finds the decoded word, every operation answers a next state, and `step` answers with it. -/
theorem stepRunsTheDecodedOperation : Obligations.StepRunsTheDecodedOperation := by
  intro s i rest hr hb hq hd
  have hf : fetch s = (i, rest) := fetch_of_decode hq hd
  obtain ⟨t, ht, -⟩ := exec_next_cfg i { s with queue := rest }
  have hstep := step_of_exec (t := t) hr hb (by rw [hf]; exact ht)
  rw [hf] at hstep
  exact ⟨t, ht, hstep⟩

end Sys2Proof.Machine
end

section
/-!
PROOFS of the family 10_state.md: the invariants of R38 across every operation and every step, R38 as a step lemma of the tick and
along runs from reset, the valuation of reset, and the operation the `state` register selects.
-/

namespace Sys2Proof.Machine

/-! ### The ranges of the counter on its own (log 21) -/

/-- COUNT_CLEAR and COUNT_WRAP on their own (42 R130, R131): a cleared counter is in range, and so is one that is kept. -/
theorem clearedCount_le {n : Nat} (c : Bit) (h : n ≤ 8) : (if c then 0 else n) ≤ 8 := by
  split
  exacts [Nat.zero_le 8, h]

/-- COUNT_INC on its own (42 R132) counts only below 8. -/
theorem incrementedCount_le {s : State} (h : s.regs.bitCount ≤ 8) :
    (if countIncs s then s.regs.bitCount + 1 else s.regs.bitCount) ≤ 8 := by
  split
  next hc =>
    have hne : s.regs.bitCount ≠ 8 := fun h8 => by simp [countIncs, h8] at hc
    omega
  next => exact h

/-! ### The invariants across every operation and every step -/

theorem advance_inv {s : State} (h : Invariant s) : Invariant (advance s) := by
  unfold advance
  split
  exacts [h, h]

theorem resume_inv {s : State} (h : Invariant s) : Invariant (resume s) := by
  unfold resume
  split
  exacts [busTick_inv h, play_inv _ _ h]

/-- An operation of one tick keeps the invariants (46 R202). Grouped by what it writes of the values they speak of. -/
theorem exec_inv_of_not_isBusOp {i : Instr} (hi : isBusOp i = false) {s : State} (h : Invariant s) :
    ∃ t, exec i s = .next t ∧ Invariant t := by
  obtain ⟨hk, hb, ho, hwf, hin, hd, hc⟩ := id h
  cases i with
  | condS | condSr | condP | bit0 | bit1 | addrW | addrR | addrMiss | offset | wdata | rdataA | rdataN => cases hi
  | reset => exact ⟨_, rfl, resetState_inv h⟩
  -- the whole tick
  | tickStep => exact ⟨_, rfl, tickState_inv h⟩
  | waitStart | rcvAddress | ackAddress0 | ackAddress1 | ackAddress2 | rcvOffset | ackOffset0 | ackOffset1 | ackOffset2
  | rcvData | ackData0 | ackData1 | ackData2 | read | ackRead =>
    exact ⟨_, rfl, tickState_inv (s := withState _ s) h⟩
  -- one of the counters
  | sampleCount => exact ⟨_, rfl, inv_of_eq h rfl rfl (nextSampCount_lt hk) hb ho hd hc⟩
  | countClear | countWrap => exact ⟨_, rfl, inv_of_eq h rfl rfl hk (clearedCount_le _ hb) ho hd hc⟩
  | countInc => exact ⟨_, rfl, inv_of_eq h rfl rfl hk (incrementedCount_le hb) ho hd hc⟩
  | startOverride =>
    refine ⟨_, rfl, ?_⟩
    split
    exacts [inv_of_eq h rfl rfl hk (Nat.zero_le 8) ho hd hc, h]
  | stopOverride =>
    refine ⟨_, rfl, ?_⟩
    split
    exacts [inv_of_eq h rfl rfl hk hb ho hd hc, h]
  -- the offset and the store
  | offsetLoad =>
    refine ⟨_, rfl, inv_of_eq h rfl rfl hk hb ?_ hd hc⟩
    show (if strobes .ocLoad s then loadedOffset s else s.regs.offset) < s.cfg.N
    split
    exacts [loadedOffset_lt s, ho]
  | offsetInc =>
    refine ⟨_, rfl, inv_of_eq h rfl rfl hk hb ?_ hd hc⟩
    show (if strobes .ocInc s then steppedOffset s else s.regs.offset) < s.cfg.N
    split
    exacts [steppedOffset_lt s, ho]
  | memWrite => exact ⟨_, rfl, hk, hb, ho, nextMem_wf hwf, nextMem_within hin ho, hd, hc⟩
  -- the two ports that are constant 0
  | sdaO => exact ⟨_, rfl, inv_of_eq h rfl rfl hk hb ho rfl hc⟩
  | sclO => exact ⟨_, rfl, inv_of_eq h rfl rfl hk hb ho hd rfl⟩
  -- nothing the invariants speak of
  | syncStage1 | syncStage2 | sampleCapture | edgeHistory | sclRising | sclFalling | sdaRising | sdaFalling | startDetect
  | stopDetect | shiftIn | shiftHold | byteComplete | outBit | dataDrv | dataBit | ackDrive | sdaOe | sclOe | masterAck
  | addrMatch | directionCapture | stateCommit | offsetHold | memAddr | memRead =>
    exact ⟨_, rfl, inv_of_eq h rfl rfl hk hb ho hd hc⟩

/-- Every operation answers a next state and keeps the invariants (60 R230; 46 R202). -/
theorem exec_next_inv (i : Instr) {s : State} (h : Invariant s) : ∃ t, exec i s = .next t ∧ Invariant t := by
  cases hi : isBusOp i with
  | true =>
    obtain ⟨phases, hexec⟩ := exec_of_isBusOp hi s
    exact ⟨_, hexec, play_inv _ _ h⟩
  | false => exact exec_inv_of_not_isBusOp hi h

/-- A step keeps the invariants in each of its three cases: a reset, a waiting master, a fetched operation. -/
theorem step_next_inv {s : State} (h : Invariant s) : ∃ t, step s = .next t ∧ Invariant t := by
  cases hr : s.inputs.reset with
  | true => exact ⟨_, step_of_reset hr, advance_inv (resetState_inv h)⟩
  | false =>
    by_cases hb : s.bus = []
    · obtain ⟨t, ht, hinv⟩ := exec_next_inv (fetch s).1 (s := { s with queue := (fetch s).2 }) h
      refine ⟨_, step_of_exec hr hb ht, ?_⟩
      split
      exacts [hinv, advance_inv hinv]
    · exact ⟨_, step_of_waiting hr hb, resume_inv h⟩

/-! ### R38 across a tick and along a run of ticks -/

theorem exec_tickStep (s : State) : exec .tickStep s = .next (tickState s) := rfl

theorem tickState_tickInv {s : State} (h : TickInv s) : TickInv (tickState s) :=
  ⟨tickState_inv h.1, tickState_drivesInRead h.2⟩

/-- R38 (g): between captures both lines are held (40 R113). -/
theorem sampCount_of_line_changes {s : State} (h : nextScl s ≠ s.regs.scl ∨ nextSda s ≠ s.regs.sda) :
    s.regs.sampCount = s.cfg.K - 1 := by
  by_contra hne
  have hheld : nextScl s = s.regs.scl ∧ nextSda s = s.regs.sda := by simp [nextScl, nextSda, captures, hne]
  exact h.elim (· hheld.1) (· hheld.2)

theorem resetOf_tickInv (cfg : Config) : TickInv (State.resetOf cfg) :=
  ⟨⟨cfg.K_pos, Nat.zero_le 8, cfg.N_pos, Memory.wf_nil, List.forall_mem_nil _, rfl, rfl⟩, nofun⟩

/-- A run of ticks from a state that satisfies R38 completes and keeps it, with the configuration. -/
theorem runTicks_next_tickInv (inps : List Inputs) {s : State} (h : TickInv s) :
    ∃ t, runTicks inps s = .next t ∧ TickInv t ∧ t.cfg = s.cfg := by
  induction inps generalizing s with
  | nil => exact ⟨s, rfl, h, rfl⟩
  | cons inp inps ih =>
    obtain ⟨t, ht, hinv, hcfg⟩ := ih (tickState_tickInv (s := withInputs inp s) h)
    exact ⟨t, ht, hinv, hcfg⟩

theorem runTicks_append (inps more : List Inputs) (s : State) :
    runTicks (inps ++ more) s = andThen (runTicks inps s) (runTicks more) := by
  induction inps generalizing s with
  | nil => rfl
  | cons inp inps ih => exact ih (tickState (withInputs inp s))

/-- One more tick after a run. -/
theorem runTicks_concat {inps : List Inputs} {s u : State} (h : runTicks inps s = .next u) (inp : Inputs) :
    runTicks (inps ++ [inp]) s = .next (tickState (withInputs inp u)) := by
  rw [runTicks_append, h]
  rfl

/-! ### The operation the `state` register selects -/

/-- A STATE row is the whole tick in its state (44 R162 to R176; log 10). -/
theorem exec_instr (st : ProtocolState) (s : State) : exec st.instr s = .next (tickState (withState st s)) := by
  cases st <;> rfl

theorem isBusOp_instr (st : ProtocolState) : isBusOp st.instr = false := by
  cases st <;> rfl

/-- Where no operation is queued, `fetch` finds the row of the `state` register (10 R28, R41; log 16). -/
theorem fetch_idle {s : State} (h : s.queue = [] ∨ ∃ e, decode s.cfg s.regs.state s.queue = .error e) :
    fetch s = (s.regs.state.instr, []) := by
  by_cases hq : s.queue = []
  · rw [fetch, if_pos (by simp [hq]), idleOp]
  · obtain ⟨e, he⟩ := h.resolve_left hq
    rw [fetch, if_neg (by simpa using hq), he, idleOp]

/-! ### The obligations -/

/-- Settles O7: a step is a reset, the rest of a bus operation or a fetched operation, and each of them keeps the invariants. -/
theorem everyStepKeepsTheInvariants : Obligations.EveryStepKeepsTheInvariants := fun _ h => step_next_inv h

/-- Settles O10: TICK_STEP is one commit of the next registers, which are in range, hold the line history and take new line levels
only at a capture. -/
theorem everyTickKeepsR38 : Obligations.EveryTickKeepsR38 := fun s inp h =>
  ⟨_, exec_tickStep _, tickState_tickInv (s := withInputs inp s) h, rfl, rfl, sampCount_of_line_changes (s := withInputs inp s)⟩

/-- Settles O9: the reset state satisfies R38, every run of ticks keeps it, and one more tick obeys (f) and (g). -/
theorem runsFromResetKeepR38 : Obligations.RunsFromResetKeepR38 := by
  intro cfg inps inp
  obtain ⟨s, hs, hinv, hcfg⟩ := runTicks_next_tickInv inps (resetOf_tickInv cfg)
  obtain rfl : s.cfg = cfg := hcfg
  obtain ⟨t, ht, hinv', hscl, hsda, hcapture⟩ := everyTickKeepsR38 s inp hinv
  cases ht
  exact ⟨s, _, hs, runTicks_concat hs inp, hinv, hinv', hscl, hsda, hcapture⟩

/-- Settles O5: `fetch` finds the row of the `state` register, which sets the register to the value it has and runs the tick. -/
theorem stateRegisterSelectsTheOperation : Obligations.StateRegisterSelectsTheOperation := by
  intro s hr hb hq
  have hf : fetch s = (s.regs.state.instr, []) := fetch_idle hq
  have hexec : exec s.regs.state.instr { s with queue := [] } = .next (tickState { s with queue := [] }) :=
    exec_instr s.regs.state { s with queue := [] }
  have hstep := step_of_exec (t := tickState { s with queue := [] }) hr hb (by rw [hf]; exact hexec)
  rw [hf, isBusOp_instr] at hstep
  exact ⟨_, hexec, exec_tickStep _, hstep⟩

/-- Settles O8: the registers of R39 are in range, the store lists nothing, and both output ports are 0. -/
theorem resetSatisfiesTheInvariants : Obligations.ResetSatisfiesTheInvariants := resetOf_tickInv

/-- Settles O22: reset puts in place the valuation `R(0)`, which is the table of R39. -/
theorem resetValues : Obligations.ResetValues := fun _ => rfl

end Sys2Proof.Machine
end

section
/-!
PROOFS of the family 20_memory.md: the one write port of the store. A tick changes only the addressed cell, and only in RCV_DATA with
the byte complete; an operation of one tick leaves the store alone or does to it what a tick does.
-/

namespace Sys2Proof.Machine

/-- A cell a tick changes is the addressed one, in RCV_DATA with the byte complete, and it holds `value` then (20 R63; 45 R194). -/
theorem cell_changed_by_nextMem {s : State} (hwf : s.mem.wf) {a : Nat} (ha : (nextMem s).read a ≠ s.mem.read a) :
    a = s.regs.offset ∧ s.regs.bitCount = 8 ∧ (nextMem s).read a = s.regs.value ∧ s.regs.state = .rcvData := by
  have hread := nextMem_read hwf a
  by_cases hw : a = s.regs.offset ∧ strobes .memWe s = true
  · rw [if_pos hw] at hread
    obtain ⟨hoff, hwe⟩ := hw
    obtain ⟨hst, hbits⟩ : s.regs.state = .rcvData ∧ s.regs.bitCount = 8 := by
      simpa [strobes_memWe, byteComplete] using hwe
    exact ⟨hoff, hbits, hread, hst⟩
  · rw [if_neg hw] at hread
    exact absurd hread ha

/-- What an operation of one tick does to the store: nothing, or what a tick does in the state whose row the operation is, or else in
the state of the `state` register (44 R162 to R176; log 10). -/
theorem exec_mem_of_not_isBusOp {i : Instr} (h : isBusOp i = false) (hr : i ≠ .reset) (s : State) :
    ∃ t, exec i s = .next t ∧
      (t.mem = s.mem ∨ ∃ st, t.mem = nextMem (withState st s) ∧ (i = st.instr ∨ s.regs.state = st)) := by
  cases i with
  | condS | condSr | condP | bit0 | bit1 | addrW | addrR | addrMiss | offset | wdata | rdataA | rdataN => cases h
  | reset => exact absurd rfl hr
  | waitStart | rcvAddress | ackAddress0 | ackAddress1 | ackAddress2 | rcvOffset | ackOffset0 | ackOffset1 | ackOffset2
  | rcvData | ackData0 | ackData1 | ackData2 | read | ackRead =>
    refine ⟨tickState (withState _ s), rfl, .inr ⟨_, tickState_mem _, .inl ?_⟩⟩
    rfl
  | tickStep | memWrite => exact ⟨_, rfl, .inr ⟨s.regs.state, rfl, .inr rfl⟩⟩
  -- registers and signals alone
  | _ => exact ⟨_, rfl, .inl rfl⟩

/-- Settles O57: an operation that does not leave the store alone does what a tick does, in RCV_DATA by its row or by the register. -/
theorem onlyTheAddressedCellIsWritten : Obligations.OnlyTheAddressedCellIsWritten := by
  intro i s t hwf hexec hr hi a ha
  obtain ⟨u, hu, hmem⟩ := exec_mem_of_not_isBusOp hi hr s
  cases hu.symm.trans hexec
  obtain hkept | ⟨st, htick, hsel⟩ := hmem
  · exact absurd (by rw [hkept]) ha
  · rw [htick] at ha ⊢
    obtain ⟨hoff, hbits, hval, rfl⟩ := cell_changed_by_nextMem (s := withState st s) hwf ha
    exact ⟨hoff, hbits, hval, hsel⟩

end Sys2Proof.Machine
end

section
/-!
PROOFS of the family 30_encoding.md. The words: that the decoder reads back what the encoder wrote, everything it can read, and that
what it reads can be presented in its context. The wire: what a single bit slot from rest, and a frame met in WAIT_START, make of
the core.
-/

namespace Sys2Proof.Machine

/-! ### The fields of a frame word (30 R80, R85, R86) -/

@[simp] theorem frameByte_frameOf (b : Byte) (a : Bit) : frameByte (frameOf b a) = b := by
  apply BitVec.eq_of_getLsbD_eq
  intro i hi
  simp [frameByte, frameOf, hi, Nat.add_comm 1 i]

@[simp] theorem frameAck_frameOf (b : Byte) (a : Bit) : frameAck (frameOf b a) = a := by
  simp [frameAck, frameOf]

theorem getLsbD_zero_addressByte (cfg : Config) (rw : Bit) : (cfg.addressByte rw).getLsbD 0 = rw := by
  simp [Config.addressByte]

@[simp] theorem addresses_addressByte (cfg : Config) (rw : Bit) : cfg.addresses (cfg.addressByte rw) = true := by
  rw [Config.addresses, beq_iff_eq]
  apply BitVec.eq_of_getLsbD_eq
  intro i hi
  simp [Config.addressByte, hi, Nat.add_comm 1 i]

/-! ### What the decoder reads from the bytes of a frame word -/

theorem decode_frame (cfg : Config) (st : ProtocolState) (lo hi : Byte) (rest : List Byte) :
    decode cfg st (tagFrame :: lo :: hi :: rest) =
      if 2 ≤ hi.toNat then .error .strayBits
      else withRest rest (decodeFrame cfg st (BitVec.ofNat 9 (hi.toNat * 256 + lo.toNat))) := rfl

/-- The bytes of a nine-bit word read as that word. -/
theorem decode_frameBytes (cfg : Config) (st : ProtocolState) (w : BitVec 9) (rest : List Byte) :
    decode cfg st (frameBytes w ++ rest) = withRest rest (decodeFrame cfg st w) := by
  have hhi : (BitVec.ofNat 8 (w.toNat / 256)).toNat = w.toNat / 256 := by
    rw [BitVec.toNat_ofNat]
    omega
  have hword : BitVec.ofNat 9 ((BitVec.ofNat 8 (w.toNat / 256)).toNat * 256 + (BitVec.ofNat 8 w.toNat).toNat) = w := by
    apply BitVec.eq_of_toNat_eq
    rw [hhi, BitVec.toNat_ofNat, BitVec.toNat_ofNat]
    omega
  have hstray : ¬ 2 ≤ (BitVec.ofNat 8 (w.toNat / 256)).toNat := by omega
  exact (decode_frame cfg st _ _ rest).trans (by rw [if_neg hstray, hword])

/-! ### Decoding what was encoded -/

/-- What can be presented in a context is read back there, whatever follows it (30 R81 to R91). -/
theorem decode_encode (cfg : Config) (st : ProtocolState) (i : Instr) (rest : List Byte) (h : i.wf cfg st = true) :
    decode cfg st (encode cfg i ++ rest) = .ok (i, rest) := by
  cases i with
  -- S and Sr have one pattern, and the state tells them apart
  | condS =>
    obtain rfl : st = .waitStart := by simpa [Instr.wf] using h
    rfl
  | condSr =>
    have hst : st ≠ .waitStart := by simpa [Instr.wf] using h
    exact congrArg (fun j => Except.ok (j, rest)) (if_neg hst)
  -- frames, whose type is the state's
  | addrW | addrR =>
    obtain rfl : st = .rcvAddress := by simpa [Instr.wf] using h
    rw [encode, decode_frameBytes, decodeFrame, frameByte_frameOf, frameAck_frameOf, addresses_addressByte,
      getLsbD_zero_addressByte]
    rfl
  | addrMiss byte ack =>
    rw [encode, decode_frameBytes]
    cases st with
    | rcvAddress =>
      have hmiss : cfg.addresses byte = false := by simpa [Instr.wf] using h
      simp [decodeFrame, withRest, hmiss]
    | rcvOffset | rcvData | read => cases h
    | _ => simp [decodeFrame, withRest]
  | offset | wdata | rdataA | rdataN =>
    obtain rfl : st = _ := by simpa [Instr.wf] using h
    rw [encode, decode_frameBytes]
    simp [decodeFrame, withRest]
  -- words of one operand byte that read the same in every state
  | _ => rfl

/-- Settles O1: each format reads back its own words, and what is well formed in a state is what a frame means there. -/
theorem decodeOfEncodeIsTheOperation : Obligations.DecodeOfEncodeIsTheOperation := decode_encode

/-! ### What the decoder can answer -/

theorem withRest_ok {r : Except DecodeError Instr} {rest rest' : List Byte} {i : Instr}
    (h : withRest rest r = .ok (i, rest')) : r = .ok i ∧ rest = rest' := by
  cases r with
  | error e => cases h
  | ok j =>
    cases h
    exact ⟨rfl, rfl⟩

/-- Everything `decode` can read: a word of two bytes in one of four formats, or a frame of three. -/
theorem decode_cases {cfg : Config} {st : ProtocolState} {bytes rest : List Byte} {i : Instr}
    (h : decode cfg st bytes = .ok (i, rest)) :
    (∃ tag lo, bytes = [tag, lo] ++ rest ∧
      (decodeCondition st lo.toNat = .ok i ∨ decodeBit lo.toNat = .ok i ∨ decodeState lo.toNat = .ok i ∨
        decodeEveryTick lo.toNat = .ok i)) ∨
    ∃ tag lo hi w, bytes = [tag, lo, hi] ++ rest ∧ decodeFrame cfg st w = .ok i := by
  match bytes, h with
  | tag :: lo :: more, h =>
    simp only [decode] at h
    split_ifs at h
    · obtain ⟨hi, rfl⟩ := withRest_ok h
      exact .inl ⟨tag, lo, rfl, .inl hi⟩
    · obtain ⟨hi, rfl⟩ := withRest_ok h
      exact .inl ⟨tag, lo, rfl, .inr (.inl hi)⟩
    · obtain ⟨hi, rfl⟩ := withRest_ok h
      exact .inl ⟨tag, lo, rfl, .inr (.inr (.inl hi))⟩
    · obtain ⟨hi, rfl⟩ := withRest_ok h
      exact .inl ⟨tag, lo, rfl, .inr (.inr (.inr hi))⟩
    · match more, h with
      | hi :: more, h =>
        dsimp only at h
        split_ifs at h
        obtain ⟨hw, rfl⟩ := withRest_ok h
        exact .inr ⟨tag, lo, hi, _, rfl, hw⟩

theorem wf_of_decodeCondition {cfg : Config} {st : ProtocolState} {w : Nat} {i : Instr}
    (h : decodeCondition st w = .ok i) : i.wf cfg st = true := by
  unfold decodeCondition at h
  split_ifs at h with hw hst <;> cases h
  · simp [Instr.wf, hst]
  · simp [Instr.wf, hst]
  · rfl

theorem wf_of_decodeBit {cfg : Config} {st : ProtocolState} {w : Nat} {i : Instr} (h : decodeBit w = .ok i) :
    i.wf cfg st = true := by
  unfold decodeBit at h
  split_ifs at h <;> cases h <;> rfl

theorem wf_instr (cfg : Config) (st st' : ProtocolState) : st'.instr.wf cfg st = true := by
  cases st' <;> rfl

theorem wf_of_decodeState {cfg : Config} {st : ProtocolState} {w : Nat} {i : Instr} (h : decodeState w = .ok i) :
    i.wf cfg st = true := by
  unfold decodeState at h
  split at h <;> cases h
  exact wf_instr cfg st _

theorem wf_everyTickOps (cfg : Config) (st : ProtocolState) : ∀ i ∈ everyTickOps, i.wf cfg st = true :=
  List.all_eq_true.1 rfl

theorem wf_of_decodeEveryTick {cfg : Config} {st : ProtocolState} {w : Nat} {i : Instr} (h : decodeEveryTick w = .ok i) :
    i.wf cfg st = true := by
  unfold decodeEveryTick at h
  split at h
  next j hj =>
    cases h
    exact wf_everyTickOps cfg st _ (List.mem_of_getElem? hj)
  next => cases h

/-- A frame reads as the type its state gives it (30 R91), in RCV_ADDRESS by the address it carries (R86). -/
theorem wf_of_decodeFrame {cfg : Config} {st : ProtocolState} {w : BitVec 9} {i : Instr} (h : decodeFrame cfg st w = .ok i) :
    i.wf cfg st = true := by
  cases st with
  | rcvAddress =>
    rw [decodeFrame] at h
    split_ifs at h with haddr hack hdir <;> cases h
    · rfl
    · rfl
    · simp [Instr.wf, haddr]
  | rcvOffset | rcvData | read =>
    rw [decodeFrame] at h
    split_ifs at h <;> cases h <;> rfl
  -- where no bits are counted
  | _ =>
    cases h
    rfl

/-- Settles O2: the decoder reads a word of one of the five formats, and each format reads only what its context allows. -/
theorem decodedOperationIsWellFormed : Obligations.DecodedOperationIsWellFormed := by
  intro cfg st bytes i rest h
  obtain ⟨tag, lo, hbytes, hi⟩ | ⟨tag, lo, hi, w, hbytes, hframe⟩ := decode_cases h
  · refine ⟨?_, [tag, lo], hbytes, .inl rfl⟩
    obtain hc | hb | hs | he := hi
    exacts [wf_of_decodeCondition hc, wf_of_decodeBit hb, wf_of_decodeState hs, wf_of_decodeEveryTick he]
  · exact ⟨wf_of_decodeFrame hframe, [tag, lo, hi], hbytes, .inr rfl⟩

/-- Settles O3: each word is run through the decoder. -/
theorem specWordsDecode : Obligations.SpecWordsDecode := by
  unfold Obligations.SpecWordsDecode
  exact ⟨rfl, rfl, rfl, rfl, rfl, rfl, rfl, rfl, rfl, rfl, rfl, rfl, rfl, rfl, rfl⟩

/-! ### Bus operations from rest, under the premises of 47 R210 -/

/-- A bus operation keeps R38 (46 R202). -/
theorem tickInv_of_exec {i : Instr} (hi : isBusOp i = true) {s t : State} (h : TickInv s) (ht : exec i s = .next t) :
    TickInv t := by
  obtain ⟨phases, hexec⟩ := exec_of_isBusOp hi s
  cases hexec.symm.trans ht
  exact ⟨play_inv _ _ h.1, play_drivesInRead _ _ h.2⟩

theorem performed_of_elapsed {n : Nat} {s t : State} (h : Elapsed n s t) (hr : AtRest t) : Performed n s t :=
  ⟨h.cfg, h.queue, h.pace, h.ahead, hr⟩

/-- Outside READ no data bit is driven (10 R38 (e)). -/
theorem dataDrv_eq_false {s : State} (h : DrivesInRead s) (hs : s.regs.state ≠ .read) : s.regs.dataDrv = false :=
  Bool.eq_false_iff.2 fun hd => hs (h hd)

/-- A state in which the core is at the end of its reaction, whatever SCL is. -/
theorem Reacts.refl {v : View} (hl : v.lowStep = v) (hh : v.holdStep = v) : Reacts v v :=
  ⟨hl, hl, by rw [hh, hl, hl]⟩

theorem reacts_waitStart {v : View} (hs : v.st = .waitStart) : Reacts v v :=
  .refl (by rw [View.lowStep, hs]) (by rw [View.holdStep, hs])

theorem reacts_ackRead {v : View} (hs : v.st = .ackRead) : Reacts v v :=
  .refl (by rw [View.lowStep, hs]) (by rw [View.holdStep, hs])

/-- A receive state with the byte not complete waits for bits (44 R163, R167, R171). -/
theorem holdStep_receives {v : View} (hr : receives v.st = true) (hb : v.bitCount ≠ 8) : v.holdStep = v := by
  obtain ⟨cfg, st, bc, value, off, ir, dd, db, mem, w⟩ := v
  cases st <;> simp [receives] at hr <;> exact if_neg hb

theorem reacts_receives {v : View} (hr : receives v.st = true) (hb : v.bitCount ≠ 8) : Reacts v v := by
  refine .refl ?_ (holdStep_receives hr hb)
  obtain ⟨cfg, st, bc, value, off, ir, dd, db, mem, w⟩ := v
  cases st <;> simp [receives] at hr <;> exact if_neg hb

/-- In ACK_x1 with SCL low the core stays (44 R165, R169, R173). -/
theorem lowStep_stretches {v : View} (hs : stretches v.st = true) : v.lowStep = v := by
  obtain ⟨cfg, st, bc, value, off, ir, dd, db, mem, w⟩ := v
  cases st <;> simp [stretches] at hs <;> rfl

/-- At rest with SCL low, the core stays where it is. -/
theorem falls_low {s : State} (hs : s.regs.sampCount < s.cfg.K) (h : AtRest s) (hscl : s.master.scl = false)
    (hw : (view s).lowStep = view s) : Falls (view s) s :=
  .inr ⟨hs, hscl ▸ sclTracks_atRest h, hw, hw⟩

/-- READ drives the addressed bit while SCL is low (42 R138, R139). -/
theorem reacts_read {v : View} (hs : v.st = .read) (hb : v.bitCount < 8) :
    Reacts v { v with dataDrv := true, dataBit := (v.mem.read v.offset).getLsbD (7 - v.bitCount) } := by
  obtain ⟨cfg, st, bc, value, off, ir, dd, db, mem, w⟩ := v
  obtain rfl : st = .read := hs
  have h8 : bc ≠ 8 := Nat.ne_of_lt hb
  have h7 : bc ≤ 7 := Nat.le_of_lt_succ hb
  constructor <;> simp [View.lowStep, View.holdStep, h8, h7]

/-- A frame from rest in which nothing is stretched because no slot begins in an ACK_x1 state: the store may be busy. -/
theorem frame_performed {byte : Byte} {ack : Bit} {w : View} {s : State} (h : FrameReady s) (hw : Reacts (view s) w)
    (hu : w.unstretched (byteBits byte)) (hack : stretches (w.slots (byteBits byte)).st = false) :
    ∃ t, frame byte ack s = .next t ∧ Performed (frameTicks s) s t ∧ view t = w.slots (byteBits byte ++ [ack]) := by
  obtain ⟨⟨⟨hsamp, -⟩, -⟩, hrest, hpaced, hpeace⟩ := h
  obtain ⟨hf, hc, hlen⟩ := peaceful_feeds hpeace
  obtain ⟨t, ht, hv, -, hr, -, he, -⟩ := frame_run (ack := ack) (c := []) (falls_atRest hsamp hrest hw) hrest.1 hpaced
    (by rwa [List.append_nil]) hc hlen hu (.inl hack)
  exact ⟨t, ht, performed_of_elapsed he hr, hv⟩

/-- The premises of a single bit slot. -/
abbrev BitReady (s : State) : Prop := TickInv s ∧ AtRest s ∧ Paced s ∧ Peaceful (bitTicks s) s

/-- What a single bit slot makes of a view at the end of an SCL low phase: SCL stays high after it (30 R84). -/
def View.bit (d : Bit) (w : View) : View :=
  ((w.record (d && !w.oe)).riseStep (d && !w.oe)).holdStep

theorem exec_bitOp (b : Bit) (s : State) : exec (bitOp b) s = bitSlot b s := by
  cases b <;> rfl

/-- A single bit slot, not stretched: no ACK_x1 state, or the store ready from the release of SCL on. -/
theorem bitOp_performed {w : View} {s : State} (b : Bit) (h : BitReady s) (hw : Falls w s)
    (hb : stretches w.st = false ∨ StoreReady (s.pace.hold + s.pace.setup) s.pace.rest s) :
    ∃ t, exec (bitOp b) s = .next t ∧ Performed (bitTicks s) s t ∧ view t = w.bit b := by
  obtain ⟨-, hrest, hpaced, hpeace⟩ := h
  obtain ⟨hf, hc, hlen⟩ := peaceful_feeds hpeace
  have hready : ((coming s).take (bitTicks s)).drop (s.pace.hold + s.pace.setup) =
      ((coming s).drop (s.pace.hold + s.pace.setup)).take s.pace.rest := by
    rw [List.drop_take, bitTicks, Nat.add_sub_cancel_left]
  obtain ⟨t, ht, hv, -, hr, -, he, -⟩ := bit_run (d := b) (c := []) hw hrest.1 hpaced (by rwa [List.append_nil]) hc hlen
    (by rwa [hready])
  exact ⟨t, (exec_bitOp b s).trans ht, performed_of_elapsed he hr, hv⟩

/-- A single bit slot whose SCL low phase ends the core's reaction outside the ACK_x1 states: the store may be busy. -/
theorem bitOp_reacts {w : View} {s : State} (b : Bit) (h : BitReady s) (hw : Reacts (view s) w) (hs : stretches w.st = false) :
    ∃ t, exec (bitOp b) s = .next t ∧ Performed (bitTicks s) s t ∧ view t = w.bit b := by
  obtain ⟨⟨⟨hsamp, -⟩, -⟩, hrest, -⟩ := id h
  exact bitOp_performed b h (falls_atRest hsamp hrest hw) (.inl hs)

/-! ### A single bit slot, state by state (30 R84) -/

/-- In a receive state one bit is counted and shifted in, and the state's rule sees it (42 R132, R133). -/
theorem bit_receives {v : View} (d : Bit) (hr : receives v.st = true) (hb : v.bitCount < 8) (hd : v.dataDrv = false) :
    v.bit d =
      ({ v with
         bitCount := v.bitCount + 1
         value := shiftLeftIn v.value d
         wire := BitVec.concat (v.wire.extractLsb' 0 8) d } : View).holdStep := by
  obtain ⟨cfg, st, bc, value, off, ir, dd, db, mem, w⟩ := v
  obtain rfl : dd = false := hd
  have h8 : bc ≠ 8 := Nat.ne_of_lt hb
  cases st <;> simp [receives] at hr <;>
    simp [View.bit, View.record, View.riseStep, View.holdStep, View.count, View.oe, acknowledges, receives, h8]

/-- In READ the bit on SDA is counted and nothing else moves (42 R132). -/
theorem bit_read {v : View} (d : Bit) (hs : v.st = .read) (hb : v.bitCount < 8) (hd : v.dataDrv = true) :
    v.bit d =
      { v with
        bitCount := v.bitCount + 1
        wire := BitVec.concat (v.wire.extractLsb' 0 8) (d && v.dataBit) } := by
  obtain ⟨cfg, st, bc, value, off, ir, dd, db, mem, w⟩ := v
  obtain rfl : st = .read := hs
  obtain rfl : dd = true := hd
  have h8 : bc ≠ 8 := Nat.ne_of_lt hb
  simp [View.bit, View.record, View.riseStep, View.holdStep, View.count, View.oe, acknowledges, receives, h8]

/-- In WAIT_START nothing moves but a counter left at 8, which wraps (42 R131). -/
theorem bit_waitStart {v : View} (d : Bit) (hs : v.st = .waitStart) (hd : v.dataDrv = false) :
    v.bit d =
      { v with
        bitCount := if v.bitCount = 8 then 0 else v.bitCount
        wire := BitVec.concat (v.wire.extractLsb' 0 8) d } := by
  obtain ⟨cfg, st, bc, value, off, ir, dd, db, mem, w⟩ := v
  obtain rfl : st = .waitStart := hs
  obtain rfl : dd = false := hd
  by_cases h8 : bc = 8 <;>
    simp [View.bit, View.record, View.riseStep, View.holdStep, View.count, View.oe, acknowledges, receives, h8]

/-- ACK_READ samples the master's answer (44 R176): 1 ends the read, 0 goes on to the next byte. -/
theorem bit_ackRead {v : View} (d : Bit) (hs : v.st = .ackRead) (hb : v.bitCount = 8) (hd : v.dataDrv = false) :
    v.bit d =
      { v with
        st := if d then .waitStart else .read
        offset := if d then v.offset else (v.offset + 1) % v.cfg.N
        bitCount := 0
        wire := BitVec.concat (v.wire.extractLsb' 0 8) d } := by
  obtain ⟨cfg, st, bc, value, off, ir, dd, db, mem, w⟩ := v
  obtain rfl : st = .ackRead := hs
  obtain rfl : bc = 8 := hb
  obtain rfl : dd = false := hd
  cases d <;> simp [View.bit, View.record, View.riseStep, View.holdStep, View.count, View.oe, acknowledges]

/-- ACK_x1 sees SCL high and goes on to ACK_x2, SDA held low by the core (44 R165, R169, R173). -/
theorem bit_acknowledge {v : View} (d : Bit) (hs : stretches v.st = true) (hb : v.bitCount = 8) :
    v.bit d = { v.holdStep with bitCount := 0, wire := BitVec.concat (v.wire.extractLsb' 0 8) false } := by
  obtain ⟨cfg, st, bc, value, off, ir, dd, db, mem, w⟩ := v
  obtain rfl : bc = 8 := hb
  cases st <;> simp [stretches] at hs <;>
    simp [View.bit, View.record, View.riseStep, View.holdStep, View.count, View.oe, acknowledges]

/-! ### The words of the statements -/

theorem ne_read_of_receives {st : ProtocolState} (h : receives st = true) : st ≠ .read := by
  rintro rfl
  cases h

theorem not_stretches_of_receives {st : ProtocolState} (h : receives st = true) : stretches st = false := by
  cases st <;> simp [receives] at h <;> rfl

theorem receives_iff_inReceive {s : State} : receives s.regs.state = true ↔ InReceive s := by
  cases h : s.regs.state <;> simp [InReceive, receives, h]

/-- `{value[6:0], b}` is `2*value + b` modulo 256 (42 R133). -/
theorem shiftLeftIn_eq_shifted (v : Byte) (b : Bit) : shiftLeftIn v b = shifted v [b] := by
  show shiftLeftIn v b = BitVec.ofNat 8 (2 * v.toNat + b.toNat)
  apply BitVec.eq_of_toNat_eq
  simp [shiftLeftIn, BitVec.toNat_concat]
  cases b <;> simp <;> omega

/-- `value[7:1] == ADDR` is `value / 2 = ADDR` (44 R161). -/
theorem extract_eq_addr_iff (v : Byte) (a : BitVec 7) : v.extractLsb' 1 7 = a ↔ v.toNat / 2 = a.toNat := by
  have := v.isLt
  rw [← BitVec.toNat_inj, BitVec.extractLsb'_toNat, Nat.shiftRight_eq_div_pow, Nat.mod_eq_of_lt (by omega)]

theorem getLsbD_zero_eq_decide (v : Byte) : v.getLsbD 0 = decide (v.toNat % 2 = 1) := by
  rw [BitVec.getLsbD, Nat.testBit_zero]

/-- A receive state at a complete byte with SCL high, in the words of the transition summary and of the strobes (44 R163, R167,
R171, R182). -/
theorem completed_rule {byte : Byte} {wire : BitVec 9} {s t : State} (hr : InReceive s) (hwf : s.mem.wf)
    (h : view t = ({ view s with bitCount := 8, value := byte, wire := wire } : View).holdStep) :
    t.regs.bitCount = 8 ∧ t.regs.value = byte ∧ t.regs.dataDrv = s.regs.dataDrv ∧ t.regs.dataBit = s.regs.dataBit ∧
    t.regs.state = tableNext s.regs.state (completed byte s) ∧ StrobesAct s.regs.state (completed byte s) t := by
  obtain hst | hst | hst := hr
  · by_cases ha : byte.toNat / 2 = s.cfg.addr.toNat
    · simp only [view, View.holdStep, hst, extract_eq_addr_iff, ha, reduceIte, View.mk.injEq, getLsbD_zero_eq_decide] at h
      simp [StrobesAct, tableNext, hst, ha, h]
    · simp only [view, View.holdStep, hst, extract_eq_addr_iff, ha, reduceIte, View.mk.injEq] at h
      simp [StrobesAct, tableNext, hst, ha, h]
  · simp only [view, View.holdStep, hst, reduceIte, View.mk.injEq] at h
    simp [StrobesAct, tableNext, hst, h]
  · simp only [view, View.holdStep, hst, reduceIte, View.mk.injEq] at h
    simp [StrobesAct, tableNext, hst, h, Memory.read_write hwf]

/-! ### The obligations on the wire -/

/-- A run of slots met in WAIT_START: the first wraps a counter left at 8, the others are ignored (30 R100, 42 R131). -/
theorem slots_waitStart {v : View} {ds : List Bit} (hne : ds ≠ []) (hs : v.st = .waitStart) (hd : v.dataDrv = false) :
    v.unstretched ds ∧
      v.slots ds =
        { v with
          bitCount := if v.bitCount = 8 then 0 else v.bitCount
          wire := ds.foldl (fun x y => BitVec.concat (x.extractLsb' 0 8) y) v.wire } := by
  cases ds with
  | nil => exact absurd rfl hne
  | cons d ds =>
    have h := slot_ignored d hs hd
    have h8 : (v.slot d).bitCount ≠ 8 := by
      rw [h]
      dsimp only
      split_ifs with hb
      exacts [by decide, hb]
    obtain ⟨hu, hslots⟩ := slots_ignored ds (v := v.slot d) (by rw [h]; exact hs) (by rw [h]; exact hd) h8
    refine ⟨⟨by rw [hs]; rfl, hu⟩, ?_⟩
    rw [View.slots, hslots, h]
    rfl

/-- Settles O49: in WAIT_START nine slots are ignored but for a counter left at 8, and the master records the nine levels. -/
theorem frameIsIgnoredInWaitStart : Obligations.FrameIsIgnoredInWaitStart := by
  intro s byte ack hready hst
  have hd : s.regs.dataDrv = false := dataDrv_eq_false hready.1.2 (by rw [hst]; decide)
  obtain ⟨hu, hbyte⟩ := slots_waitStart (v := view s) (ds := byteBits byte) (by simp [byteBits]) hst hd
  obtain ⟨-, hframe⟩ := slots_waitStart (v := view s) (ds := byteBits byte ++ [ack]) (by simp) hst hd
  have hstill : stretches ((view s).slots (byteBits byte)).st = false := by
    rw [hbyte, show (view s).st = .waitStart from hst]
    rfl
  obtain ⟨t, ht, hp, hv⟩ := frame_performed (ack := ack) hready (reacts_waitStart hst) hu hstill
  rw [hframe, List.foldl_append] at hv
  simp only [view, View.mk.injEq] at hv
  obtain ⟨-, hst', hcount, hvalue, hoff, hread, hdrv, hbit, hmem, hwire⟩ := hv
  have hinv : TickInv t := tickInv_of_exec (i := .addrMiss byte ack) rfl hready.1 ht
  have hmoves : OnlyMovesTo .waitStart s t := ⟨⟨hst'.trans hst, hoff, hread, hdrv, hbit⟩, fun a => by rw [hmem]⟩
  exact ⟨t, ht, hp, hmoves, hinv, hvalue, hcount, hwire.trans (recordByte_ack s.wire byte ack)⟩

/-- BIT0 or BIT1 in a receive state: the bit is counted and shifted in, and the state's rule sees it. -/
theorem bitOp_receives {s : State} (b : Bit) (h : BitReady s) (hr : InReceive s) (hb : s.regs.bitCount < 8) :
    ∃ t wire, exec (bitOp b) s = .next t ∧ Performed (bitTicks s) s t ∧ s.regs.dataDrv = false ∧
      view t =
        ({ view s with
           bitCount := s.regs.bitCount + 1
           value := shifted s.regs.value [b]
           wire := wire } : View).holdStep := by
  have hrcv := receives_iff_inReceive.2 hr
  have hd := dataDrv_eq_false h.1.2 (ne_read_of_receives hrcv)
  have hreacts : Reacts (view s) (view s) := reacts_receives hrcv (Nat.ne_of_lt hb)
  obtain ⟨t, ht, hp, hv⟩ := bitOp_reacts b h hreacts (not_stretches_of_receives hrcv)
  rw [bit_receives b hrcv hb hd, shiftLeftIn_eq_shifted] at hv
  exact ⟨t, _, ht, hp, hd, hv⟩

/-- Settles O44: the slot is a rising edge of SCL after the core's reaction to SCL low, and each state does with it what its rule
says. -/
theorem bitSlotIsCounted : Obligations.BitSlotIsCounted := by
  intro b s hinv hrest hpaced hpeace
  have hready : BitReady s := ⟨hinv, hrest, hpaced, hpeace⟩
  obtain ⟨⟨hsamp, -, -, hwf, -⟩, hdrives⟩ := hinv
  have idle : s.regs.state ≠ .read → s.regs.dataDrv = false := dataDrv_eq_false hdrives
  have still : ∀ st, stretches st = false → s.regs.state = st → stretches (view s).st = false := fun _ h hst =>
    (congrArg stretches hst).trans h
  refine ⟨fun hr hb => ?_, fun hr hb => ?_, fun hst hb => ?_, fun hst => ?_, fun hst hb => ?_, fun hst hb hscl hstore => ?_⟩
  -- a receive state, before the eighth bit
  · obtain ⟨t, wire, ht, hp, hd, hv⟩ := bitOp_receives b hready hr (by omega)
    rw [holdStep_receives (receives_iff_inReceive.2 hr) (by show s.regs.bitCount + 1 ≠ 8; omega)] at hv
    simp only [view, View.mk.injEq] at hv
    obtain ⟨-, hst, hcount, hvalue, hoff, hread, hdrv, hbit, hmem, -⟩ := hv
    exact ⟨t, ht, hp, hcount, hvalue, ⟨hst, hoff, hread, hdrv.trans hd, hbit⟩, fun a => by rw [hmem]⟩
  -- a receive state, the eighth bit
  · obtain ⟨t, wire, ht, hp, hd, hv⟩ := bitOp_receives b hready hr (by omega)
    rw [hb] at hv
    obtain ⟨hcount, hvalue, hdrv, hbit, hstate, hstrobes⟩ := completed_rule hr hwf hv
    exact ⟨t, ht, hp, hcount, hvalue, hdrv.trans hd, hbit, hstate, hstrobes⟩
  -- READ
  · obtain ⟨t, ht, hp, hv⟩ := bitOp_reacts b hready (reacts_read hst hb) (still _ rfl hst)
    rw [bit_read b hst hb rfl] at hv
    simp only [view, View.mk.injEq] at hv
    obtain ⟨-, hst', hcount, hvalue, hoff, hread, hdrv, hbit, hmem, -⟩ := hv
    exact ⟨t, ht, hp, hcount, hvalue, fun a => by rw [hmem], hst'.trans hst, hoff, hread, hdrv, hbit⟩
  -- WAIT_START
  · obtain ⟨t, ht, hp, hv⟩ := bitOp_reacts b hready (reacts_waitStart hst) (still _ rfl hst)
    rw [bit_waitStart b hst (idle (by rw [hst]; decide))] at hv
    simp only [view, View.mk.injEq] at hv
    obtain ⟨-, hst', hcount, hvalue, hoff, hread, hdrv, hbit, hmem, -⟩ := hv
    exact ⟨t, ht, hp, ⟨⟨hst'.trans hst, hoff, hread, hdrv, hbit⟩, fun a => by rw [hmem]⟩, hcount, hvalue⟩
  -- ACK_READ
  · have hd := idle (by rw [hst]; decide)
    obtain ⟨t, ht, hp, hv⟩ := bitOp_reacts b hready (reacts_ackRead hst) (still _ rfl hst)
    rw [bit_ackRead b hst hb hd] at hv
    simp only [view, View.mk.injEq] at hv
    obtain ⟨-, hst', hcount, hvalue, hoff, hread, hdrv, hbit, hmem, -⟩ := hv
    exact ⟨t, ht, hp, hcount, hvalue, fun a => by rw [hmem], hst', hoff, hread, hdrv.trans hd, hbit⟩
  -- ACK_x1, where the core may stretch
  · have hacks : stretches (view s).st = true := by
      obtain hst | hst | hst := hst <;> exact (congrArg stretches hst).trans rfl
    have hfalls := falls_low hsamp hrest hscl (lowStep_stretches hacks)
    obtain ⟨t, ht, hp, hv⟩ := bitOp_performed b hready hfalls (.inr hstore)
    rw [bit_acknowledge b hacks hb] at hv
    refine ⟨t, ht, hp, ?_⟩
    obtain hst | hst | hst := hst
    all_goals
      simp only [view, View.holdStep, hst, View.mk.injEq] at hv
      simp [OnlyMovesTo, Transaction, MemoryKept, hst, hv]

end Sys2Proof.Machine
end

section
/-!
PROOFS of the family 40_synchronizer.md: the five operations of the synchronizer, the sample counter along a run of ticks, and which
raw level LineSample shows after a run. The state after a run is named (`afterTicks`), and `Follows` says which raw levels of the ticks
before its synchronizer holds; a run pushes its own levels onto them (`history`).
-/

namespace Sys2Proof.Machine

/-! ### The next values, in the words of the rules -/

/-- R112: the counter returns to 0 from `K - 1` and else counts on. -/
theorem nextSampCount_eq (s : State) :
    nextSampCount s = if s.regs.sampCount = s.cfg.K - 1 then 0 else s.regs.sampCount + 1 := by
  simp [nextSampCount, captures]

/-- R113 for SCL. -/
theorem nextScl_eq (s : State) : nextScl s = if s.regs.sampCount = s.cfg.K - 1 then s.regs.sclFf2 else s.regs.scl := by
  simp [nextScl, captures]

/-- R113 for SDA. -/
theorem nextSda_eq (s : State) : nextSda s = if s.regs.sampCount = s.cfg.K - 1 then s.regs.sdaFf2 else s.regs.sda := by
  simp [nextSda, captures]

/-- A counter in range counts modulo `K` (R112). -/
theorem nextSampCount_mod {s : State} (h : s.regs.sampCount < s.cfg.K) :
    nextSampCount s = (s.regs.sampCount + 1) % s.cfg.K := by
  rw [nextSampCount_eq]
  split
  next hc => rw [hc, Nat.sub_add_cancel s.cfg.K_pos, Nat.mod_self]
  next hc => exact (Nat.mod_eq_of_lt (by omega)).symm

/-! ### The state after a run of ticks -/

/-- The state a run of ticks ends in. -/
def afterTicks (inps : List Inputs) (s : State) : State := inps.foldl (fun u inp => tickState (withInputs inp u)) s

theorem runTicks_eq_next (inps : List Inputs) (s : State) : runTicks inps s = .next (afterTicks inps s) := by
  induction inps generalizing s with
  | nil => rfl
  | cons inp inps ih => exact ih (tickState (withInputs inp s))

theorem afterTicks_concat (inps : List Inputs) (inp : Inputs) (s : State) :
    afterTicks (inps ++ [inp]) s = tickState (withInputs inp (afterTicks inps s)) := by
  rw [afterTicks, List.foldl_append]
  rfl

@[simp] theorem afterTicks_cfg (inps : List Inputs) (s : State) : (afterTicks inps s).cfg = s.cfg := by
  induction inps generalizing s with
  | nil => rfl
  | cons inp inps ih => exact ih (tickState (withInputs inp s))

/-- Along a run the counter counts the ticks modulo `K`, whatever the inputs are (R112). -/
theorem afterTicks_sampCount (inps : List Inputs) {s : State} (h : s.regs.sampCount < s.cfg.K) :
    (afterTicks inps s).regs.sampCount = (s.regs.sampCount + inps.length) % s.cfg.K := by
  induction inps generalizing s with
  | nil => exact (Nat.mod_eq_of_lt h).symm
  | cons inp inps ih =>
    have hcount : nextSampCount (withInputs inp s) = (s.regs.sampCount + 1) % s.cfg.K :=
      nextSampCount_mod (s := withInputs inp s) h
    have hrun : (afterTicks inps (tickState (withInputs inp s))).regs.sampCount =
        (nextSampCount (withInputs inp s) + inps.length) % s.cfg.K :=
      ih (s := tickState (withInputs inp s)) (nextSampCount_lt (s := withInputs inp s) h)
    calc (afterTicks inps (tickState (withInputs inp s))).regs.sampCount
        = ((s.regs.sampCount + 1) % s.cfg.K + inps.length) % s.cfg.K := by rw [hrun, hcount]
      _ = (s.regs.sampCount + (inps.length + 1)) % s.cfg.K := by rw [Nat.mod_add_mod, Nat.add_assoc, Nat.add_comm 1]

theorem afterTicks_sampCount_lt (inps : List Inputs) {s : State} (h : s.regs.sampCount < s.cfg.K) :
    (afterTicks inps s).regs.sampCount < s.cfg.K := by
  rw [afterTicks_sampCount inps h]
  exact Nat.mod_lt _ s.cfg.K_pos

theorem afterTicks_resetOf_sampCount (cfg : Config) (inps : List Inputs) :
    (afterTicks inps (State.resetOf cfg)).regs.sampCount = inps.length % cfg.K := by
  rw [afterTicks_sampCount inps (s := State.resetOf cfg) cfg.K_pos]
  exact congrArg (· % cfg.K) (Nat.zero_add _)

/-! ### The raw levels a run leaves behind -/

/-- The levels `f` of one raw line over a run, the latest first, in front of the levels `h` before it. -/
def history (f : Inputs → Bit) (inps : List Inputs) (h : Nat → Bit) : Nat → Bit :=
  inps.foldl (fun g inp => push (f inp) g) h

theorem history_concat (f : Inputs → Bit) (inps : List Inputs) (inp : Inputs) (h : Nat → Bit) :
    history f (inps ++ [inp]) h = push (f inp) (history f inps h) := by
  rw [history, List.foldl_append]
  rfl

theorem history_of_getElem? {f : Inputs → Bit} {inps : List Inputs} {h : Nat → Bit} {i : Nat} {seen : Inputs}
    (hi : inps.reverse[i]? = some seen) : history f inps h i = f seen := by
  induction inps using List.reverseRecOn generalizing i with
  | nil => simp at hi
  | append_singleton inps inp ih =>
    rw [history_concat]
    rw [List.reverse_concat] at hi
    cases i with
    | zero =>
      obtain rfl : inp = seen := by simpa using hi
      rfl
    | succ i => exact ih (by simpa using hi)

theorem history_of_length_le {f : Inputs → Bit} {inps : List Inputs} {h : Nat → Bit} {i : Nat} (hi : inps.length ≤ i) :
    history f inps h i = h (i - inps.length) := by
  induction inps using List.reverseRecOn generalizing i with
  | nil => rfl
  | append_singleton inps inp ih =>
    rw [List.length_append, List.length_singleton] at hi ⊢
    obtain ⟨i, rfl⟩ : ∃ j, i = j + 1 := ⟨i - 1, by omega⟩
    rw [history_concat, push, ih (by omega), Nat.add_sub_add_right]

/-- Over a run at one level, the levels as old as the run is long are that level. -/
theorem history_of_constant {f : Inputs → Bit} {inps : List Inputs} {h : Nat → Bit} {i : Nat} {c : Bit}
    (hc : ∀ inp ∈ inps, f inp = c) (hi : i < inps.length) : history f inps h i = c := by
  have hlt : i < inps.reverse.length := by rwa [List.length_reverse]
  rw [history_of_getElem? (List.getElem?_eq_getElem hlt)]
  exact hc _ (List.mem_reverse.1 (List.getElem_mem hlt))

/-! ### What the synchronizer holds along a run -/

/-- The stages and LineSample of one line hold the raw levels `h`. `Tracks` without the edge history, which in a state the
invariants allow may be any level. -/
abbrev LineHolds (f1 f2 l : Bit) (K sc : Nat) (h : Nat → Bit) : Prop := ∃ p, Tracks f1 f2 l p K sc h

/-- The stages and LineSample of both lines hold the raw levels `hc` of SCL and `hd` of SDA. -/
structure Follows (s : State) (hc hd : Nat → Bit) : Prop where
  scl : LineHolds s.regs.sclFf1 s.regs.sclFf2 s.regs.scl s.cfg.K s.regs.sampCount hc
  sda : LineHolds s.regs.sdaFf1 s.regs.sdaFf2 s.regs.sda s.cfg.K s.regs.sampCount hd

/-- Any registers of a line hold some levels. -/
theorem exists_lineHolds (f1 f2 l : Bit) (K sc : Nat) : ∃ h, LineHolds f1 f2 l K sc h := by
  refine ⟨push f1 (push f2 fun _ => l), l, rfl, rfl, ?_, ?_⟩
  · rw [Nat.add_comm]
    rfl
  · unfold prevIndex
    split <;> rw [Nat.add_comm] <;> rfl

theorem exists_follows (s : State) : ∃ hc hd, Follows s hc hd := by
  obtain ⟨hc, hscl⟩ := exists_lineHolds s.regs.sclFf1 s.regs.sclFf2 s.regs.scl s.cfg.K s.regs.sampCount
  obtain ⟨hd, hsda⟩ := exists_lineHolds s.regs.sdaFf1 s.regs.sdaFf2 s.regs.sda s.cfg.K s.regs.sampCount
  exact ⟨hc, hd, hscl, hsda⟩

/-- The reset valuation is that of two lines long at 0 (10 R39). -/
theorem resetOf_follows (cfg : Config) : Follows (State.resetOf cfg) (fun _ => false) (fun _ => false) :=
  ⟨⟨false, tracks_const⟩, ⟨false, tracks_const⟩⟩

theorem tickState_follows {s : State} {hc hd : Nat → Bit} (hs : s.regs.sampCount < s.cfg.K) (h : Follows s hc hd) :
    Follows (tickState s) (push s.inputs.sclIn hc) (push s.inputs.sdaIn hd) := by
  obtain ⟨⟨_, hscl⟩, ⟨_, hsda⟩⟩ := h
  exact ⟨⟨_, tracks_tick hs hscl⟩, ⟨_, tracks_tick hs hsda⟩⟩

/-- A run pushes the raw levels of its ticks. -/
theorem afterTicks_follows (inps : List Inputs) {s : State} {hc hd : Nat → Bit} (hs : s.regs.sampCount < s.cfg.K)
    (h : Follows s hc hd) :
    Follows (afterTicks inps s) (history Inputs.sclIn inps hc) (history Inputs.sdaIn inps hd) := by
  induction inps generalizing s hc hd with
  | nil => exact h
  | cons inp inps ih =>
    exact ih (s := tickState (withInputs inp s)) (nextSampCount_lt (s := withInputs inp s) hs)
      (tickState_follows (s := withInputs inp s) hs ⟨h.scl, h.sda⟩)

/-- LineSample after a run: the raw levels of two ticks before the last capture, which was `samp_count` ticks ago (R113, R114). -/
theorem afterTicks_lines (inps : List Inputs) {s : State} {hc hd : Nat → Bit} (hs : s.regs.sampCount < s.cfg.K)
    (h : Follows s hc hd) :
    (afterTicks inps s).regs.scl = history Inputs.sclIn inps hc (2 + (afterTicks inps s).regs.sampCount) ∧
    (afterTicks inps s).regs.sda = history Inputs.sdaIn inps hd (2 + (afterTicks inps s).regs.sampCount) := by
  obtain ⟨⟨_, hscl⟩, ⟨_, hsda⟩⟩ := afterTicks_follows inps hs h
  exact ⟨hscl.sample, hsda.sample⟩

/-- From reset, right after a capture LineSample shows the raw levels two ticks before the capture tick. -/
theorem resetOf_lines_at_capture {cfg : Config} {inps : List Inputs} (inp : Inputs) (hv : (inps.length + 1) % cfg.K = 0) :
    (afterTicks (inps ++ [inp]) (State.resetOf cfg)).regs.scl = history Inputs.sclIn inps (fun _ => false) 1 ∧
    (afterTicks (inps ++ [inp]) (State.resetOf cfg)).regs.sda = history Inputs.sdaIn inps (fun _ => false) 1 := by
  have hsamp : (afterTicks (inps ++ [inp]) (State.resetOf cfg)).regs.sampCount = 0 := by
    rw [afterTicks_resetOf_sampCount, List.length_append, List.length_singleton, hv]
  have h := afterTicks_lines (inps ++ [inp]) cfg.K_pos (resetOf_follows cfg)
  rwa [hsamp, history_concat, history_concat] at h

/-- Between captures a tick holds both lines (R113). -/
theorem tickState_lines_held {s : State} (h : nextSampCount s ≠ 0) :
    (tickState s).regs.scl = s.regs.scl ∧ (tickState s).regs.sda = s.regs.sda := by
  have hc : s.regs.sampCount ≠ s.cfg.K - 1 := fun hc => h (by rw [nextSampCount_eq, if_pos hc])
  rw [tickState_scl, tickState_sda, nextScl_eq, nextSda_eq, if_neg hc, if_neg hc]
  exact ⟨rfl, rfl⟩

/-! ### The obligations -/

/-- Settles O14: the tick commits the next counter, and a run from reset counts its ticks modulo `K`. -/
theorem sampleCounterIsTickNumberModK : Obligations.SampleCounterIsTickNumberModK :=
  ⟨fun s => ⟨_, exec_tickStep s, nextSampCount_eq s⟩,
    fun cfg inps => ⟨_, runTicks_eq_next inps _, afterTicks_resetOf_sampCount cfg inps⟩⟩

/-- Settles O25: a tick that leaves the counter off 0 holds the lines; one that returns it to 0 shows the raw levels two ticks
before the capture tick, which are those before reset where the run is too short. -/
theorem lineSampleLatency : Obligations.LineSampleLatency := by
  intro cfg inps inp
  refine ⟨_, _, runTicks_eq_next inps _, runTicks_eq_next (inps ++ [inp]) _, fun hv => ?_, fun hv hlen => ?_,
    fun seen hv hlen hseen => ?_⟩
  · have hcount := afterTicks_resetOf_sampCount cfg (inps ++ [inp])
    rw [List.length_append, List.length_singleton, afterTicks_concat, tickState_sampCount] at hcount
    rw [afterTicks_concat]
    exact tickState_lines_held (by rwa [hcount])
  · obtain ⟨hscl, hsda⟩ := resetOf_lines_at_capture inp hv
    have hshort : inps.length ≤ 1 := by omega
    exact ⟨hscl.trans (history_of_length_le hshort), hsda.trans (history_of_length_le hshort)⟩
  · obtain ⟨hscl, hsda⟩ := resetOf_lines_at_capture inp hv
    have hlatest : inps.reverse[1]? = some seen := by
      rw [List.getElem?_reverse (by omega), Nat.sub_sub]
      exact hseen
    exact ⟨hscl.trans (history_of_getElem? hlatest), hsda.trans (history_of_getElem? hlatest)⟩

/-- Settles O26: the last capture was at most `K - 1` ticks ago and took a raw level two ticks older, which is one of the run. -/
theorem heldLevelIsCaptured : Obligations.HeldLevelIsCaptured := by
  intro s inps c d hinv hlen hheld
  obtain ⟨hs, -⟩ := hinv
  obtain ⟨hc, hd, hfollows⟩ := exists_follows s
  obtain ⟨hscl, hsda⟩ := afterTicks_lines inps hs hfollows
  have hage : 2 + (afterTicks inps s).regs.sampCount < inps.length := by
    have := afterTicks_sampCount_lt inps hs
    omega
  exact ⟨_, runTicks_eq_next inps s, hscl.trans (history_of_constant (fun inp h => (hheld inp h).1) hage),
    hsda.trans (history_of_constant (fun inp h => (hheld inp h).2) hage)⟩

/-- Settles O13: each operation commits its own next values (log 21), and those are what R110 to R113 and R120 say. -/
theorem synchronizerOperations : Obligations.SynchronizerOperations := by
  intro s
  refine ⟨rfl, rfl, ?_, ?_, rfl⟩
  · rw [← nextSampCount_eq]
    rfl
  · rw [← nextScl_eq, ← nextSda_eq]
    rfl

end Sys2Proof.Machine
end

section
/-!
PROOFS of the family 41_edge_framing.md: the edge and framing pulses in the words of their truth tables, what they show while a line
holds its level, and which of them exclude each other.
-/

namespace Sys2Proof.Machine

/-! ### When a pulse shows -/

/-- R121. -/
theorem sclRising_iff {s : State} : sclRising s = true ↔ risesScl s := by
  rw [sclRising, Bool.and_eq_true, Bool.not_eq_true']

/-- R122. -/
theorem sclFalling_iff {s : State} : sclFalling s = true ↔ s.regs.scl = false ∧ s.regs.sclPrev = true := by
  rw [sclFalling, Bool.and_eq_true, Bool.not_eq_true']

/-- R125: the one row `0b110` of the table. -/
theorem startSeen_iff {s : State} : startSeen s = true ↔ showsStart s := by
  rw [startSeen, sdaFalling, Bool.and_eq_true, Bool.and_eq_true, Bool.not_eq_true', and_comm (a := s.regs.sda = false)]

/-- R126: the one row `0b101` of the table. -/
theorem stopSeen_iff {s : State} : stopSeen s = true ↔ showsStop s := by
  rw [stopSeen, sdaRising, Bool.and_eq_true, Bool.and_eq_true, Bool.not_eq_true', and_comm (a := s.regs.sda = true)]

theorem startSeen_eq_decide (s : State) :
    startSeen s = decide ((s.regs.scl, s.regs.sdaPrev, s.regs.sda) = (true, true, false)) := by
  rw [Bool.eq_iff_iff, startSeen_iff, decide_eq_true_iff, Prod.mk.injEq, Prod.mk.injEq]

theorem stopSeen_eq_decide (s : State) :
    stopSeen s = decide ((s.regs.scl, s.regs.sdaPrev, s.regs.sda) = (true, false, true)) := by
  rw [Bool.eq_iff_iff, stopSeen_iff, decide_eq_true_iff, Prod.mk.injEq, Prod.mk.injEq]

/-! ### A line that holds its level gives no pulse (R127) -/

theorem scl_edges_of_held {s : State} (h : s.regs.scl = s.regs.sclPrev) : sclRising s = false ∧ sclFalling s = false := by
  rw [sclRising, sclFalling, h]
  exact ⟨Bool.and_not_self _, Bool.not_and_self _⟩

theorem sda_edges_of_held {s : State} (h : s.regs.sda = s.regs.sdaPrev) : sdaRising s = false ∧ sdaFalling s = false := by
  rw [sdaRising, sdaFalling, h]
  exact ⟨Bool.and_not_self _, Bool.not_and_self _⟩

theorem framing_of_held {s : State} (h : s.regs.sda = s.regs.sdaPrev) : startSeen s = false ∧ stopSeen s = false := by
  obtain ⟨hrise, hfall⟩ := sda_edges_of_held h
  rw [startSeen, stopSeen, hrise, hfall, Bool.and_false]
  exact ⟨rfl, rfl⟩

/-! ### Exclusions (R128) -/

/-- The two read SDA at opposite levels. -/
theorem not_startSeen_and_stopSeen (s : State) : ¬ (startSeen s = true ∧ stopSeen s = true) := by
  rw [startSeen_iff, stopSeen_iff]
  rintro ⟨⟨-, -, hlow⟩, -, -, hhigh⟩
  exact absurd (hlow.symm.trans hhigh) Bool.false_ne_true

theorem not_sclRising_and_sclFalling (s : State) : ¬ (sclRising s = true ∧ sclFalling s = true) := by
  rw [sclRising_iff, sclFalling_iff]
  rintro ⟨⟨hhigh, -⟩, hlow, -⟩
  exact absurd (hlow.symm.trans hhigh) Bool.false_ne_true

/-- START and STOP need SCL high. -/
theorem scl_of_framing {s : State} (h : startSeen s = true ∨ stopSeen s = true) : s.regs.scl = true := by
  rw [startSeen_iff, stopSeen_iff] at h
  exact h.elim And.left And.left

theorem not_sclFalling_and_framing (s : State) :
    ¬ (sclFalling s = true ∧ (startSeen s = true ∨ stopSeen s = true)) := by
  rintro ⟨hfall, hframing⟩
  exact absurd ((sclFalling_iff.1 hfall).1.symm.trans (scl_of_framing hframing)) Bool.false_ne_true

/-! ### The obligations -/

/-- Settles O15: each operation shows its own signal (log 9, log 21); START and STOP by their truth tables. -/
theorem edgeAndFramingOperations : Obligations.EdgeAndFramingOperations := by
  intro s
  refine ⟨rfl, rfl, rfl, rfl, ?_, ?_⟩
  · rw [← startSeen_eq_decide]
    rfl
  · rw [← stopSeen_eq_decide]
    rfl

/-- Settles O27: the signals a tick shows are the pulses of the registers it starts from. -/
theorem pulsesNeedAChange : Obligations.PulsesNeedAChange := by
  intro s
  refine ⟨tickState s, exec_tickStep s, scl_edges_of_held, fun hheld => ?_, not_startSeen_and_stopSeen s,
    not_sclRising_and_sclFalling s, not_sclFalling_and_framing s⟩
  obtain ⟨hrise, hfall⟩ := sda_edges_of_held hheld
  exact ⟨hrise, hfall, framing_of_held hheld⟩

end Sys2Proof.Machine
end

section
/-!
PROOFS of the family 42_shifter.md: the bit counter, the accumulator and the output latch in the words of their rules, and eight bit
slots in a receive state. A bus operation uses up the inputs of its ticks one by one (`coming_of_performed`), so the premises of the
operations after it can be read off its own premises.
-/

namespace Sys2Proof.Machine

/-! ### When the shifter acts (R130 to R133) -/

/-- BYTE is RCV and READ. -/
theorem transfers_iff {s : State} : transfers s.regs.state = true ↔
    s.regs.state = .rcvAddress ∨ s.regs.state = .rcvOffset ∨ s.regs.state = .rcvData ∨ s.regs.state = .read := by
  rw [transfers, Bool.or_eq_true, receives_iff_inReceive, beq_iff_eq, InReceive, or_assoc, or_assoc]

/-- R130. -/
theorem countClears_iff {s : State} : countClears s = true ↔ showsStart s := startSeen_iff

/-- R131. -/
theorem countWraps_iff {s : State} : countWraps s = true ↔ ¬ showsStart s ∧ risesScl s ∧ s.regs.bitCount = 8 := by
  rw [countWraps, Bool.and_eq_true, Bool.and_eq_true, Bool.not_eq_true', ← Bool.not_eq_true, startSeen_iff, sclRising_iff,
    beq_iff_eq, and_assoc]

/-- What COUNT_INC and SHIFT_IN share: a rising edge without a START, before the byte is complete, in some states. -/
theorem counts_iff {s : State} {c : Bit} {p : Prop} (hc : c = true ↔ p) :
    (!startSeen s && sclRising s && s.regs.bitCount != 8 && c) = true ↔
      ¬ showsStart s ∧ risesScl s ∧ s.regs.bitCount ≠ 8 ∧ p := by
  rw [Bool.and_eq_true, Bool.and_eq_true, Bool.and_eq_true, Bool.not_eq_true', ← Bool.not_eq_true, startSeen_iff, sclRising_iff,
    bne_iff_ne, hc, and_assoc, and_assoc]

/-- R132. -/
theorem countIncs_iff {s : State} : countIncs s = true ↔ ¬ showsStart s ∧ risesScl s ∧ s.regs.bitCount ≠ 8 ∧
    (s.regs.state = .rcvAddress ∨ s.regs.state = .rcvOffset ∨ s.regs.state = .rcvData ∨ s.regs.state = .read) :=
  counts_iff transfers_iff

/-- R133. -/
theorem shiftsIn_iff {s : State} : shiftsIn s = true ↔ ¬ showsStart s ∧ risesScl s ∧ s.regs.bitCount ≠ 8 ∧ InReceive s :=
  counts_iff receives_iff_inReceive

theorem nextValue_eq (s : State) :
    nextValue s =
      if ¬ showsStart s ∧ risesScl s ∧ s.regs.bitCount ≠ 8 ∧ InReceive s
      then BitVec.ofNat 8 (2 * s.regs.value.toNat + s.regs.sda.toNat) else s.regs.value :=
  if_congr shiftsIn_iff (shiftLeftIn_eq_shifted s.regs.value s.regs.sda) rfl

/-! ### The output latch (R135, R137 to R139) -/

theorem byteComplete_eq_decide (s : State) : byteComplete s = decide (s.regs.bitCount = 8) := rfl

theorem byteComplete_iff {s : State} : byteComplete s = true ↔ s.regs.bitCount = 8 := by
  rw [byteComplete, beq_iff_eq]

theorem outBit_eq {s : State} (h : s.regs.bitCount ≤ 8) :
    outBit s = if s.regs.bitCount = 8 then false else (s.mem.read s.regs.offset).getLsbD (7 - s.regs.bitCount) := by
  rw [outBit]
  by_cases h8 : s.regs.bitCount = 8
  · rw [if_pos h8, if_neg (by omega)]
  · rw [if_neg h8, if_pos (by omega), memRdata]

/-- READ with SCL low drives a bit while the byte is not complete (44 R175). -/
theorem strobes_dataDrvEn_iff {s : State} :
    strobes .dataDrvEn s = true ↔ s.regs.state = .read ∧ s.regs.scl = false ∧ s.regs.bitCount ≠ 8 := by
  rw [strobes_dataDrvEn, Bool.and_eq_true, Bool.and_eq_true, beq_iff_eq, Bool.not_eq_true', Bool.not_eq_true',
    byteComplete_eq_decide, decide_eq_false_iff_not, and_assoc]

/-- READ with SCL low lets go when the byte is complete (44 R175). -/
theorem strobes_dataDrvStop_iff {s : State} :
    strobes .dataDrvStop s = true ↔ s.regs.state = .read ∧ s.regs.scl = false ∧ s.regs.bitCount = 8 := by
  rw [strobes_dataDrvStop, Bool.and_eq_true, Bool.and_eq_true, beq_iff_eq, Bool.not_eq_true', byteComplete_iff, and_assoc]

theorem nextDataDrv_eq (s : State) :
    nextDataDrv s =
      if showsStart s ∨ showsStop s then false
      else if s.regs.state = .read ∧ s.regs.scl = false then decide (s.regs.bitCount ≠ 8) else s.regs.dataDrv := by
  simp only [nextDataDrv, Bool.or_eq_true, startSeen_iff, stopSeen_iff, strobes_dataDrvEn_iff, strobes_dataDrvStop_iff]
  by_cases hread : s.regs.state = .read ∧ s.regs.scl = false
  · by_cases h8 : s.regs.bitCount = 8 <;> simp [hread, h8]
  · simp [← and_assoc, hread]

theorem nextDataBit_eq {s : State} (h : s.regs.bitCount ≤ 8) :
    nextDataBit s =
      if s.regs.state = .read ∧ s.regs.scl = false ∧ s.regs.bitCount ≠ 8
      then (s.mem.read s.regs.offset).getLsbD (7 - s.regs.bitCount) else s.regs.dataBit := by
  simp only [nextDataBit, strobes_dataDrvEn_iff]
  split_ifs with hen
  · rw [outBit_eq h, if_neg hen.2.2]
  · rfl

/-! ### The obligations on single operations (log 21) -/

/-- Settles O16: each operation commits its own register, under the condition of its rule. -/
theorem shifterOperations : Obligations.ShifterOperations := by
  intro s
  refine ⟨?_, ?_, ?_, ?_, rfl⟩
  · simp only [← countClears_iff]
    rfl
  · simp only [← countWraps_iff]
    rfl
  · simp only [← countIncs_iff]
    rfl
  · rw [← nextValue_eq]
    rfl

/-- Settles O17: the signals and the latch of the outgoing bit, with the strobes of READ spelled out. -/
theorem outputLatchOperations : Obligations.OutputLatchOperations := by
  intro s h
  refine ⟨rfl, ?_, ?_, ?_⟩
  · rw [← outBit_eq h]
    rfl
  · rw [← nextDataDrv_eq]
    rfl
  · rw [← nextDataBit_eq h]
    rfl

/-! ### The inputs a bus operation leaves to come (log 2) -/

theorem coming_busTick {s : State} (h : s.ahead ≠ []) : coming (busTick s) = s.ahead := by
  have hfeeds : s.ahead <+: coming (busTick s) := Feeds.tail (inp := s.inputs) ⟨[], List.append_nil _⟩
  have hlen : s.ahead.length = (coming (busTick s)).length := by
    have := List.length_pos_iff.2 h
    rw [List.length_cons, busTick_ahead, List.length_drop]
    omega
  exact (hfeeds.eq_of_length hlen).symm

/-- `t` comes some ticks after `s`: as long as the inputs are fixed, those of the next ticks are the ones that were to come. -/
def UsesUp (s t : State) : Prop :=
  ∃ k, t.ahead = s.ahead.drop k ∧ (k ≤ s.ahead.length → coming t = (coming s).drop k)

theorem UsesUp.busTick {s t : State} (h : UsesUp s t) : UsesUp s (busTick t) := by
  obtain ⟨k, hahead, hcoming⟩ := h
  refine ⟨k + 1, by rw [busTick_ahead, hahead, List.drop_drop], fun hk => ?_⟩
  have hne : t.ahead ≠ [] := by
    rw [hahead, ← List.length_pos_iff, List.length_drop]
    omega
  rw [coming_busTick hne, hahead, List.drop_succ_cons]

theorem play_usesUp (phases : List Phase) (s : State) : UsesUp s (play phases s) :=
  play_keeps (P := UsesUp s) (fun _ => UsesUp.busTick) (fun _ _ h => h) (fun _ _ _ h => h) (fun _ _ h => h) phases s
    ⟨0, rfl, fun _ => rfl⟩

/-- After a bus operation of `n` ticks the inputs from the `n`-th on are still to come. -/
theorem coming_of_performed {i : Instr} (hi : isBusOp i = true) {n : Nat} {s t : State} (ht : exec i s = .next t)
    (hp : Performed n s t) (hn : n < s.ahead.length) : coming t = (coming s).drop n := by
  obtain ⟨phases, hexec⟩ := exec_of_isBusOp hi s
  cases hexec.symm.trans ht
  obtain ⟨k, hahead, hcoming⟩ := play_usesUp (s.bus ++ phases) s
  obtain ⟨-, -, -, hdrop, -⟩ := hp
  have hlen := congrArg List.length (hahead.symm.trans hdrop)
  rw [List.length_drop, List.length_drop] at hlen
  obtain rfl : k = n := by omega
  exact hcoming hn.le

theorem peaceful_mono {m n : Nat} {s : State} (h : Peaceful n s) (hm : m ≤ n) : Peaceful m s :=
  ⟨hm.trans h.1, fun inp hi => h.2 inp (List.take_subset_take_left _ hm hi)⟩

/-- The peace that outlasts a bus operation. If it lasts one tick more only, that tick may be one whose inputs were not to come
before. -/
theorem peaceful_of_performed {i : Instr} (hi : isBusOp i = true) {n m : Nat} {s t : State} (ht : exec i s = .next t)
    (hp : Performed n s t) (h : Peaceful (n + m) s) (hm : m ≠ 1) : Peaceful m t := by
  obtain rfl | hpos := Nat.eq_zero_or_pos m
  · exact ⟨Nat.zero_le _, fun _ hinp => absurd hinp List.not_mem_nil⟩
  · obtain ⟨hlen, hcalm⟩ := h
    have hn : n < s.ahead.length := by
      rw [List.length_cons] at hlen
      omega
    rw [Peaceful, coming_of_performed hi ht hp hn, List.length_drop, List.take_drop]
    exact ⟨by omega, fun inp hinp => hcalm inp (List.drop_subset n _ hinp)⟩

theorem performed_zero {s : State} (h : AtRest s) : Performed 0 s s := ⟨rfl, rfl, rfl, rfl, h⟩

theorem paced_of_performed {n : Nat} {s t : State} (h : Performed n s t) (hp : Paced s) : Paced t := by
  obtain ⟨hcfg, -, hpace, -⟩ := h
  rw [Paced, hcfg, hpace]
  exact hp

theorem performed_trans {m n : Nat} {s t u : State} (h : Performed m s t) (h' : Performed n t u) : Performed (m + n) s u := by
  obtain ⟨hcfg, hqueue, hpace, hahead, -⟩ := h
  obtain ⟨hcfg', hqueue', hpace', hahead', hrest⟩ := h'
  exact ⟨hcfg'.trans hcfg, hqueue'.trans hqueue, hpace'.trans hpace, by rw [hahead', hahead, List.drop_drop], hrest⟩

/-! ### Bit slots in a receive state (R136) -/

theorem isBusOp_bitOp (b : Bit) : isBusOp (bitOp b) = true := by
  cases b <;> rfl

/-- Eight bits shifted in, most significant first, are the byte, whatever was there before. -/
theorem shifted_byteBits (v byte : Byte) : shifted v (byteBits byte) = byte :=
  calc shifted v (byteBits byte)
      = (byteBits byte).foldl shiftLeftIn v :=
        congrArg (fun f => (byteBits byte).foldl f v) (funext₂ shiftLeftIn_eq_shifted).symm
    _ = byte := shift_byte byte v

/-- A run of bit slots in a receive state, up to the end of the byte: every bit is counted and shifted in, and the state's rule sees
a complete byte. The peace that outlasts the run is for the operation after it. -/
theorem runBits_receives (bits : List Bit) {n : Nat} {s : State} (hinv : TickInv s) (hrest : AtRest s) (hpaced : Paced s)
    (hpeace : Peaceful (bits.length * bitTicks s + n) s) (hn : n ≠ 1) (hr : InReceive s) (hb : s.regs.bitCount < 8)
    (hbits : s.regs.bitCount + bits.length ≤ 8) :
    ∃ t wire, runOps (bits.map bitOp) s = .next t ∧ Performed (bits.length * bitTicks s) s t ∧ TickInv t ∧ Peaceful n t ∧
      view t =
        ({ view s with
           bitCount := s.regs.bitCount + bits.length
           value := shifted s.regs.value bits
           wire := wire } : View).holdStep := by
  have hrcv := receives_iff_inReceive.2 hr
  induction bits using List.reverseRecOn generalizing n with
  | nil =>
    rw [List.length_nil, Nat.zero_mul] at hpeace ⊢
    rw [Nat.zero_add] at hpeace
    exact ⟨s, s.wire, rfl, performed_zero hrest, hinv, hpeace, (holdStep_receives (v := view s) hrcv hb.ne).symm⟩
  | append_singleton bits b ih =>
    have hlong : 2 ≤ bitTicks s := by
      obtain ⟨-, -, -, -, hlong⟩ := hpaced
      rw [bitTicks]
      omega
    rw [List.length_append, List.length_singleton] at hbits
    rw [List.length_append, List.length_singleton, Nat.succ_mul] at hpeace ⊢
    rw [Nat.add_assoc] at hpeace
    obtain ⟨u, wire, hu, hpu, hinvu, hpeaceu, hvu⟩ := ih hpeace (by omega) (by omega)
    -- the byte is not complete before the last slot
    rw [holdStep_receives hrcv (by show s.regs.bitCount + bits.length ≠ 8; omega)] at hvu
    obtain ⟨-, -, hpace, -, hrestu⟩ := id hpu
    have hsame : bitTicks u = bitTicks s := by rw [bitTicks, hpace]
    have hstate : u.regs.state = s.regs.state := congrArg View.st hvu
    have hcount : u.regs.bitCount = s.regs.bitCount + bits.length := congrArg View.bitCount hvu
    have hvalue : u.regs.value = shifted s.regs.value bits := congrArg View.value hvu
    rw [← hsame] at hpeaceu
    obtain ⟨t, wire', ht, hpt, -, hvt⟩ := bitOp_receives b
      ⟨hinvu, hrestu, paced_of_performed hpu hpaced, peaceful_mono hpeaceu (Nat.le_add_right _ _)⟩ (by rwa [InReceive, hstate])
      (by omega)
    have hpeacet := peaceful_of_performed (isBusOp_bitOp b) ht hpt hpeaceu hn
    rw [hsame] at hpt
    refine ⟨t, wire', ?_, performed_trans hpu hpt, tickInv_of_exec (isBusOp_bitOp b) hinvu ht, hpeacet, ?_⟩
    · rw [List.map_append, runOps_append, hu, andThen_next, List.map_singleton, runOps, ht]
      rfl
    · rw [hvt, hvu, hcount, hvalue, shifted, shifted, shifted, List.foldl_append]
      rfl

/-- Settles O45: eight slots shift the byte in, whatever the accumulator held, and the state's rule sees it complete. -/
theorem eightBitsAreTheByte : Obligations.EightBitsAreTheByte := by
  intro byte s hinv hrest hpaced hpeace hr hzero
  obtain ⟨t, wire, ht, hp, -, -, hv⟩ := runBits_receives (byteBits byte) (n := 0) hinv hrest hpaced hpeace (by decide) hr
    (by omega) (by rw [hzero]; rfl)
  rw [hzero, shifted_byteBits] at hv
  obtain ⟨⟨-, -, -, hwf, -⟩, hdrives⟩ := hinv
  obtain ⟨hcount, hvalue, hdrv, hbit, hstate, hstrobes⟩ := completed_rule hr hwf hv
  have hidle : s.regs.dataDrv = false := dataDrv_eq_false hdrives (ne_read_of_receives (receives_iff_inReceive.2 hr))
  exact ⟨t, ht, hp, hcount, hvalue, hdrv.trans hidle, hbit, hstate, hstrobes⟩

end Sys2Proof.Machine
end

section
/-!
PROOFS of the family 43_acknowledger.md: the drive signals in the words of their rules, a store that is never busy, and a store that
stays busy: in a run of ticks with SCL held low (`HeldLow`), and in a frame the core acknowledges (`Answers`), which stops in
slot 9 with the master waiting.
-/

namespace Sys2Proof.Machine

/-! ### The sets of states of the rules (R145, R148) -/

/-- R145. -/
theorem acknowledges_eq_decide (st : ProtocolState) :
    acknowledges st = decide (st ∈
      [ProtocolState.ackAddress1, .ackAddress2, .ackOffset1, .ackOffset2, .ackData1, .ackData2]) := by
  cases st <;> rfl

/-- R148. -/
theorem stretches_eq_decide (st : ProtocolState) :
    stretches st = decide (st ∈ [ProtocolState.ackAddress1, .ackOffset1, .ackData1]) := by
  cases st <;> rfl

theorem stretches_iff {st : ProtocolState} :
    stretches st = true ↔ st = .ackAddress1 ∨ st = .ackOffset1 ∨ st = .ackData1 := by
  simp [stretches_eq_decide]

/-- Where the core may hold SCL it holds SDA (R145, R148). -/
theorem acknowledges_of_stretches {st : ProtocolState} (h : stretches st = true) : acknowledges st = true := by
  obtain rfl | rfl | rfl := stretches_iff.1 h <;> rfl

theorem View.oe_of_stretches {v : View} (h : stretches v.st = true) : v.oe = true := by
  rw [View.oe, acknowledges_of_stretches h, Bool.true_or]

/-! ### A store that is not busy (R154) -/

theorem sclOe_of_not_busy {s : State} (h : s.inputs.storeBusy = false) : sclOe s = false := by
  rw [sclOe, h, Bool.false_and, Bool.false_and]

/-- The last tick of a run decides what is shown, and a run of no ticks leaves it. -/
theorem afterTicks_sclOe_of_not_busy {inps : List Inputs} {s : State} (h : s.wires.sclOe = false)
    (hidle : ∀ inp ∈ inps, inp.storeBusy = false) : (afterTicks inps s).wires.sclOe = false := by
  obtain rfl | ⟨init, last, rfl⟩ := List.eq_nil_or_concat' inps
  · exact h
  · rw [afterTicks_concat]
    exact sclOe_of_not_busy (s := withInputs last (afterTicks init s)) (hidle last (by simp))

/-! ### A store that stays busy, tick by tick (R155) -/

/-- An ACK_x1 state, with SCL low in both stages of the synchronizer and in LineSample. -/
abbrev HeldLow (s : State) : Prop :=
  stretches s.regs.state = true ∧ s.regs.scl = false ∧ s.regs.sclFf2 = false ∧ s.regs.sclFf1 = false

/-- A low SCL line keeps the core where it is: its rule waits for SCL high, and SCL low is no START or STOP (44 R165, R169,
R173). -/
theorem heldLow_tickState {s : State} (h : HeldLow s) (hin : s.inputs.sclIn = false) :
    HeldLow (tickState s) ∧ (tickState s).regs.state = s.regs.state := by
  obtain ⟨hst, hscl, hff2, hff1⟩ := h
  have hview : view (tickState s) = view s := (view_low s hscl).trans (lowStep_stretches hst)
  have hstate : (tickState s).regs.state = s.regs.state := congrArg View.st hview
  have hnext : nextScl s = false := by rw [nextScl, hff2, hscl, ite_self]
  exact ⟨⟨by rw [hstate]; exact hst, hnext, hff1, hin⟩, hstate⟩

theorem heldLow_afterTicks {s : State} (h : HeldLow s) (inps : List Inputs) (hin : ∀ inp ∈ inps, inp.sclIn = false) :
    HeldLow (afterTicks inps s) ∧ (afterTicks inps s).regs.state = s.regs.state := by
  induction inps generalizing s with
  | nil => exact ⟨h, rfl⟩
  | cons inp inps ih =>
    obtain ⟨hheld, hstate⟩ := heldLow_tickState (s := withInputs inp s) h (hin inp (by simp))
    obtain ⟨hheld', hstate'⟩ := ih hheld fun i hi => hin i (by simp [hi])
    exact ⟨hheld', hstate'.trans hstate⟩

/-- R146, R148. -/
theorem drives_of_heldLow {s : State} (h : HeldLow s) (hbusy : s.inputs.storeBusy = true) :
    Drives (tickState s) true true := by
  obtain ⟨hst, hscl, -, -⟩ := h
  constructor
  · exact View.oe_of_stretches (v := view s) hst
  · show sclOe s = true
    rw [sclOe, hbusy, hscl, hst]
    rfl

/-! ### A store that stays busy, in a frame (47 R223) -/

/-- A receive state in which the core acknowledges the byte once it is complete: in RCV_ADDRESS its own address only (44 R163,
R167, R171). -/
def Answers (cfg : Config) (st : ProtocolState) (byte : Byte) : Prop :=
  receives st = true ∧ (st = .rcvAddress → byte.extractLsb' 1 7 = cfg.addr)

/-- With SCL low a complete byte the core answers leads to its ACK_x1 state in two ticks. -/
theorem stretches_of_answered {v : View} (h : Answers v.cfg v.st v.value) (h8 : v.bitCount = 8) :
    stretches v.lowStep.lowStep.st = true := by
  obtain ⟨cfg, st, bc, value, off, ir, dd, db, mem, w⟩ := v
  obtain ⟨hr, haddr⟩ := h
  obtain rfl : bc = 8 := h8
  cases st with
  | rcvAddress =>
    have ha : value.extractLsb' 1 7 = cfg.addr := haddr rfl
    simp only [View.lowStep, reduceIte, ha, stretches]
  | rcvOffset | rcvData => rfl
  | _ => cases hr

/-- Eight slots of a byte the core answers, none of them stretched, lead to the ACK_x1 state in which it may stretch the ninth. -/
theorem slots_answered {v : View} {byte : Byte} (h : Answers v.cfg v.st byte) (hb : v.bitCount = 0) (hd : v.dataDrv = false) :
    v.unstretched (byteBits byte) ∧ stretches (v.slots (byteBits byte)).st = true := by
  obtain ⟨hunstretched, hslots⟩ := slots_receiveByte byte h.1 hb hd
  refine ⟨hunstretched, ?_⟩
  rw [hslots]
  exact stretches_of_answered h rfl

/-- What a stretched frame shows: the core in an ACK_x1 state with SCL seen low, and the master still in the frame. -/
theorem Stretched.shows {ack : Bit} {w : View} {s u : State} (h : Stretched ack w s u) :
    u.regs.state = w.st ∧ u.regs.scl = false ∧ u.bus ≠ [] := by
  obtain ⟨hview, hscl⟩ := h.poised.settled
  exact ⟨congrArg View.st hview, hscl, by rw [h.bus]; exact List.cons_ne_nil _ _⟩

/-- The inputs of the next `m + n` ticks, those of the last `n` apart. -/
theorem peaceful_split {m n : Nat} {s : State} (h : Peaceful (m + n) s) :
    ∃ a b, a.length = m ∧ b.length = n ∧ b = ((coming s).drop m).take n ∧ Feeds (a ++ b) s ∧ ∀ inp ∈ a ++ b, Calm inp := by
  obtain ⟨hfeeds, hcalm, -⟩ := peaceful_feeds h
  obtain ⟨hlen, -⟩ := h
  rw [List.take_add] at hfeeds hcalm
  exact ⟨_, _, by rw [List.length_take]; omega, by rw [List.length_take, List.length_drop]; omega, rfl, hfeeds, hcalm⟩

/-- A frame the core answers, with the store busy for `n` ticks from the release of SCL for slot 9: it stops there, and `n` steps
later the core is in the same ACK_x1 with both lines held low. -/
theorem frame_held {byte : Byte} {s : State} {n : Nat} (hinv : TickInv s) (hrest : AtRest s) (hpaced : Paced s)
    (hzero : s.regs.bitCount = 0) (hn : 0 < n) (hpeace : Peaceful (ackTick s + n) s) (hbusy : StoreBusy (ackTick s) n s)
    (hans : Answers s.cfg s.regs.state byte) :
    ∃ u t, frame byte true s = .next u ∧ runSteps n u = .next t ∧ t.bus ≠ [] ∧ t.bus = u.bus ∧ t.regs.scl = false ∧
      t.regs.state = u.regs.state ∧
      (u.regs.state = .ackAddress1 ∨ u.regs.state = .ackOffset1 ∨ u.regs.state = .ackData1) ∧ Drives t true true := by
  obtain ⟨⟨hsamp, -⟩, hdrives⟩ := hinv
  have hr := hans.1
  obtain ⟨hunstretched, hack⟩ :=
    slots_answered (v := view s) hans hzero (dataDrv_eq_false hdrives (ne_read_of_receives hr))
  have hfalls : Falls (view s) s :=
    falls_atRest hsamp hrest (reacts_receives hr (by rw [show (view s).bitCount = 0 from hzero]; decide))
  obtain ⟨a, b, ha, rfl, hb, hfeeds, hcalm⟩ := peaceful_split hpeace
  have hbusy' : ∀ inp ∈ b, inp.storeBusy = true := by
    rw [hb]
    exact hbusy
  obtain ⟨inp, rest, rfl⟩ := List.exists_cons_of_length_pos hn
  obtain ⟨u, hu, hstretched, -, hfeedsu⟩ := frame_stretched hfalls hrest.1 hpaced hfeeds (fun i hi => hcalm i (by simp [hi])) ha
    hunstretched hack (hcalm inp (by simp)) (hbusy' inp (by simp))
  obtain ⟨t, ht, hstretched', -, -, hdrive⟩ := hstretched.steps (a := inp :: rest) (c := []) (by rwa [List.append_nil])
    (fun i hi => hcalm i (List.mem_append_right a hi)) hbusy'
  obtain ⟨hstate, -, -⟩ := hstretched.shows
  obtain ⟨hstate', hscl, hbus⟩ := hstretched'.shows
  rw [View.oe_of_stretches hack] at hdrive
  exact ⟨u, t, hu, ht, hbus, hstretched'.bus.trans hstretched.bus.symm, hscl, hstate'.trans hstate.symm,
    stretches_iff.1 (by rw [hstate]; exact hack), hdrive (List.cons_ne_nil inp rest)⟩

theorem answers_addressByte (cfg : Config) (rw : Bit) (st : ProtocolState) (hr : receives st = true) :
    Answers cfg st (cfg.addressByte rw) :=
  ⟨hr, fun _ => by simpa [Config.addresses] using addresses_addressByte cfg rw⟩

/-- The frames the core acknowledges, each in its state, as frames of a byte the state answers (30 R86 to R88, R90). -/
theorem exec_answered {i : Instr} {s : State}
    (h : (s.regs.state = .rcvAddress ∧ (i = .addrW ∨ i = .addrR)) ∨ (s.regs.state = .rcvOffset ∧ ∃ o, i = .offset o) ∨
      (s.regs.state = .rcvData ∧ ∃ d, i = .wdata d)) :
    ∃ byte, exec i s = frame byte true s ∧ Answers s.cfg s.regs.state byte := by
  obtain ⟨hst, rfl | rfl⟩ | ⟨hst, o, rfl⟩ | ⟨hst, d, rfl⟩ := h
  · exact ⟨_, rfl, answers_addressByte _ _ _ (by rw [hst]; rfl)⟩
  · exact ⟨_, rfl, answers_addressByte _ _ _ (by rw [hst]; rfl)⟩
  · exact ⟨o, rfl, by rw [hst]; rfl, by rw [hst]; nofun⟩
  · exact ⟨d, rfl, by rw [hst]; rfl, by rw [hst]; nofun⟩

/-! ### The obligations -/

/-- Settles O59: ticks with SCL low keep an ACK_x1 state, and a frame the core acknowledges stays there for as many steps as the
store stays busy. -/
theorem busyStoreHoldsTheBus : Obligations.BusyStoreHoldsTheBus := by
  refine ⟨fun s inps _ hst hscl hff2 hff1 hne hin => ?_, fun s i n hinv hrest hpaced hzero hn hpeace hbusy hframe => ?_⟩
  · have hheld : HeldLow s := ⟨stretches_iff.2 hst, hscl, hff2, hff1⟩
    obtain ⟨⟨-, hlow, -, -⟩, hstate⟩ := heldLow_afterTicks hheld inps fun inp hi => (hin inp hi).1
    refine ⟨_, runTicks_eq_next inps s, hstate, hlow, ?_⟩
    -- the last tick starts from an acknowledge still held
    obtain ⟨init, last, rfl⟩ := (List.eq_nil_or_concat' inps).resolve_left hne
    have hlast := (heldLow_afterTicks hheld init fun inp hi => (hin inp (by simp [hi])).1).1
    rw [afterTicks_concat]
    exact drives_of_heldLow (s := withInputs last (afterTicks init s)) hlast (hin last (by simp)).2
  · obtain ⟨byte, hexec, hans⟩ := exec_answered hframe
    rw [hexec]
    exact frame_held hinv hrest hpaced hzero hn hpeace hbusy hans

/-- Settles O60: every run keeps the invariants, and its last tick shows `scl_oe` as a store that is not busy makes it. -/
theorem idleStoreNeverStretches : Obligations.IdleStoreNeverStretches := by
  intro s inps hinv hscl hidle
  obtain ⟨t, ht, ⟨⟨-, -, -, -, -, -, hsclO⟩, -⟩, -⟩ := runTicks_next_tickInv inps hinv
  cases (runTicks_eq_next inps s).symm.trans ht
  exact ⟨_, ht, afterTicks_sclOe_of_not_busy hscl hidle, hsclO⟩

/-- Settles O18: each operation shows its own signals (log 9, log 21), with the states of R145 and R148 listed. -/
theorem acknowledgerOperations : Obligations.AcknowledgerOperations := by
  intro s
  refine ⟨?_, ?_, rfl, ?_, rfl, rfl⟩
  · rw [← acknowledges_eq_decide]
    rfl
  · rw [← acknowledges_eq_decide]
    rfl
  · rw [← stretches_eq_decide]
    rfl

end Sys2Proof.Machine
end

section
/-!
PROOFS of the family 44_protocol_fsm.md: the next registers of a tick in the words of the transition summary and of the strobes, what
a STATE row without an override does (`row_tick`), and how START and STOP are taken, by the tick of every state and by the master on
the raw lines.
-/

namespace Sys2Proof.Machine

/-! ### The next registers, in the words of the rules -/

/-- R161. -/
theorem addrMatch_iff {s : State} : addrMatch s = true ↔ s.regs.value.toNat / 2 = s.cfg.addr.toNat := by
  rw [addrMatch, beq_iff_eq, extract_eq_addr_iff]

/-- R163: the one rule that captures the direction. -/
theorem strobes_captureDir_iff {s : State} : strobes .captureDir s = true ↔
    s.regs.state = .rcvAddress ∧ s.regs.bitCount = 8 ∧ s.regs.value.toNat / 2 = s.cfg.addr.toNat := by
  rw [strobes_captureDir, Bool.and_eq_true, Bool.and_eq_true, beq_iff_eq, byteComplete_iff, addrMatch_iff, and_assoc]

/-- R167. -/
theorem strobes_ocLoad_iff {s : State} : strobes .ocLoad s = true ↔ s.regs.state = .rcvOffset ∧ s.regs.bitCount = 8 := by
  rw [strobes_ocLoad, Bool.and_eq_true, beq_iff_eq, byteComplete_iff]

/-- R174, R176. -/
theorem strobes_ocInc_iff {s : State} : strobes .ocInc s = true ↔
    (s.regs.state = .ackData2 ∧ s.regs.scl = false) ∨ (s.regs.state = .ackRead ∧ risesScl s ∧ s.regs.sda = false) := by
  rw [strobes_ocInc, masterAck, Bool.or_eq_true, Bool.and_eq_true, Bool.and_eq_true, Bool.and_eq_true, beq_iff_eq, beq_iff_eq,
    Bool.not_eq_true', Bool.not_eq_true', sclRising_iff]

/-- R171. -/
theorem strobes_memWe_iff {s : State} : strobes .memWe s = true ↔ s.regs.state = .rcvData ∧ s.regs.bitCount = 8 := by
  rw [strobes_memWe, Bool.and_eq_true, beq_iff_eq, byteComplete_iff]

/-- R180. -/
theorem nextIsRead_eq (s : State) :
    nextIsRead s =
      if s.regs.state = .rcvAddress ∧ s.regs.bitCount = 8 ∧ s.regs.value.toNat / 2 = s.cfg.addr.toNat
      then decide (s.regs.value.toNat % 2 = 1) else s.regs.isRead :=
  if_congr strobes_captureDir_iff (getLsbD_zero_eq_decide _) rfl

/-- 45 R190 to R192. -/
theorem nextOffset_eq (s : State) :
    nextOffset s =
      if s.regs.state = .rcvOffset ∧ s.regs.bitCount = 8 then s.regs.value.toNat % s.cfg.N
      else if (s.regs.state = .ackData2 ∧ s.regs.scl = false) ∨ (s.regs.state = .ackRead ∧ risesScl s ∧ s.regs.sda = false)
      then (s.regs.offset + 1) % s.cfg.N else s.regs.offset :=
  if_congr strobes_ocLoad_iff rfl (if_congr strobes_ocInc_iff rfl rfl)

/-- 42 R130 to R132. -/
theorem nextBitCount_eq (s : State) :
    nextBitCount s =
      if showsStart s then 0
      else if risesScl s then
        (if s.regs.bitCount = 8 then 0
         else if s.regs.state = .rcvAddress ∨ s.regs.state = .rcvOffset ∨ s.regs.state = .rcvData ∨ s.regs.state = .read
         then s.regs.bitCount + 1 else s.regs.bitCount)
      else s.regs.bitCount := by
  simp only [nextBitCount, countClears_iff, countWraps_iff, countIncs_iff]
  by_cases hstart : showsStart s
  · rw [if_pos hstart, if_pos hstart]
  rw [if_neg hstart, if_neg hstart]
  by_cases hrise : risesScl s
  · rw [if_pos hrise]
    by_cases h8 : s.regs.bitCount = 8
    · rw [if_pos ⟨hstart, hrise, h8⟩, if_pos h8]
    · rw [if_neg fun h => h8 h.2.2, if_neg h8]
      exact if_congr ⟨fun h => h.2.2.2, fun h => ⟨hstart, hrise, h8, h⟩⟩ rfl rfl
  · rw [if_neg fun h => hrise h.2.1, if_neg fun h => hrise h.2.1, if_neg hrise]

/-- The rule of each state goes where the transition summary says (R162 to R176, R182). -/
theorem normalNext_eq (s : State) : (decision s).normalNext = tableNext s.regs.state s := by
  cases hst : s.regs.state with
  | waitStart => simp only [decision, hst, ruleWaitStart, tableNext]
  | rcvAddress | rcvOffset | rcvData =>
    simp only [decision, hst, ruleRcvAddress, ruleRcvOffset, ruleRcvData, byteComplete_iff, addrMatch_iff, tableNext]
    split_ifs <;> rfl
  -- the acknowledges wait for a level of SCL
  | ackAddress0 | ackAddress1 | ackOffset0 | ackOffset1 | ackOffset2 | ackData0 | ackData1 | ackData2 =>
    cases hscl : s.regs.scl <;>
      simp [decision, hst, ruleAckAddress0, ruleAckAddress1, ruleAckOffset0, ruleAckOffset1, ruleAckOffset2, ruleAckData0,
        ruleAckData1, ruleAckData2, tableNext, hscl]
  | ackAddress2 =>
    cases hscl : s.regs.scl <;> cases hread : s.regs.isRead <;> simp [decision, hst, ruleAckAddress2, tableNext, hscl, hread]
  | read =>
    cases hscl : s.regs.scl <;> by_cases h8 : s.regs.bitCount = 8 <;>
      simp [decision, hst, ruleRead, byteComplete_eq_decide, tableNext, hscl, h8]
  -- at a rising edge SDA is the master's answer
  | ackRead =>
    by_cases hrise : risesScl s
    · cases hsda : s.regs.sda <;>
        simp [decision, hst, ruleAckRead, masterNack, masterAck, tableNext, sclRising_iff.2 hrise, hrise, hsda]
    · simp [decision, hst, ruleAckRead, masterNack, masterAck, tableNext, Bool.eq_false_iff.2 (mt sclRising_iff.1 hrise), hrise]

/-- R179. -/
theorem nextState_eq (s : State) :
    nextState s =
      if showsStart s then .rcvAddress else if showsStop s then .waitStart else tableNext s.regs.state s :=
  if_congr startSeen_iff rfl (if_congr stopSeen_iff rfl (normalNext_eq s))

/-! ### What every tick does, whatever the state -/

theorem linesAdvance_tickState (s : State) : LinesAdvance s (tickState s) :=
  ⟨rfl, rfl, rfl, rfl, nextSampCount_eq s, nextScl_eq s, nextSda_eq s, rfl, rfl⟩

theorem ticksIn_tickState (s : State) : TicksIn s.regs.state s (tickState s) :=
  ⟨linesAdvance_tickState s, ⟨nextBitCount_eq s, nextValue_eq s⟩, ⟨rfl, rfl, rfl, rfl, rfl, rfl, rfl, rfl⟩, rfl, rfl⟩

/-- The strobes act in every tick, under an override as well (R181). -/
theorem strobesAct_tickState {s : State} (hwf : s.mem.wf) : StrobesAct s.regs.state s (tickState s) := by
  refine ⟨nextOffset_eq s, nextIsRead_eq s, fun a => (nextMem_read hwf a).trans (if_congr ?_ rfl rfl)⟩
  rw [strobes_memWe_iff, and_comm, and_assoc]

/-- Only RCV_DATA writes (R171). -/
theorem nextMem_of_ne_rcvData {s : State} (h : s.regs.state ≠ .rcvData) : nextMem s = s.mem :=
  if_neg fun hwe => h (strobes_memWe_iff.1 hwe).1

/-- Only READ latches a bit (42 R139). -/
theorem nextDataBit_of_ne_read {s : State} (h : s.regs.state ≠ .read) : nextDataBit s = s.regs.dataBit :=
  if_neg fun hen => h (strobes_dataDrvEn_iff.1 hen).1

/-- A tick without an override goes where the transition summary says. -/
theorem nextState_of_noOverride {s : State} (h : noOverride s) : nextState s = tableNext s.regs.state s := by
  rw [nextState_eq, if_neg h.1, if_neg h.2]

/-- Outside READ only an override releases SDA (42 R138). -/
theorem nextDataDrv_of_noOverride {s : State} (h : noOverride s) (hst : s.regs.state ≠ .read) :
    nextDataDrv s = s.regs.dataDrv := by
  rw [nextDataDrv_eq, if_neg (not_or.2 h), if_neg fun hread => hst hread.1]

/-! ### The rows of the states, without an override (R162 to R176; log 10) -/

/-- A row other than READ, without an override and with no data bit driven: the transition summary, the strobes of the offset and of
the direction, and the drives of the acknowledge. -/
theorem row_tick {s : State} (st : ProtocolState) (hno : noOverride s) (hd : s.regs.dataDrv = false) (hst : st ≠ .read) :
    ∃ t, exec st.instr s = .next t ∧ TicksIn st s t ∧
      Drives t (acknowledges st) (s.inputs.storeBusy && !s.regs.scl && stretches st) ∧
      Transaction t (tableNext st s) (nextOffset (withState st s)) (nextIsRead (withState st s)) s.regs.dataDrv s.regs.dataBit ∧
      (st ≠ .rcvData → MemoryKept s t) := by
  have hstate : nextState (withState st s) = tableNext st s := nextState_of_noOverride (s := withState st s) hno
  refine ⟨_, exec_instr st s, ticksIn_tickState (withState st s), ⟨?_, rfl⟩, ⟨hstate, rfl, rfl,
    nextDataDrv_of_noOverride (s := withState st s) hno hst, nextDataBit_of_ne_read (s := withState st s) hst⟩, fun h a => ?_⟩
  · show (acknowledges st || (s.regs.dataDrv && !s.regs.dataBit)) = acknowledges st
    rw [hd, Bool.false_and, Bool.or_false]
  · exact congrArg (·.read a) (nextMem_of_ne_rcvData (s := withState st s) h)

/-- The nine states whose rules assert no strobe (R183). -/
def waitsForLines : ProtocolState → Bool
  | .waitStart | .ackAddress0 | .ackAddress1 | .ackAddress2 | .ackOffset0 | .ackOffset1 | .ackOffset2 | .ackData0 | .ackData1 =>
    true
  | .rcvAddress | .rcvOffset | .rcvData | .ackData2 | .read | .ackRead => false

/-- A row of one of these states only moves to the next state. -/
theorem row_waits {s : State} (st : ProtocolState) (hno : noOverride s) (hd : s.regs.dataDrv = false)
    (hst : waitsForLines st = true) :
    ∃ t, exec st.instr s = .next t ∧ TicksIn st s t ∧
      Drives t (acknowledges st) (s.inputs.storeBusy && !s.regs.scl && stretches st) ∧ OnlyMovesTo (tableNext st s) s t := by
  obtain ⟨t, ht, hticks, hdrives, hmoves, hmem⟩ := row_tick st hno hd (by rintro rfl; cases hst)
  have hkept : nextOffset (withState st s) = s.regs.offset ∧ nextIsRead (withState st s) = s.regs.isRead := by
    cases st with
    | rcvAddress | rcvOffset | rcvData | ackData2 | read | ackRead => cases hst
    | _ => simp [nextOffset_eq, nextIsRead_eq]
  rw [hkept.1, hkept.2] at hmoves
  exact ⟨t, ht, hticks, hdrives, hmoves, hmem (by rintro rfl; cases hst)⟩

/-- The row of READ, without an override: the transition summary and the output latch (42 R138, R139). -/
theorem row_read {s : State} (h8 : s.regs.bitCount ≤ 8) (hno : noOverride s) :
    Transaction (tickState (withState .read s)) (tableNext .read s) s.regs.offset s.regs.isRead
      (if s.regs.scl = false then decide (s.regs.bitCount ≠ 8) else s.regs.dataDrv)
      (if s.regs.scl = false ∧ s.regs.bitCount ≠ 8
       then (s.mem.read s.regs.offset).getLsbD (7 - s.regs.bitCount) else s.regs.dataBit) := by
  refine ⟨nextState_of_noOverride (s := withState .read s) hno, by simp [nextOffset_eq], by simp [nextIsRead_eq], ?_, ?_⟩
  · exact (nextDataDrv_eq _).trans ((if_neg (not_or.2 hno)).trans (if_congr (and_iff_right rfl) rfl rfl))
  · exact (nextDataBit_eq (s := withState .read s) h8).trans (if_congr (and_iff_right rfl) rfl rfl)

/-! ### The obligations on the rows -/

/-- Settles O33: the rule of WAIT_START stays and asserts nothing. -/
theorem waitStartIdles : Obligations.WaitStartIdles := by
  intro s hno hd
  obtain ⟨t, ht, hticks, hdrives, hmoves⟩ := row_waits .waitStart hno hd rfl
  exact ⟨t, ht, hmoves, hticks, by simpa [acknowledges, stretches] using hdrives⟩

/-- Settles O34: below eight bits the row stays, and at eight the comparison decides, a match alone capturing the direction. -/
theorem addressByteDecides : Obligations.AddressByteDecides := by
  intro s hno hd
  obtain ⟨t, ht, hticks, hdrives, hmoves, hmem⟩ := row_tick .rcvAddress hno hd (by decide)
  have hkept : MemoryKept s t := hmem (by decide)
  refine ⟨t, ht, hticks, by simpa [acknowledges, stretches] using hdrives, hkept, fun h8 => ⟨?_, hkept⟩,
    fun h8 haddr => ⟨?_, hkept⟩, fun h8 haddr => ?_⟩
  · simpa [tableNext, nextOffset_eq, nextIsRead_eq, h8] using hmoves
  · simpa [tableNext, nextOffset_eq, nextIsRead_eq, h8, haddr] using hmoves
  · have hread : nextIsRead (withState .rcvAddress s) = decide (s.regs.value.toNat % 2 = 1) :=
      (nextIsRead_eq (withState .rcvAddress s)).trans (if_pos ⟨rfl, h8, haddr⟩)
    rw [hread, hd] at hmoves
    simpa [tableNext, nextOffset_eq, h8, haddr] using hmoves

/-- Settles O35: each of the three rules waits for SCL low and asserts nothing. -/
theorem acknowledgeWaitsForSclLow : Obligations.AcknowledgeWaitsForSclLow := by
  intro s hno hd
  have row : ∀ st, waitsForLines st = true → acknowledges st = false →
      ∃ t, exec st.instr s = .next t ∧ TicksIn st s t ∧ Drives t false false ∧ OnlyMovesTo (tableNext st s) s t :=
    fun st hst hack => by
      obtain ⟨t, ht, hticks, hdrives, hmoves⟩ := row_waits st hno hd hst
      have hstill : stretches st = false := Bool.eq_false_iff.2 fun h => by simp [acknowledges_of_stretches h] at hack
      exact ⟨t, ht, hticks, by simpa [hack, hstill] using hdrives, hmoves⟩
  exact ⟨row .ackAddress0 rfl rfl, row .ackOffset0 rfl rfl, row .ackData0 rfl rfl⟩

/-- Settles O36: each of the three rules waits for SCL high; their states acknowledge and may stretch. -/
theorem acknowledgeDrivesUntilSclHigh : Obligations.AcknowledgeDrivesUntilSclHigh := by
  intro s hno hd
  have row : ∀ st, waitsForLines st = true → stretches st = true →
      ∃ t, exec st.instr s = .next t ∧ TicksIn st s t ∧ Drives t true (s.inputs.storeBusy && !s.regs.scl) ∧
        OnlyMovesTo (tableNext st s) s t :=
    fun st hst hstretch => by
      obtain ⟨t, ht, hticks, hdrives, hmoves⟩ := row_waits st hno hd hst
      rw [acknowledges_of_stretches hstretch, hstretch, Bool.and_true] at hdrives
      exact ⟨t, ht, hticks, hdrives, hmoves⟩
  exact ⟨row .ackAddress1 rfl rfl, row .ackOffset1 rfl rfl, row .ackData1 rfl rfl⟩

/-- Settles O37: the three rules wait for SCL low and then branch; ACK_DATA2 asserts the increment. -/
theorem acknowledgeEndsAtSclLow : Obligations.AcknowledgeEndsAtSclLow := by
  intro s hno hd
  refine ⟨?_, ?_, ?_⟩
  · obtain ⟨t, ht, hticks, hdrives, hmoves⟩ := row_waits .ackAddress2 hno hd rfl
    exact ⟨t, ht, hticks, by simpa [acknowledges, stretches] using hdrives, hmoves⟩
  · obtain ⟨t, ht, hticks, hdrives, hmoves⟩ := row_waits .ackOffset2 hno hd rfl
    exact ⟨t, ht, hticks, by simpa [acknowledges, stretches] using hdrives, hmoves⟩
  · obtain ⟨t, ht, hticks, hdrives, hmoves, hmem⟩ := row_tick .ackData2 hno hd (by decide)
    exact ⟨t, ht, hticks, by simpa [acknowledges, stretches] using hdrives, hmem (by decide),
      by simpa [tableNext, nextOffset_eq, nextIsRead_eq, hd] using hmoves⟩

/-- Settles O38: at eight bits the rule asserts the load. -/
theorem offsetByteIsLoaded : Obligations.OffsetByteIsLoaded := by
  intro s hno hd
  obtain ⟨t, ht, hticks, hdrives, hmoves, hmem⟩ := row_tick .rcvOffset hno hd (by decide)
  exact ⟨t, ht, hticks, by simpa [acknowledges, stretches] using hdrives, hmem (by decide),
    by simpa [tableNext, nextOffset_eq, nextIsRead_eq, hd] using hmoves⟩

/-- Settles O39: at eight bits the rule asserts the write. -/
theorem dataByteIsWritten : Obligations.DataByteIsWritten := by
  intro s hwf hno hd
  obtain ⟨t, ht, hticks, hdrives, hmoves, -⟩ := row_tick .rcvData hno hd (by decide)
  obtain ⟨-, -, hcells⟩ := strobesAct_tickState (s := withState .rcvData s) hwf
  cases (exec_instr .rcvData s).symm.trans ht
  have hwe : strobes .memWe (withState .rcvData s) = decide (s.regs.bitCount = 8) :=
    Bool.eq_iff_iff.2 (by simp [strobes_memWe_iff])
  exact ⟨_, ht, hticks, by simpa [acknowledges, stretches] using hdrives,
    by simpa [tableNext, nextOffset_eq, nextIsRead_eq, hd] using hmoves, hwe, rfl, rfl, fun a => by simpa using hcells a⟩

/-- Settles O40: with SCL high the rule of READ asserts nothing, with SCL low it drives the next bit or lets go. -/
theorem readDrivesTheAddressedBit : Obligations.ReadDrivesTheAddressedBit := by
  intro s h8 hno
  have hmoves := row_read h8 hno
  have hmem : MemoryKept s (tickState (withState .read s)) := fun a =>
    congrArg (·.read a) (nextMem_of_ne_rcvData (s := withState .read s) (by simp))
  refine ⟨_, exec_instr .read s, ticksIn_tickState (withState .read s), ⟨rfl, Bool.and_false _⟩, hmem, fun hscl => ⟨?_, hmem⟩,
    fun hscl hb => ?_, fun hscl hb => ?_⟩
  · simpa [tableNext, hscl] using hmoves
  · simpa [tableNext, hscl, hb] using hmoves
  · simpa [tableNext, hscl, hb] using hmoves

/-- Settles O41: at a rising edge the master's NACK ends the read and its ACK asserts the increment. -/
theorem masterAnswerIsSampled : Obligations.MasterAnswerIsSampled := by
  intro s hno hd
  obtain ⟨t, ht, hticks, hdrives, hmoves, hmem⟩ := row_tick .ackRead hno hd (by decide)
  exact ⟨t, ht, hticks, by simpa [acknowledges, stretches] using hdrives, hmem (by decide),
    by simpa [tableNext, nextOffset_eq, nextIsRead_eq, hd, risesScl] using hmoves⟩

/-! ### The obligations on the direction, the single operations and the strobes -/

/-- Settles O58: a tick that does not start at a match keeps the direction (R180), and so does a run of such ticks. -/
theorem directionChangesOnlyAtAMatch : Obligations.DirectionChangesOnlyAtAMatch := by
  rintro s inps - hmiss
  induction inps generalizing s with
  | nil => exact ⟨s, rfl, rfl⟩
  | cons inp inps ih =>
    obtain ⟨t, ht, hread⟩ := ih (tickState (withInputs inp s)) fun k t hk ht => hmiss (k + 1) t (Nat.succ_lt_succ hk) ht
    have hfirst : nextIsRead (withInputs inp s) = s.regs.isRead :=
      (nextIsRead_eq (withInputs inp s)).trans (if_neg (hmiss 0 s (Nat.succ_pos _) rfl))
    exact ⟨t, ht, hread.trans hfirst⟩

/-- Settles O19: each operation commits its own register or shows its own signal (log 21), in the words of its rule. -/
theorem protocolOperations : Obligations.ProtocolOperations := by
  intro s
  refine ⟨?_, ?_, ?_, ?_, ?_⟩
  · rw [show decide (s.regs.value.toNat / 2 = s.cfg.addr.toNat) = addrMatch s from
      Bool.eq_iff_iff.2 (decide_eq_true_iff.trans addrMatch_iff.symm)]
    rfl
  · rw [← nextIsRead_eq]
    rfl
  · simp only [← startSeen_iff]
    rfl
  · simp only [← stopSeen_iff]
    rfl
  · rw [← nextState_eq]
    rfl

/-- Settles O31: the rule of a state asserts one strobe or none, so the six signals shown are equal to 1 at one place at most. -/
theorem atMostOneStrobe : Obligations.AtMostOneStrobe := by
  intro s
  refine ⟨tickState s, exec_tickStep s, ?_⟩
  show [strobes .captureDir s, strobes .ocLoad s, strobes .ocInc s, strobes .memWe s, strobes .dataDrvEn s,
    strobes .dataDrvStop s].count true ≤ 1
  unfold strobes
  cases (decision s).strobe with
  | none => decide
  | some x => cases x <;> decide

/-! ### START and STOP, by a tick (R177, R178) -/

/-- With SCL high READ latches nothing (42 R139). -/
theorem nextDataBit_of_scl {s : State} (h : s.regs.scl = true) : nextDataBit s = s.regs.dataBit :=
  if_neg fun hen => by
    obtain ⟨-, hlow, -⟩ := strobes_dataDrvEn_iff.1 hen
    exact absurd (hlow.symm.trans h) Bool.false_ne_true

theorem startTaken_tickState {s : State} (hwf : s.mem.wf) (h : showsStart s) : StartTaken s.regs.state s (tickState s) :=
  ⟨(nextState_eq s).trans (if_pos h), (nextBitCount_eq s).trans (if_pos h), (nextDataDrv_eq s).trans (if_pos (.inl h)),
    (nextValue_eq s).trans (if_neg fun hshift => hshift.1 h), nextDataBit_of_scl h.1, strobesAct_tickState hwf,
    linesAdvance_tickState s, ⟨rfl, rfl, rfl, rfl, rfl, rfl, rfl, rfl⟩, rfl, rfl⟩

theorem stopTaken_tickState {s : State} (hwf : s.mem.wf) (h : showsStop s) : StopTaken s.regs.state s (tickState s) := by
  have hstart : ¬ showsStart s := fun hstart =>
    not_startSeen_and_stopSeen s ⟨startSeen_iff.2 hstart, stopSeen_iff.2 h⟩
  exact ⟨(nextState_eq s).trans ((if_neg hstart).trans (if_pos h)), (nextDataDrv_eq s).trans (if_pos (.inr h)),
    nextDataBit_of_scl h.1, strobesAct_tickState hwf, ticksIn_tickState s⟩

/-! ### START and STOP, by the master on the raw lines (47 R211 to R213; log 11) -/

/-- `s` with SDA seen to move to `b`. -/
def sdaMoves (b : Bit) (s : State) : State := { s with regs := { s.regs with sdaPrev := !b, sda := b } }

/-- With SCL seen held high, the edge of SDA is one tick. -/
theorem view_sdaMoves {b : Bit} {s : State} (hscl : s.regs.scl = true) (hprev : s.regs.sclPrev = true) :
    view (tickState (sdaMoves b s)) = (view s).edgeStep b := view_edge b (sdaMoves b s) hscl hprev rfl rfl

/-- Without a rising edge of SCL no strobe looks at SDA (R176), so the strobes are those of `s`. -/
theorem strobesAct_of_sdaMoves {b : Bit} {s t : State} (hwf : s.mem.wf) (hprev : s.regs.sclPrev = true)
    (hv : view t = view (tickState (sdaMoves b s))) : StrobesAct s.regs.state s t := by
  obtain ⟨hoff, hread, hcells⟩ := strobesAct_tickState (s := sdaMoves b s) hwf
  have hmem : t.mem = (tickState (sdaMoves b s)).mem := congrArg View.mem hv
  refine ⟨(congrArg View.offset hv).trans (hoff.trans ?_), (congrArg View.isRead hv).trans hread, fun a => by rw [hmem]; exact hcells a⟩
  simp [risesScl, sdaMoves, hprev]

/-- After a START or STOP the core drives neither line. -/
theorem released_of_edgeStep {b : Bit} {v : View} {t : State} (h : view t = v.edgeStep b) : Released t := by
  have hst : stretches t.regs.state = false := by
    rw [show t.regs.state = (v.edgeStep b).st from congrArg View.st h]
    cases b <;> rfl
  refine ⟨?_, by rw [sclOe, hst, Bool.and_false]⟩
  show (view t).oe = false
  rw [h, View.oe_edge]

/-- START or STOP at lines that are there already leaves what a tick in which SDA is seen to move makes of the core. -/
theorem condition_is_tick {d : Bit} {s : State} (hinv : TickInv s) (hrest : AtRest s) (hpaced : Paced s)
    (hpeace : Peaceful (conditionTicks d s) s) (hd : direct d s = true) (ho : sdaOe s = false) :
    ∃ t, condition d s = .next t ∧ Performed (conditionTicks d s) s t ∧ Released t ∧
      s.regs.scl = true ∧ s.regs.sclPrev = true ∧ view t = view (tickState (sdaMoves (!d) s)) := by
  obtain ⟨⟨hsamp, -⟩, -⟩ := hinv
  rw [conditionTicks, if_pos hd] at hpeace ⊢
  obtain ⟨hfeeds, hcalm, hlen⟩ := peaceful_feeds hpeace
  obtain ⟨t, ht, hv, -, hrest', -, helapsed, -⟩ := condition_direct (c := []) hsamp hrest hpaced (by rwa [List.append_nil]) hcalm
    hlen hd ho
  obtain ⟨hhigh, -⟩ : s.master.scl = true ∧ s.master.sda = d := by simpa using hd
  obtain ⟨-, -, -, hscl, hprev, -⟩ := hrest
  exact ⟨t, ht, performed_of_elapsed helapsed hrest', released_of_edgeStep hv, hscl.trans hhigh, hprev.trans hhigh,
    hv.trans (view_sdaMoves (hscl.trans hhigh) (hprev.trans hhigh)).symm⟩

/-- At a frame boundary an SCL low phase leaves SDA released, and the rising edge before the condition is one more bit. -/
theorem reacts_boundary {v : View} (d : Bit) (hb : v.bitCount = 0) (hdrv : v.st ≠ .read → v.dataDrv = false)
    (hst : v.st = .waitStart ∨ receives v.st = true ∨ (v.st = .read ∧ (v.mem.read v.offset).getLsbD 7 = true)) :
    ∃ w, Reacts v w ∧ w.oe = false ∧ stretches w.st = false ∧
      (w.riseStep d).edgeStep (!d) =
        { v with
          st := if d then .rcvAddress else .waitStart
          bitCount := if d ∨ v.st = .waitStart then 0 else 1
          value := if receives v.st then shifted v.value [d] else v.value
          dataDrv := false
          dataBit := if v.st = .read then true else v.dataBit } := by
  obtain ⟨cfg, st, bc, value, off, ir, dd, db, mem, w⟩ := v
  obtain rfl : bc = 0 := hb
  obtain hst | hst | ⟨hst, hbit⟩ := hst
  · obtain rfl : st = .waitStart := hst
    obtain rfl : dd = false := hdrv (by simp)
    refine ⟨_, reacts_waitStart rfl, rfl, rfl, ?_⟩
    cases d <;> simp [View.riseStep, View.count, View.edgeStep, View.stopStep, View.startStep, View.holdStep, receives]
  · have hrcv : receives st = true := hst
    obtain rfl : dd = false := hdrv (ne_read_of_receives hrcv)
    refine ⟨_, reacts_receives hst (by simp), ?_, not_stretches_of_receives hrcv, ?_⟩
    · cases st <;> simp [receives] at hrcv <;> rfl
    · cases st <;> simp [receives] at hrcv <;> cases d <;>
        simp [View.riseStep, View.count, View.edgeStep, View.stopStep, View.startStep, View.holdStep, receives,
          shiftLeftIn_eq_shifted]
  · obtain rfl : st = .read := hst
    refine ⟨_, reacts_read rfl (by simp), ?_, rfl, ?_⟩
    · simpa [View.oe, acknowledges] using hbit
    · cases d <;>
        simpa [View.riseStep, View.count, View.edgeStep, View.stopStep, View.startStep, View.holdStep, receives] using hbit

/-- START or STOP from a frame boundary, through an SCL low phase. -/
theorem condition_taken_at_boundary {d : Bit} {s : State} (hinv : TickInv s) (hrest : AtRest s) (hpaced : Paced s)
    (hpeace : Peaceful (conditionTicks d s) s) (hd : direct d s = false) (hbound : FrameBoundary s) :
    ∃ t, condition d s = .next t ∧ Performed (conditionTicks d s) s t ∧ Released t ∧
      Transaction t (if d then .rcvAddress else .waitStart) s.regs.offset s.regs.isRead false
        (if s.regs.state = .read then true else s.regs.dataBit) ∧
      t.regs.bitCount = (if d ∨ s.regs.state = .waitStart then 0 else 1) ∧
      t.regs.value = (if InReceive s then shifted s.regs.value [d] else s.regs.value) ∧ MemoryKept s t ∧ t.wire = s.wire := by
  obtain ⟨⟨hsamp, -⟩, hdrives⟩ := hinv
  obtain ⟨hzero, hstate⟩ := hbound
  rw [conditionTicks, if_neg (by simp [hd])] at hpeace ⊢
  obtain ⟨hfeeds, hcalm, hlen⟩ := peaceful_feeds hpeace
  obtain ⟨w, hreacts, hoe, hstill, hedge⟩ := reacts_boundary (v := view s) d hzero (dataDrv_eq_false hdrives) (by
    have hrcv : InReceive s → receives (view s).st = true := receives_iff_inReceive.2
    obtain hst | hst | hst | hst | hst := hstate
    exacts [.inl hst, .inr (.inl (hrcv (.inl hst))), .inr (.inl (hrcv (.inr (.inl hst)))), .inr (.inl (hrcv (.inr (.inr hst)))),
      .inr (.inr hst)])
  obtain ⟨t, ht, hv, -, hrest', -, helapsed, -⟩ := condition_indirect (c := []) (falls_atRest hsamp hrest hreacts) hrest.1 hpaced
    (by rwa [List.append_nil]) hcalm hlen hd hoe hstill
  have hreleased := released_of_edgeStep hv
  rw [hedge] at hv
  simp only [view, View.mk.injEq] at hv
  obtain ⟨-, hst, hcount, hvalue, hoff, hread, hdrv, hbit, hmem, hwire⟩ := hv
  exact ⟨t, ht, performed_of_elapsed helapsed hrest', hreleased, ⟨hst, hoff, hread, hdrv, hbit⟩, hcount,
    hvalue.trans (if_congr receives_iff_inReceive rfl rfl), fun a => by rw [hmem], hwire⟩

/-- Settles O42: the override layer puts START first, and S and Sr make the core see one. -/
theorem startIsTakenInEveryState : Obligations.StartIsTakenInEveryState := by
  refine ⟨fun st s hwf h => ⟨_, exec_instr st s, startTaken_tickState (s := withState st s) hwf h⟩,
    fun s hinv hrest hpaced hpeace => ⟨fun hd ho => ?_, fun hd hbound => ?_⟩⟩
  · obtain ⟨t, ht, hperformed, hreleased, hscl, hprev, hv⟩ := condition_is_tick hinv hrest hpaced hpeace hd ho
    obtain ⟨⟨-, -, -, hwf, -⟩, -⟩ := hinv
    obtain ⟨hst, hcount, hdrv, hvalue, hbit, -⟩ := startTaken_tickState (s := sdaMoves false s) hwf ⟨hscl, rfl, rfl⟩
    exact ⟨t, ht, ht, hperformed, hreleased, (congrArg View.st hv).trans hst, (congrArg View.bitCount hv).trans hcount,
      (congrArg View.dataDrv hv).trans hdrv, (congrArg View.value hv).trans hvalue, (congrArg View.dataBit hv).trans hbit,
      strobesAct_of_sdaMoves hwf hprev hv, congrArg View.wire hv⟩
  · obtain ⟨t, ht, hperformed, hreleased, hmoves, hcount, hrest⟩ := condition_taken_at_boundary hinv hrest hpaced hpeace hd hbound
    exact ⟨t, ht, ht, hperformed, hreleased, hmoves, by simpa using hcount, hrest⟩

/-- Settles O43: without a START the override layer takes STOP, and P makes the core see one. -/
theorem stopIsTakenInEveryState : Obligations.StopIsTakenInEveryState := by
  refine ⟨fun st s hwf h => ⟨_, exec_instr st s, stopTaken_tickState (s := withState st s) hwf h⟩,
    fun s hinv hrest hpaced hpeace => ⟨fun hd ho => ?_, fun hd hbound => ?_⟩⟩
  · obtain ⟨t, ht, hperformed, hreleased, hscl, hprev, hv⟩ := condition_is_tick hinv hrest hpaced hpeace hd ho
    obtain ⟨⟨-, -, -, hwf, -⟩, -⟩ := hinv
    obtain ⟨hst, hdrv, hbit, -, -, ⟨hcount, hvalue⟩, -⟩ := stopTaken_tickState (s := sdaMoves true s) hwf ⟨hscl, rfl, rfl⟩
    have hstill : ¬ risesScl (sdaMoves true s) := fun hrise => Bool.false_ne_true (hrise.2.symm.trans hprev)
    have hnostart : ¬ showsStart (sdaMoves true s) := fun hstart => Bool.false_ne_true hstart.2.1
    rw [if_neg hnostart, if_neg hstill] at hcount
    rw [if_neg fun hshift => hstill hshift.2.1] at hvalue
    exact ⟨t, ht, hperformed, hreleased, (congrArg View.st hv).trans hst, (congrArg View.bitCount hv).trans hcount,
      (congrArg View.dataDrv hv).trans hdrv, (congrArg View.value hv).trans hvalue, (congrArg View.dataBit hv).trans hbit,
      strobesAct_of_sdaMoves hwf hprev hv, congrArg View.wire hv⟩
  · obtain ⟨t, ht, hperformed, hreleased, hmoves, hcount, hrest⟩ := condition_taken_at_boundary hinv hrest hpaced hpeace hd hbound
    exact ⟨t, ht, hperformed, hreleased, hmoves, by simpa using hcount, hrest⟩

end Sys2Proof.Machine
end

section
/-!
PROOFS of the family 45_reader_writer.md: the offset register and the store port in the words of their rules, what each frame of a
segment makes of the view of the core (47 R214, R215, R217 to R220), and the segments WRITE and READ_AT put together from their
operations. A segment is followed by its stages: `AtStage c n x s` says that `s` is between two operations with the transaction at
`x` and `n` undisturbed frames still to come, and `Leads is P Q` that the operations `is` lead from `P` to `Q`.
-/

namespace Sys2Proof.Machine

/-! ### The offset register and the store port (R190 to R195; log 21) -/

/-- Settles O20: the strobes of the two operations, in the words of the rules that assert them. -/
theorem offsetOperations : Obligations.OffsetOperations := by
  intro s
  refine ⟨?_, ?_, rfl⟩
  · simp only [← strobes_ocLoad_iff]
    rfl
  · simp only [← strobes_ocInc_iff]
    rfl

/-- What a read gives after the write of a tick (R194; 20 R63). -/
theorem nextMem_read_eq {s : State} (hwf : s.mem.wf) (a : Nat) :
    (nextMem s).read a =
      if s.regs.state = .rcvData ∧ s.regs.bitCount = 8 ∧ a = s.regs.offset then s.regs.value else s.mem.read a := by
  obtain ⟨-, -, hcells⟩ := strobesAct_tickState hwf
  exact hcells a

/-- Settles O21: the write is that of a tick, and so is the bit the read latches. -/
theorem storeOperations : Obligations.StoreOperations := by
  intro s h8 hwf
  refine ⟨rfl, ⟨nextMem s, ?_, nextMem_read_eq hwf⟩, ?_⟩
  · rw [show decide (s.regs.state = .rcvData ∧ s.regs.bitCount = 8) = strobes .memWe s from
      Bool.eq_iff_iff.2 (decide_eq_true_iff.trans strobes_memWe_iff.symm)]
    rfl
  · rw [← nextDataBit_eq h8]
    rfl

/-! ### Frames of a byte the core receives (47 R214, R215, R217, R218) -/

theorem storeReady_window {a m n : Nat} {s : State} (h : StoreReady 0 n s) (ham : a + m ≤ n) : StoreReady a m s := by
  intro inp hinp
  rw [List.take_drop] at hinp
  exact h inp (List.take_subset_take_left _ ham (List.drop_subset a _ hinp))

/-- A frame from rest with the store ready while SCL is high in slot 9: the core acknowledges without stretching. -/
theorem frame_performed_of_ready {byte : Byte} {ack : Bit} {w : View} {s : State} (h : FrameReady s)
    (hstore : StoreReady (ackTick s) s.pace.high s) (hw : Reacts (view s) w) (hu : w.unstretched (byteBits byte)) :
    ∃ t, frame byte ack s = .next t ∧ Performed (frameTicks s) s t ∧ view t = w.slots (byteBits byte ++ [ack]) := by
  obtain ⟨⟨⟨hsamp, -⟩, -⟩, hrest, hpaced, hpeace⟩ := h
  obtain ⟨hf, hc, hlen⟩ := peaceful_feeds hpeace
  have hslot : (((coming s).take (frameTicks s)).drop (ackTick s)).take s.pace.high ⊆
      ((coming s).drop (ackTick s)).take s.pace.high := by
    rw [List.drop_take, List.take_take]
    exact List.take_subset_take_left _ (Nat.min_le_left _ _)
  obtain ⟨t, ht, hv, -, hr, -, he, -⟩ := frame_run (ack := ack) (c := []) (falls_atRest hsamp hrest hw) hrest.1 hpaced
    (by rwa [List.append_nil]) hc hlen hu (.inr fun inp hinp => hstore inp (hslot hinp))
  exact ⟨t, ht, performed_of_elapsed he hr, hv⟩

/-- A frame met in a receive state: eight slots make the byte complete, the state's rule acts on it, and slot 9 follows. -/
theorem frame_received (byte : Byte) {s : State} (h : FrameReady s) (hstore : StoreReady (ackTick s) s.pace.high s)
    (hr : receives s.regs.state = true) (hb : s.regs.bitCount = 0) :
    ∃ t, frame byte true s = .next t ∧ Performed (frameTicks s) s t ∧
      view t = ({ view s with bitCount := 8, value := byte, wire := recordByte s.wire byte } : View).lowStep.lowStep.slot true := by
  obtain ⟨hu, hslots⟩ := slots_receiveByte (v := view s) byte hr hb (dataDrv_eq_false h.1.2 (ne_read_of_receives hr))
  have hreacts : Reacts (view s) (view s) := reacts_receives hr (by show s.regs.bitCount ≠ 8; omega)
  obtain ⟨t, ht, hp, hv⟩ := frame_performed_of_ready (ack := true) h hstore hreacts hu
  rw [slots_append, hslots] at hv
  exact ⟨t, ht, hp, hv⟩

/-- The core's own address, complete: the direction is captured, and the acknowledge leads to the state of the direction (44 R163 to
R166). -/
theorem received_address {v : View} (rw : Bit) (hs : v.st = .rcvAddress) :
    ({ v with bitCount := 8, value := v.cfg.addressByte rw, wire := recordByte v.wire (v.cfg.addressByte rw) } :
        View).lowStep.lowStep.slot true =
      { v with
        st := if rw then .read else .rcvOffset
        bitCount := 0
        value := v.cfg.addressByte rw
        isRead := rw
        dataDrv := rw || v.dataDrv
        dataBit := if rw then (v.mem.read v.offset).getLsbD 7 else v.dataBit
        wire := frameOf (v.cfg.addressByte rw) false } := by
  obtain ⟨cfg, st, bc, value, off, ir, dd, db, mem, w⟩ := v
  obtain rfl : st = .rcvAddress := hs
  have ha : (cfg.addressByte rw).extractLsb' 1 7 = cfg.addr := (answers_addressByte cfg rw .rcvAddress rfl).2 rfl
  simp only [View.lowStep, reduceIte, ha, getLsbD_zero_addressByte]
  rw [slot_ackAddress true rfl rfl]
  exact congrArg (View.mk cfg _ 0 _ off rw _ _ mem) (record_frame _ _ _)

/-- The offset byte, complete: it is loaded modulo `N`, and the acknowledge leads to RCV_DATA (44 R167 to R170; R190). -/
theorem received_offset {v : View} (o : Byte) (hs : v.st = .rcvOffset) :
    ({ v with bitCount := 8, value := o, wire := recordByte v.wire o } : View).lowStep.lowStep.slot true =
      { v with
        st := .rcvData
        bitCount := 0
        value := o
        offset := o.toNat % v.cfg.N
        wire := frameOf o false } := by
  obtain ⟨cfg, st, bc, value, off, ir, dd, db, mem, w⟩ := v
  obtain rfl : st = .rcvOffset := hs
  simp only [View.lowStep, reduceIte]
  rw [slot_ackOffset true rfl rfl]
  exact congrArg (View.mk cfg _ 0 o _ ir dd db mem) (record_frame o false w)

/-- A data byte, complete: it is written, and the end of the acknowledge moves the offset on (44 R171 to R174; R191, R194). -/
theorem received_data {v : View} (d : Byte) (hs : v.st = .rcvData) :
    ({ v with bitCount := 8, value := d, wire := recordByte v.wire d } : View).lowStep.lowStep.slot true =
      { v with
        bitCount := 0
        value := d
        offset := (v.offset + 1) % v.cfg.N
        mem := v.mem.write v.offset d
        wire := frameOf d false } := by
  obtain ⟨cfg, st, bc, value, off, ir, dd, db, mem, w⟩ := v
  obtain rfl : st = .rcvData := hs
  simp only [View.lowStep, reduceIte]
  rw [slot_ackData true rfl rfl]
  exact congrArg (View.mk cfg _ 0 d _ ir dd db _) (record_frame d false w)

/-! ### Frames of a byte the core transmits (47 R219, R220) -/

/-- In READ the SCL low phase drives bit 7 of the addressed cell, and eight slots transmit that cell (42 R140). -/
theorem transmits_cell {v : View} (hs : v.st = .read) (hb : v.bitCount = 0) :
    ∃ w, Reacts v w ∧ w.unstretched (byteBits released) ∧
      w.slots (byteBits released) =
        { v with
          st := .ackRead
          bitCount := 8
          dataDrv := false
          dataBit := (v.mem.read v.offset).getLsbD 0
          wire := recordByte v.wire (v.mem.read v.offset) } := by
  have hw := reacts_read hs (show v.bitCount < 8 by omega)
  obtain ⟨hu, hslots⟩ := slots_transmitByte
    (v := { v with dataDrv := true, dataBit := (v.mem.read v.offset).getLsbD (7 - v.bitCount) }) hs hb rfl (by rw [hb])
  exact ⟨_, hw, hu, hslots⟩

/-- A frame met in READ: the master sees the addressed cell, and slot 9 is its answer. The store may be busy. -/
theorem frame_transmitted (ack : Bit) {s : State} (h : FrameReady s) (hs : s.regs.state = .read) (hb : s.regs.bitCount = 0) :
    ∃ t, frame released ack s = .next t ∧ Performed (frameTicks s) s t ∧
      view t =
        ({ view s with
           st := .ackRead
           bitCount := 8
           dataDrv := false
           dataBit := (s.mem.read s.regs.offset).getLsbD 0
           wire := recordByte s.wire (s.mem.read s.regs.offset) } : View).slot ack := by
  obtain ⟨w, hreacts, hu, hslots⟩ := transmits_cell (v := view s) hs hb
  obtain ⟨t, ht, hp, hv⟩ := frame_performed (ack := ack) h hreacts hu (by rw [hslots]; rfl)
  rw [slots_append, hslots] at hv
  exact ⟨t, ht, hp, hv⟩

/-- The master's ACK moves the offset on, and the next cell's bit 7 is driven (44 R176; R191). -/
theorem transmitted_ack {v : View} (hs : v.st = .read) :
    ({ v with
       st := .ackRead
       bitCount := 8
       dataDrv := false
       dataBit := (v.mem.read v.offset).getLsbD 0
       wire := recordByte v.wire (v.mem.read v.offset) } : View).slot false =
      { v with
        bitCount := 0
        offset := (v.offset + 1) % v.cfg.N
        dataDrv := true
        dataBit := (v.mem.read ((v.offset + 1) % v.cfg.N)).getLsbD 7
        wire := frameOf (v.mem.read v.offset) false } := by
  obtain ⟨cfg, st, bc, value, off, ir, dd, db, mem, w⟩ := v
  obtain rfl : st = .read := hs
  rw [slot_masterAck rfl rfl]
  exact congrArg (View.mk cfg _ 0 value _ ir _ _ mem) (record_frame _ _ _)

/-- The master's NACK ends the read (44 R176). -/
theorem transmitted_nack (v : View) :
    ({ v with
       st := .ackRead
       bitCount := 8
       dataDrv := false
       dataBit := (v.mem.read v.offset).getLsbD 0
       wire := recordByte v.wire (v.mem.read v.offset) } : View).slot true =
      { v with
        st := .waitStart
        bitCount := 0
        dataDrv := false
        dataBit := (v.mem.read v.offset).getLsbD 0
        wire := frameOf (v.mem.read v.offset) true } := by
  rw [slot_masterNack rfl rfl rfl]
  exact congrArg (View.mk v.cfg _ 0 v.value v.offset v.isRead _ _ v.mem) (record_frame _ _ _)

/-! ### START and STOP between frames (47 R211 to R213) -/

/-- START or STOP from rest, with a core that does not hold SDA low and stays as it is when SCL goes low: SDA is seen to move, where
the lines are not there yet after one more rising edge. -/
theorem condition_performed {d : Bit} {s : State} (hinv : TickInv s) (hrest : AtRest s) (hpaced : Paced s)
    (hpeace : Peaceful (conditionTicks d s) s) (hstays : Reacts (view s) (view s)) (hoe : (view s).oe = false)
    (hstill : stretches (view s).st = false) :
    ∃ t w, condition d s = .next t ∧ Performed (conditionTicks d s) s t ∧ (w = view s ∨ w = (view s).riseStep d) ∧
      view t = w.edgeStep (!d) := by
  obtain ⟨⟨hsamp, -⟩, -⟩ := hinv
  obtain ⟨hfeeds, hcalm, hlen⟩ := peaceful_feeds hpeace
  cases hd : direct d s with
  | true =>
    rw [conditionTicks, if_pos hd] at hfeeds hcalm hlen ⊢
    obtain ⟨t, ht, hv, -, hrest', -, helapsed, -⟩ := condition_direct (c := []) hsamp hrest hpaced (by rwa [List.append_nil])
      hcalm hlen hd hoe
    exact ⟨t, _, ht, performed_of_elapsed helapsed hrest', .inl rfl, hv⟩
  | false =>
    rw [conditionTicks, if_neg (by simp [hd])] at hfeeds hcalm hlen ⊢
    obtain ⟨t, ht, hv, -, hrest', -, helapsed, -⟩ := condition_indirect (c := []) (falls_atRest hsamp hrest hstays) hrest.1
      hpaced (by rwa [List.append_nil]) hcalm hlen hd hoe hstill
    exact ⟨t, _, ht, performed_of_elapsed helapsed hrest', .inr rfl, hv⟩

/-- Where START and STOP come in a segment: in WAIT_START, and before the first bit of a data byte. -/
abbrev View.Between (v : View) : Prop := v.st = .waitStart ∨ (v.st = .rcvData ∧ v.bitCount = 0)

/-- There the core waits for bits with both lines released. -/
theorem View.Between.waits {v : View} (h : v.Between) (hd : v.dataDrv = false) :
    Reacts v v ∧ v.oe = false ∧ stretches v.st = false := by
  obtain hs | ⟨hs, hb⟩ := h
  · exact ⟨reacts_waitStart hs, by rw [View.oe, hs, hd]; rfl, by rw [hs]; rfl⟩
  · exact ⟨reacts_receives (by rw [hs]; rfl) (by omega), by rw [View.oe, hs, hd]; rfl, by rw [hs]; rfl⟩

/-- There a rising edge of SCL touches the shifter alone, and no byte is complete after it. -/
theorem View.Between.riseStep_eq {v : View} (h : v.Between) (d : Bit) :
    ∃ bitCount value,
      v.riseStep d = { v with bitCount := bitCount, value := value } ∧ (v.riseStep d).holdStep = v.riseStep d := by
  obtain ⟨cfg, st, bc, value, off, ir, dd, db, mem, wire⟩ := v
  obtain hs | ⟨hs, hb⟩ := h
  · obtain rfl : st = .waitStart := hs
    by_cases h8 : bc = 8
    · exact ⟨0, value, by simp [View.riseStep, View.count, View.holdStep, h8]⟩
    · exact ⟨bc, value, by simp [View.riseStep, View.count, View.holdStep, receives, h8]⟩
  · obtain rfl : st = .rcvData := hs
    obtain rfl : bc = 0 := hb
    exact ⟨1, shiftLeftIn value d, by simp [View.riseStep, View.count, View.holdStep, receives]⟩

/-- START or STOP where the state's rule does not act: the state moves, a START clears the counter, and SDA is let go. -/
theorem edgeStep_of_holdStep {w : View} (d : Bit) (h : w.holdStep = w) :
    w.edgeStep (!d) =
      { w with st := if d then .rcvAddress else .waitStart, bitCount := if d then 0 else w.bitCount, dataDrv := false } := by
  cases d <;> simp [View.edgeStep, View.startStep, View.stopStep, h]

/-- There START and STOP move the state and touch the shifter alone, with or without the rising edge before them. -/
theorem View.Between.edgeStep_eq {v w : View} (h : v.Between) (d : Bit) (hw : w = v ∨ w = v.riseStep d) :
    ∃ bitCount value,
      w.edgeStep (!d) =
        { v with
          st := if d then .rcvAddress else .waitStart
          bitCount := if d then 0 else bitCount
          value := value
          dataDrv := false } := by
  obtain rfl | rfl := hw
  · have hhold : w.holdStep = w := by
      obtain hs | ⟨hs, hb⟩ := h
      · rw [View.holdStep, hs]
      · exact holdStep_receives (by rw [hs]; rfl) (by omega)
    exact ⟨_, _, edgeStep_of_holdStep d hhold⟩
  · obtain ⟨bitCount, value, hrise, hhold⟩ := h.riseStep_eq d
    refine ⟨bitCount, value, (edgeStep_of_holdStep d hhold).trans ?_⟩
    rw [hrise]

/-! ### The stages of a segment -/

/-- Where a transaction stands between two operations, as far as the statements about segments speak of it. -/
structure Stage where
  st : ProtocolState
  offset : Nat
  isRead : Bit
  /-- What each cell of the store reads as. -/
  cells : Nat → Byte
  /-- What the master saw in its last nine bit slots. -/
  wire : BitVec 9

/-- The core is at that stage. The bit counter is at 0 but in WAIT_START, where a START clears it first. -/
structure View.IsAt (v : View) (x : Stage) : Prop where
  st : v.st = x.st
  offset : v.offset = x.offset
  isRead : v.isRead = x.isRead
  cells : ∀ a, v.mem.read a = x.cells a
  wire : v.wire = x.wire
  bitCount : x.st ≠ .waitStart → v.bitCount = 0

theorem View.IsAt.addressed {v : View} {x : Stage} (h : v.IsAt x) : v.mem.read v.offset = x.cells x.offset := by
  rw [h.cells, h.offset]

/-- The premises of the statements about segments, for `n` more frames. -/
structure Undisturbed (n : Nat) (s : State) : Prop where
  inv : TickInv s
  rest : AtRest s
  paced : Paced s
  peaceful : Peaceful (n * frameTicks s) s
  ready : StoreReady 0 (n * frameTicks s) s

/-- The store that stays ready beyond a bus operation (as `peaceful_of_performed`). -/
theorem storeReady_of_performed {i : Instr} (hi : isBusOp i = true) {k m : Nat} {s t : State} (ht : exec i s = .next t)
    (hp : Performed k s t) (hpeace : Peaceful (k + m) s) (h : StoreReady 0 (k + m) s) (hm : m ≠ 1) : StoreReady 0 m t := by
  obtain rfl | hpos := Nat.eq_zero_or_pos m
  · exact fun _ hinp => absurd hinp List.not_mem_nil
  · obtain ⟨hlen, -⟩ := hpeace
    rw [List.length_cons] at hlen
    intro inp hinp
    rw [coming_of_performed hi ht hp (by omega), List.drop_zero, List.take_drop] at hinp
    exact h inp (List.drop_subset k _ hinp)

/-- An operation that takes no longer than a frame leaves the rest of the premises to those after it. -/
theorem Undisturbed.next {i : Instr} (hi : isBusOp i = true) {n k : Nat} {s t : State} (h : Undisturbed (n + 1) s)
    (ht : exec i s = .next t) (hp : Performed k s t) (hk : k ≤ frameTicks s) : Undisturbed n t := by
  obtain ⟨-, -, hpace, -, hrest⟩ := id hp
  have hsame : frameTicks t = frameTicks s := by rw [frameTicks, slotTicks_pace hpace, hpace]
  have hlong : 2 ≤ frameTicks s := by
    obtain ⟨-, -, -, -, hlong⟩ := h.paced
    rw [frameTicks]
    omega
  have hone : n * frameTicks s ≠ 1 := fun h1 => by
    have := Nat.eq_one_of_mul_eq_one_left h1
    omega
  have hle : k + n * frameTicks s ≤ (n + 1) * frameTicks s := by
    rw [Nat.succ_mul]
    omega
  have hpeace := peaceful_mono h.peaceful hle
  refine ⟨tickInv_of_exec hi h.inv ht, hrest, paced_of_performed hp h.paced, ?_, ?_⟩
  · rw [hsame]
    exact peaceful_of_performed hi ht hp hpeace hone
  · rw [hsame]
    exact storeReady_of_performed hi ht hp hpeace (storeReady_window h.ready (by omega)) hone

theorem Undisturbed.frameReady {n : Nat} {s : State} (h : Undisturbed (n + 1) s) : FrameReady s :=
  ⟨h.inv, h.rest, h.paced, peaceful_mono h.peaceful (Nat.le_mul_of_pos_left _ n.succ_pos)⟩

theorem Undisturbed.ackReady {n : Nat} {s : State} (h : Undisturbed (n + 1) s) : StoreReady (ackTick s) s.pace.high s := by
  refine storeReady_window h.ready (le_trans ?_ (Nat.le_mul_of_pos_left (frameTicks s) n.succ_pos))
  simp only [ackTick, frameTicks, slotTicks]
  omega

/-- Between two operations in a configuration, with `n` undisturbed frames to come. -/
def AtStage (c : Config) (n : Nat) (x : Stage) (s : State) : Prop := Undisturbed n s ∧ s.cfg = c ∧ (view s).IsAt x

/-- The operations complete from every state with `P`, in a state with `Q`. -/
def Leads (is : List Instr) (P Q : State → Prop) : Prop := ∀ s, P s → ∃ t, runOps is s = .next t ∧ Q t

theorem Leads.trans {is js : List Instr} {P Q R : State → Prop} (h : Leads is P Q) (h' : Leads js Q R) :
    Leads (is ++ js) P R := by
  intro s hs
  obtain ⟨u, hu, hq⟩ := h s hs
  obtain ⟨t, ht, hr⟩ := h' u hq
  exact ⟨t, by rw [runOps_append, hu, andThen_next, ht], hr⟩

theorem leads_nil (P : State → Prop) : Leads [] P P := fun s hs => ⟨s, rfl, hs⟩

/-- One operation, from what it makes of the view. -/
theorem leads_op {i : Instr} (hi : isBusOp i = true) {c : Config} {n : Nat} {x y : Stage}
    (h : ∀ s, AtStage c (n + 1) x s →
      ∃ t k, exec i s = .next t ∧ Performed k s t ∧ k ≤ frameTicks s ∧ (view t).IsAt y) :
    Leads [i] (AtStage c (n + 1) x) (AtStage c n y) := by
  intro s hs
  obtain ⟨t, k, ht, hp, hk, hy⟩ := h s hs
  obtain ⟨hundisturbed, hcfg, -⟩ := hs
  exact ⟨t, by rw [runOps, ht]; rfl, hundisturbed.next hi ht hp hk, (cfg_of_exec ht).trans hcfg, hy⟩

/-! ### The operations, from stage to stage -/

section
variable {c : Config} {n : Nat} {x : Stage}

/-- START or STOP in WAIT_START and between data bytes. -/
theorem leads_condition {i : Instr} (d : Bit) (hi : isBusOp i = true) (hexec : ∀ s, exec i s = condition d s)
    (hx : x.st = .waitStart ∨ x.st = .rcvData) :
    Leads [i] (AtStage c (n + 1) x) (AtStage c n { x with st := if d then .rcvAddress else .waitStart }) := by
  refine leads_op hi ?_
  rintro s ⟨hs, -, hv⟩
  have hbetween : (view s).Between := hx.imp hv.st.trans fun h => ⟨hv.st.trans h, hv.bitCount (by simp [h])⟩
  have hne : s.regs.state ≠ .read := by
    rw [show s.regs.state = x.st from hv.st]
    obtain h | h := hx <;> simp [h]
  obtain ⟨hstays, hoe, hstill⟩ := hbetween.waits (dataDrv_eq_false hs.inv.2 hne)
  have hk : conditionTicks d s ≤ frameTicks s := by
    simp only [conditionTicks, frameTicks]
    split <;> omega
  obtain ⟨-, -, -, hpeace⟩ := hs.frameReady
  obtain ⟨t, w, ht, hp, hw, hvt⟩ := condition_performed hs.inv hs.rest hs.paced (peaceful_mono hpeace hk) hstays hoe hstill
  refine ⟨t, _, (hexec s).trans ht, hp, hk, ?_⟩
  obtain ⟨bitCount, value, hedge⟩ := hbetween.edgeStep_eq d hw
  rw [hvt, hedge]
  refine ⟨rfl, hv.offset, hv.isRead, hv.cells, hv.wire, ?_⟩
  cases d
  exacts [fun h => absurd rfl h, fun _ => rfl]

theorem leads_condS (hx : x.st = .waitStart) :
    Leads [.condS] (AtStage c (n + 1) x) (AtStage c n { x with st := .rcvAddress }) :=
  leads_condition true rfl (fun _ => rfl) (.inl hx)

/-- A frame of a byte the core receives. -/
theorem leads_received {i : Instr} {y : Stage} (byte : Byte) (hi : isBusOp i = true)
    (hexec : ∀ s, s.cfg = c → exec i s = frame byte true s) (hr : receives x.st = true)
    (hy : ∀ v : View, v.cfg = c → v.mem.wf → v.IsAt x →
      (({ v with bitCount := 8, value := byte, wire := recordByte v.wire byte } : View).lowStep.lowStep.slot true).IsAt y) :
    Leads [i] (AtStage c (n + 1) x) (AtStage c n y) := by
  refine leads_op hi ?_
  rintro s ⟨hs, hcfg, hv⟩
  obtain ⟨⟨-, -, -, hwf, -⟩, -⟩ := hs.inv
  have hst : x.st ≠ .waitStart := by
    intro h
    rw [h] at hr
    cases hr
  obtain ⟨t, ht, hp, hvt⟩ := frame_received byte hs.frameReady hs.ackReady ((congrArg receives hv.st).trans hr) (hv.bitCount hst)
  exact ⟨t, _, (hexec s hcfg).trans ht, hp, le_rfl, hvt ▸ hy (view s) hcfg hwf hv⟩

/-- ADDR_W (`rw` is 0) and ADDR_R (`rw` is 1). -/
theorem leads_address {i : Instr} (rw : Bit) (hi : isBusOp i = true)
    (hexec : ∀ s, exec i s = frame (s.cfg.addressByte rw) true s) (hx : x.st = .rcvAddress) :
    Leads [i] (AtStage c (n + 1) x) (AtStage c n
      { x with
        st := if rw then .read else .rcvOffset
        isRead := rw
        wire := frameOf (c.addressByte rw) false }) := by
  refine leads_received (c.addressByte rw) hi (fun s hcfg => hcfg ▸ hexec s) (by rw [hx]; rfl) ?_
  rintro v rfl - hv
  rw [received_address rw (hv.st.trans hx)]
  exact ⟨rfl, hv.offset, rfl, hv.cells, rfl, fun _ => rfl⟩

theorem leads_addrW (hx : x.st = .rcvAddress) :
    Leads [.addrW] (AtStage c (n + 1) x)
      (AtStage c n { x with st := .rcvOffset, isRead := false, wire := frameOf (c.addressByte false) false }) :=
  leads_address false rfl (fun _ => rfl) hx

theorem leads_addrR (hx : x.st = .rcvAddress) :
    Leads [.addrR] (AtStage c (n + 1) x)
      (AtStage c n { x with st := .read, isRead := true, wire := frameOf (c.addressByte true) false }) :=
  leads_address true rfl (fun _ => rfl) hx

theorem leads_offset (o : Byte) (hx : x.st = .rcvOffset) :
    Leads [.offset o] (AtStage c (n + 1) x)
      (AtStage c n { x with st := .rcvData, offset := o.toNat % c.N, wire := frameOf o false }) := by
  refine leads_received o rfl (fun _ _ => rfl) (by rw [hx]; rfl) ?_
  rintro v rfl - hv
  rw [received_offset o (hv.st.trans hx)]
  exact ⟨rfl, rfl, hv.isRead, hv.cells, rfl, fun _ => rfl⟩

theorem leads_wdata (d : Byte) (hx : x.st = .rcvData) :
    Leads [.wdata d] (AtStage c (n + 1) x) (AtStage c n
      { x with
        offset := (x.offset + 1) % c.N
        cells := fun a => if a = x.offset then d else x.cells a
        wire := frameOf d false }) := by
  refine leads_received d rfl (fun _ _ => rfl) (by rw [hx]; rfl) ?_
  rintro v rfl hwf hv
  rw [received_data d (hv.st.trans hx)]
  refine ⟨hv.st, by rw [hv.offset], hv.isRead, fun a => ?_, rfl, fun _ => rfl⟩
  rw [Memory.read_write hwf, hv.offset, hv.cells]

theorem leads_rdataA (hx : x.st = .read) :
    Leads [.rdataA] (AtStage c (n + 1) x) (AtStage c n
      { x with offset := (x.offset + 1) % c.N, wire := frameOf (x.cells x.offset) false }) := by
  refine leads_op rfl ?_
  rintro s ⟨hs, rfl, hv⟩
  have hst := hv.st.trans hx
  obtain ⟨t, ht, hp, hvt⟩ := frame_transmitted false hs.frameReady hst (hv.bitCount (by simp [hx]))
  refine ⟨t, _, ht, hp, le_rfl, ?_⟩
  rw [hvt.trans (transmitted_ack hst)]
  exact ⟨hv.st, congrArg (fun o => (o + 1) % s.cfg.N) hv.offset, hv.isRead, hv.cells,
    congrArg (frameOf · false) hv.addressed, fun _ => rfl⟩

theorem leads_rdataN (hx : x.st = .read) :
    Leads [.rdataN] (AtStage c (n + 1) x) (AtStage c n { x with st := .waitStart, wire := frameOf (x.cells x.offset) true }) := by
  refine leads_op rfl ?_
  rintro s ⟨hs, -, hv⟩
  have hst := hv.st.trans hx
  obtain ⟨t, ht, hp, hvt⟩ := frame_transmitted true hs.frameReady hst (hv.bitCount (by simp [hx]))
  refine ⟨t, _, ht, hp, le_rfl, ?_⟩
  rw [hvt.trans (transmitted_nack (view s))]
  exact ⟨rfl, hv.offset, hv.isRead, hv.cells, congrArg (frameOf · true) hv.addressed, fun _ => rfl⟩

end

/-! ### Streams (R196, R197) -/

/-- Data frames one after the other: each byte goes to the cell the one before left the offset at. -/
theorem leads_writeStream {c : Config} {n : Nat} (ds : List Byte) {x : Stage} (hx : x.st = .rcvData) (ho : x.offset < c.N) :
    ∃ w, Leads (ds.map .wdata) (AtStage c (ds.length + n) x) (AtStage c n
      { x with
        offset := (x.offset + ds.length) % c.N
        cells := fun a => streamCell c.N x.offset ds a (x.cells a)
        wire := w }) := by
  induction ds generalizing x with
  | nil =>
    rw [List.length_nil, Nat.add_zero, Nat.mod_eq_of_lt ho, Nat.zero_add]
    exact ⟨x.wire, leads_nil _⟩
  | cons d ds ih =>
    obtain ⟨w, hw⟩ := ih (x := { x with
      offset := (x.offset + 1) % c.N, cells := fun a => if a = x.offset then d else x.cells a, wire := frameOf d false })
      hx (Nat.mod_lt _ c.N_pos)
    rw [Nat.mod_add_mod, Nat.add_assoc, Nat.add_comm 1] at hw
    rw [List.length_cons, Nat.add_right_comm]
    exact ⟨w, (leads_wdata d hx).trans hw⟩

/-- Acknowledged frames one after the other. -/
theorem leads_readStream {c : Config} {n : Nat} (k : Nat) {x : Stage} (hx : x.st = .read) (ho : x.offset < c.N) :
    ∃ w, Leads (List.replicate k .rdataA) (AtStage c (k + n) x)
      (AtStage c n { x with offset := (x.offset + k) % c.N, wire := w }) := by
  induction k generalizing x with
  | zero =>
    rw [Nat.add_zero, Nat.mod_eq_of_lt ho, Nat.zero_add]
    exact ⟨x.wire, leads_nil _⟩
  | succ k ih =>
    obtain ⟨w, hw⟩ := ih (x := { x with offset := (x.offset + 1) % c.N, wire := frameOf (x.cells x.offset) false })
      hx (Nat.mod_lt _ c.N_pos)
    rw [Nat.mod_add_mod, Nat.add_assoc, Nat.add_comm 1] at hw
    rw [Nat.add_right_comm]
    exact ⟨w, (leads_rdataA hx).trans hw⟩

/-! ### Segments (30 R97) -/

/-- S, ADDR_W and OFFSET, which WRITE and READ_AT begin with. -/
theorem leads_writeOpen {c : Config} {n : Nat} {x : Stage} (o : Byte) (hx : x.st = .waitStart) :
    Leads [.condS, .addrW, .offset o] (AtStage c (n + 3) x)
      (AtStage c n { x with st := .rcvData, offset := o.toNat % c.N, isRead := false, wire := frameOf o false }) :=
  ((leads_condS hx).trans (leads_addrW rfl)).trans (leads_offset o rfl)

theorem leads_writeOps {c : Config} {n : Nat} {x : Stage} (o : Byte) (ds : List Byte) (hx : x.st = .waitStart) :
    ∃ w, Leads (writeOps o ds) (AtStage c (ds.length + n + 4) x) (AtStage c n
      { st := .waitStart
        offset := (o.toNat + ds.length) % c.N
        isRead := false
        cells := fun a => streamCell c.N (o.toNat % c.N) ds a (x.cells a)
        wire := w }) := by
  obtain ⟨w, hdata⟩ := leads_writeStream (c := c) (n := n + 1) ds
    (x := { x with st := .rcvData, offset := o.toNat % c.N, isRead := false, wire := frameOf o false })
    rfl (Nat.mod_lt _ c.N_pos)
  rw [Nat.mod_add_mod] at hdata
  exact ⟨w, ((leads_writeOpen o hx).trans hdata).trans (leads_condition false rfl (fun _ => rfl) (.inr rfl))⟩

theorem leads_readAtOps {c : Config} {n : Nat} {x : Stage} (o : Byte) (hx : x.st = .waitStart) :
    Leads (readAtOps o) (AtStage c (n + 7) x) (AtStage c n
      { st := .waitStart
        offset := o.toNat % c.N
        isRead := true
        cells := x.cells
        wire := frameOf (x.cells (o.toNat % c.N)) true }) := by
  have hrestart := (leads_writeOpen (c := c) (n := n + 4) o hx).trans
    (leads_condition (i := .condSr) true rfl (fun _ => rfl) (.inr rfl))
  have hread := (hrestart.trans (leads_addrR rfl)).trans (leads_rdataN rfl)
  exact hread.trans (leads_condition (i := .condP) false rfl (fun _ => rfl) (.inl rfl))

/-- S, ADDR_R and `k` acknowledged frames. -/
theorem leads_readOpen {c : Config} {n : Nat} {x : Stage} (k : Nat) (hx : x.st = .waitStart) (ho : x.offset < c.N) :
    ∃ w, Leads ([.condS, .addrR] ++ List.replicate k .rdataA) (AtStage c (k + n + 2) x)
      (AtStage c n { x with st := .read, offset := (x.offset + k) % c.N, isRead := true, wire := w }) := by
  obtain ⟨w, hdata⟩ := leads_readStream (c := c) (n := n) k
    (x := { x with st := .read, isRead := true, wire := frameOf (c.addressByte true) false }) rfl ho
  exact ⟨w, ((leads_condS hx).trans (leads_addrR rfl)).trans hdata⟩

/-! ### The obligations on segments -/

/-- The stage a state between two operations is at. -/
def stageOf (s : State) : Stage := ⟨s.regs.state, s.regs.offset, s.regs.isRead, s.mem.read, s.wire⟩

theorem atStage_of_waitStart {n : Nat} {s : State} (h : Undisturbed n s) (hst : s.regs.state = .waitStart) :
    AtStage s.cfg n (stageOf s) s :=
  ⟨h, rfl, rfl, rfl, rfl, fun _ => rfl, rfl, fun hne => absurd hst hne⟩

/-- Settles O54: S, ADDR_W and OFFSET load the offset, each data frame writes the cell it is at and moves it on, and P ends. -/
theorem writeStream : Obligations.WriteStream := by
  intro s o ds hinv hrest hpaced hpeace hready hst
  obtain ⟨w, hleads⟩ := leads_writeOps (c := s.cfg) (n := 0) (x := stageOf s) o ds hst
  obtain ⟨t, ht, hundisturbed, -, hv⟩ := hleads s (atStage_of_waitStart ⟨hinv, hrest, hpaced, hpeace, hready⟩ hst)
  exact ⟨t, ht, hundisturbed.inv, hundisturbed.rest, hv.st, hv.offset, hv.isRead, hv.cells⟩

/-- Settles O55: `n` acknowledged frames bring the offset to `p + n`, and one more frame carries that cell, acknowledged or not. -/
theorem readStream : Obligations.ReadStream := by
  intro s n hinv hrest hpaced hpeace hready hst
  have hs := atStage_of_waitStart ⟨hinv, hrest, hpaced, hpeace, hready⟩ hst
  obtain ⟨⟨-, -, hoff, -⟩, -⟩ := hinv
  obtain ⟨w, hopen⟩ := leads_readOpen (c := s.cfg) (n := 1) (x := stageOf s) n hst hoff
  constructor
  · obtain ⟨t, ht, -, -, hv⟩ := hopen.trans (leads_rdataA rfl) s hs
    rw [List.append_assoc, ← List.replicate_succ'] at ht
    exact ⟨t, ht, hv.wire.trans (frameOf_eq _ _), hv.st, hv.offset.trans (Nat.mod_add_mod _ _ _), hv.cells⟩
  · obtain ⟨t, ht, -, -, hv⟩ := hopen.trans (leads_rdataN rfl) s hs
    exact ⟨t, ht, hv.wire.trans (frameOf_eq _ _), hv.st, hv.offset, hv.cells⟩

/-- The one cell a stream of one byte goes to. -/
theorem streamCell_singleton (N o : Nat) (d old : Byte) : streamCell N o [d] o old = d := if_pos rfl

/-- Settles O56: READ_AT reads the cell that WRITE has written. -/
theorem writeThenReadReturnsTheByte : Obligations.WriteThenReadReturnsTheByte := by
  intro s o b hinv hrest hpaced hpeace hready hst
  obtain ⟨w, hwrite⟩ := leads_writeOps (c := s.cfg) (n := 7) (x := stageOf s) o [b] hst
  obtain ⟨t, ht, -, -, hv⟩ := hwrite.trans (leads_readAtOps (n := 0) o rfl) s
    (atStage_of_waitStart ⟨hinv, hrest, hpaced, hpeace, hready⟩ hst)
  have hwire := hv.wire
  dsimp only at hwire
  rw [streamCell_singleton, frameOf_eq] at hwire
  exact ⟨t, ht, hwire, hv.st⟩

end Sys2Proof.Machine
end

section
/-!
PROOFS of the family 46_tick_step.md: every operation completes, the tick as one update of every register, port and cell and as its
single operations put together, what the inputs of a tick reach, and that two ticks with steady lines bring the core to rest.
-/

namespace Sys2Proof.Machine

/-! ### Completion (R202) -/

/-- Settles O11: an operation answers one next state, from every state, and that one satisfies the invariants where they held. -/
theorem everyOperationCompletes : Obligations.EveryOperationCompletes := by
  intro i s
  obtain ⟨t, ht, -⟩ := exec_next_cfg i s
  refine ⟨t, ht, fun h => ?_⟩
  obtain ⟨u, hu, hinv⟩ := exec_next_inv i h
  cases hu.symm.trans ht
  exact hinv

/-! ### The tick, register by register (R200) -/

theorem outputAdvances_tickState {s : State} (h8 : s.regs.bitCount ≤ 8) : OutputAdvances s.regs.state s (tickState s) :=
  ⟨nextDataDrv_eq s, nextDataBit_eq h8⟩

theorem acknowledges_iff {st : ProtocolState} : acknowledges st = true ↔
    st = .ackAddress1 ∨ st = .ackAddress2 ∨ st = .ackOffset1 ∨ st = .ackOffset2 ∨ st = .ackData1 ∨ st = .ackData2 := by
  simp [acknowledges_eq_decide]

/-- 43 R145, R146. -/
theorem sdaOe_iff {s : State} : sdaOe s = true ↔
    (s.regs.state = .ackAddress1 ∨ s.regs.state = .ackAddress2 ∨ s.regs.state = .ackOffset1 ∨ s.regs.state = .ackOffset2 ∨
      s.regs.state = .ackData1 ∨ s.regs.state = .ackData2) ∨ (s.regs.dataDrv = true ∧ s.regs.dataBit = false) := by
  rw [sdaOe, ackDrive, Bool.or_eq_true, Bool.and_eq_true, Bool.not_eq_true', acknowledges_iff]

/-- 43 R148. -/
theorem sclOe_iff {s : State} : sclOe s = true ↔
    s.inputs.storeBusy = true ∧ s.regs.scl = false ∧
      (s.regs.state = .ackAddress1 ∨ s.regs.state = .ackOffset1 ∨ s.regs.state = .ackData1) := by
  rw [sclOe, Bool.and_eq_true, Bool.and_eq_true, Bool.not_eq_true', stretches_iff, and_assoc]

theorem portsShow_tickState (s : State) : PortsShow s.regs.state s (tickState s) :=
  ⟨Bool.eq_iff_iff.2 (sdaOe_iff.trans decide_eq_true_iff.symm), rfl,
    Bool.eq_iff_iff.2 (sclOe_iff.trans decide_eq_true_iff.symm), rfl, rfl, rfl,
    Bool.eq_iff_iff.2 (strobes_memWe_iff.trans decide_eq_true_iff.symm)⟩

/-- Settles O28: the tick commits the next value of every register and cell, each in the words of its rule, and shows its ports. -/
theorem tickStepUpdatesEverything : Obligations.TickStepUpdatesEverything := fun s h8 hwf =>
  ⟨tickState s, exec_tickStep s, ticksIn_tickState s, strobesAct_tickState hwf, outputAdvances_tickState h8, nextState_eq s,
    portsShow_tickState s⟩

/-! ### The tick as its operations (R201; log 21) -/

/-- The counter of a tick is the one the first of COUNT_CLEAR, COUNT_WRAP and COUNT_INC leaves that changes it alone. -/
theorem nextBitCount_eq_chain (s : State) :
    nextBitCount s =
      if (if countClears s then 0 else s.regs.bitCount) ≠ s.regs.bitCount then (if countClears s then 0 else s.regs.bitCount)
      else if (if countWraps s then 0 else s.regs.bitCount) ≠ s.regs.bitCount then (if countWraps s then 0 else s.regs.bitCount)
      else if countIncs s then s.regs.bitCount + 1 else s.regs.bitCount := by
  rw [nextBitCount]
  by_cases hclear : countClears s = true
  · -- a clear of a counter at 0 changes nothing, and neither of the others acts under a START
    have hwrap : ¬ countWraps s = true := fun h => (countWraps_iff.1 h).1 (countClears_iff.1 hclear)
    have hinc : ¬ countIncs s = true := fun h => (countIncs_iff.1 h).1 (countClears_iff.1 hclear)
    by_cases hzero : 0 = s.regs.bitCount <;> simp [hclear, hwrap, hinc, hzero]
  by_cases hwrap : countWraps s = true
  · have h8 : s.regs.bitCount = 8 := (countWraps_iff.1 hwrap).2.2
    simp [hclear, hwrap, h8]
  · simp [hclear, hwrap]

/-- No state both loads and increments the offset, so the state decides which of the two operations counts (44 R167, R174, R176). -/
theorem nextOffset_eq_by_state (s : State) :
    nextOffset s =
      if s.regs.state = .rcvOffset then (if strobes .ocLoad s then loadedOffset s else s.regs.offset)
      else (if strobes .ocInc s then steppedOffset s else s.regs.offset) := by
  rw [nextOffset]
  by_cases hst : s.regs.state = .rcvOffset
  · have hinc : ¬ strobes .ocInc s = true := fun h => by simp [strobes_ocInc_iff, hst] at h
    rw [if_pos hst, if_neg hinc]
  · have hload : ¬ strobes .ocLoad s = true := fun h => hst (strobes_ocLoad_iff.1 h).1
    rw [if_neg hst, if_neg hload]

/-- Settles O29: an operation on its own commits the same next value as the tick; the counter and the offset, which several operations
write, follow the one that acts. -/
theorem tickIsItsOperationsTogether : Obligations.TickIsItsOperationsTogether := fun s =>
  ⟨_, _, _, _, _, _, _, _, _, _, _, _, _, _, _, _, _, exec_tickStep s,
    rfl, rfl, rfl, rfl, rfl, rfl, rfl, rfl, rfl, rfl, rfl, rfl, rfl, rfl, rfl, rfl, rfl, nextBitCount_eq_chain s,
    rfl, rfl, rfl, rfl, rfl, rfl, nextOffset_eq_by_state s,
    rfl, rfl, rfl, rfl, rfl, rfl, rfl, rfl, rfl, rfl⟩

/-! ### What the inputs of a tick reach (R203) -/

/-- Of the inputs the signals and ports see the busy store alone, and only `scl_oe` does (43 R148). -/
theorem wiresOf_withInputs (inp : Inputs) (s : State) :
    wiresOf (withInputs inp s) =
      { wiresOf s with sclOe := inp.storeBusy && !s.regs.scl && stretches s.regs.state } := rfl

/-- Of the inputs the next registers see the raw lines alone, and only the first stage does (40 R110). -/
theorem nextRegs_withInputs (inp : Inputs) (s : State) :
    nextRegs (withInputs inp s) = { nextRegs s with sclFf1 := inp.sclIn, sdaFf1 := inp.sdaIn } := rfl

theorem nextMem_withInputs (inp : Inputs) (s : State) : nextMem (withInputs inp s) = nextMem s := rfl

/-- Settles O30: beyond the first stage a tick depends on its inputs through the busy store alone. -/
theorem rawLinesReachOnlyTheFirstStage : Obligations.RawLinesReachOnlyTheFirstStage := by
  intro s inp inp' hbusy
  refine ⟨_, _, exec_tickStep _, exec_tickStep _, ?_, ?_, ?_⟩
  · rw [tickState_wires, tickState_wires, wiresOf_withInputs, wiresOf_withInputs, hbusy]
  · rw [tickState_mem, tickState_mem, nextMem_withInputs, nextMem_withInputs]
  · show nextRegs (withInputs inp' s) = { nextRegs (withInputs inp s) with sclFf1 := inp'.sclIn, sdaFf1 := inp'.sdaIn }
    rw [nextRegs_withInputs, nextRegs_withInputs]

/-! ### Settling (R204) -/

/-- With SCL low the core is at rest after two ticks, unless an acknowledge is left at its end with the counter at 8: there the
next state would take the byte for a new one. -/
theorem lowStep_settles {v : View}
    (h : v.bitCount = 8 → v.st ≠ .ackAddress2 ∧ v.st ≠ .ackOffset2 ∧ v.st ≠ .ackData2) :
    v.lowStep.lowStep.lowStep = v.lowStep.lowStep := by
  obtain ⟨cfg, st, bc, value, off, ir, dd, db, mem, w⟩ := v
  cases st with
  -- at rest after one tick, if not before
  | waitStart | ackAddress0 | ackAddress1 | ackOffset0 | ackOffset1 | ackData0 | ackData1 | ackRead => rfl
  -- what a complete byte leads to
  | rcvAddress | rcvOffset | rcvData | read => exact (lands (fun _ => rfl) rfl).stays
  -- the end of the acknowledge, the counter off 8
  | ackAddress2 => exact (lands (fun h8 => absurd rfl (h h8).1) rfl).stays
  | ackOffset2 => exact (lands (fun h8 => absurd rfl (h h8).2.1) rfl).stays
  | ackData2 => exact (lands (fun h8 => absurd rfl (h h8).2.2) rfl).stays

/-- The tick after one without a capture sees SCL at the level it had, and with SCL high it sees no edge of either line: the hold
step alone (41 R127). -/
theorem view_hold_of_no_capture {s : State} (inp : Inputs) (hsamp : nextSampCount s ≠ 0) (hscl : s.regs.scl = true) :
    view (tickState (withInputs inp (tickState s))) = (view (tickState s)).holdStep := by
  obtain ⟨hc, hd⟩ := tickState_lines_held hsamp
  exact view_hold (withInputs inp (tickState s)) (hc.trans hscl) hscl hd.symm

/-- Three ticks without a capture in the first two: the third changes nothing the first two have not. With SCL low the reaction takes
two ticks; with SCL high it takes the one tick after the change. -/
theorem view_settles {s : State} (i1 i2 i3 : Inputs) (hK : s.regs.sampCount + 3 ≤ s.cfg.K)
    (h8 : s.regs.bitCount = 8 → s.regs.state ≠ .ackAddress2 ∧ s.regs.state ≠ .ackOffset2 ∧ s.regs.state ≠ .ackData2) :
    view (afterTicks [i1, i2, i3] s) = view (afterTicks [i1, i2] s) := by
  have hcount1 : nextSampCount (withInputs i1 s) = s.regs.sampCount + 1 :=
    (nextSampCount_eq (withInputs i1 s)).trans (if_neg (by simp only [withInputs_regs, withInputs_cfg]; omega))
  have hcount2 : nextSampCount (withInputs i2 (afterTicks [i1] s)) ≠ 0 := by
    have hsamp : (afterTicks [i1] s).regs.sampCount = s.regs.sampCount + 1 := hcount1
    rw [nextSampCount_eq, withInputs_regs, withInputs_cfg, hsamp, afterTicks_cfg, if_neg (by omega)]
    exact Nat.succ_ne_zero _
  have hheld1 : (afterTicks [i1] s).regs.scl = s.regs.scl := (tickState_lines_held (by omega)).1
  have hheld2 : (afterTicks [i1, i2] s).regs.scl = (afterTicks [i1] s).regs.scl := (tickState_lines_held hcount2).1
  cases hscl : s.regs.scl with
  | false =>
    have hlow1 : view (afterTicks [i1] s) = (view s).lowStep := view_low (withInputs i1 s) hscl
    have hlow2 : view (afterTicks [i1, i2] s) = (view (afterTicks [i1] s)).lowStep :=
      view_low (withInputs i2 (afterTicks [i1] s)) (hheld1.trans hscl)
    have hlow3 : view (afterTicks [i1, i2, i3] s) = (view (afterTicks [i1, i2] s)).lowStep :=
      view_low (withInputs i3 (afterTicks [i1, i2] s)) (hheld2.trans (hheld1.trans hscl))
    rw [hlow3, hlow2, hlow1, lowStep_settles h8]
  | true =>
    have hhold2 : view (afterTicks [i1, i2] s) = (view (afterTicks [i1] s)).holdStep :=
      view_hold_of_no_capture (s := withInputs i1 s) i2 (by omega) hscl
    have hhold3 : view (afterTicks [i1, i2, i3] s) = (view (afterTicks [i1, i2] s)).holdStep :=
      view_hold_of_no_capture (s := withInputs i2 (afterTicks [i1] s)) i3 hcount2 (hheld1.trans hscl)
    rw [hhold3, hhold2, View.hold_hold]

/-- Settles O32: the third tick leaves the view of the core, which is every register beyond the line registers, and the memory. -/
theorem coreSettlesInTwoTicks : Obligations.CoreSettlesInTwoTicks := by
  intro s i1 i2 i3 _ hK h8
  have hview := view_settles i1 i2 i3 hK h8
  simp only [view, View.mk.injEq] at hview
  obtain ⟨-, hst, hcount, hvalue, hoff, hread, hdrv, hbit, hmem, -⟩ := hview
  exact ⟨_, _, runTicks_eq_next [i1, i2] s, runTicks_eq_next [i1, i2, i3] s, ⟨hst, hoff, hread, hdrv, hbit⟩, hcount, hvalue,
    fun a => by rw [hmem]⟩

end Sys2Proof.Machine
end

section
/-!
PROOFS of the families 47_bus_operations.md and 70_reset_and_hazards.md: what each frame leaves (47 R214 to R220), from what it makes of
the view of the core (`Received`, `frame_transmitted`), with and without clock stretching (R223); what a frame cut by a START or STOP
leaves behind (R222); a reset in any state, and the idle bus after it.
-/

namespace Sys2Proof.Machine

/-! ### What a frame the core receives leaves (47 R214, R215, R217, R218) -/

/-- A frame of a byte was received from `s` to `t`: eight slots made the byte complete, the state's rule acted on it, and slot 9
followed. -/
abbrev Received (byte : Byte) (s t : State) : Prop :=
  view t = ({ view s with bitCount := 8, value := byte, wire := recordByte s.wire byte } : View).lowStep.lowStep.slot true

/-- `2*ADDR` and `2*ADDR + 1` (30 R86). -/
theorem addressByte_eq (cfg : Config) (rw : Bit) :
    cfg.addressByte rw = BitVec.ofNat 8 (2 * cfg.addr.toNat + rw.toNat) := by
  apply BitVec.eq_of_toNat_eq
  have := cfg.addr.isLt
  rw [Config.addressByte, BitVec.toNat_concat, BitVec.toNat_ofNat, Nat.mod_eq_of_lt (by cases rw <;> simp <;> omega), Nat.mul_comm]

/-- The core's own address: the direction is captured, and for a read bit 7 of the addressed cell is driven. -/
theorem addressed_of_received {rw : Bit} {s t : State} (hst : s.regs.state = .rcvAddress) (hd : s.regs.dataDrv = false)
    (h : Received (s.cfg.addressByte rw) s t) :
    FrameResult t (if rw then .read else .rcvOffset) (BitVec.ofNat 8 (2 * s.cfg.addr.toNat + rw.toNat)) s.regs.offset rw rw
      (if rw then (s.mem.read s.regs.offset).getLsbD 7 else s.regs.dataBit) ∧
    SeenOnWire t (BitVec.ofNat 8 (2 * s.cfg.addr.toNat + rw.toNat)) false ∧ MemoryKept s t := by
  have hv := h.trans (received_address rw hst)
  simp only [view, View.mk.injEq, hd, Bool.or_false, addressByte_eq] at hv
  obtain ⟨-, hstate, hcount, hvalue, hoff, hread, hdrv, hbit, hmem, hwire⟩ := hv
  exact ⟨⟨⟨hstate, hoff, hread, hdrv, hbit⟩, hcount, hvalue⟩, hwire.trans (frameOf_eq _ _), fun a => by rw [hmem]⟩

theorem offsetSet_of_received {o : Byte} {s t : State} (hst : s.regs.state = .rcvOffset) (hd : s.regs.dataDrv = false)
    (h : Received o s t) : OffsetSet o s t := by
  have hv := h.trans (received_offset o hst)
  simp only [view, View.mk.injEq] at hv
  obtain ⟨-, hstate, hcount, hvalue, hoff, hread, hdrv, hbit, hmem, hwire⟩ := hv
  exact ⟨⟨⟨hstate, hoff, hread, hdrv.trans hd, hbit⟩, hcount, hvalue⟩, hwire.trans (frameOf_eq _ _), fun a => by rw [hmem]⟩

theorem byteStored_of_received {d : Byte} {s t : State} (hwf : s.mem.wf) (hst : s.regs.state = .rcvData)
    (hd : s.regs.dataDrv = false) (h : Received d s t) : ByteStored d s t := by
  have hv := h.trans (received_data d hst)
  simp only [view, View.mk.injEq] at hv
  obtain ⟨-, hstate, hcount, hvalue, hoff, hread, hdrv, hbit, hmem, hwire⟩ := hv
  exact ⟨⟨⟨hstate.trans hst, hoff, hread, hdrv.trans hd, hbit⟩, hcount, hvalue⟩, hwire.trans (frameOf_eq _ _),
    fun a => by rw [hmem, Memory.read_write hwf]⟩

/-- In a receive state no data bit is driven. -/
theorem receives_idle {st : ProtocolState} {s : State} (hinv : TickInv s) (hst : s.regs.state = st) (hr : receives st = true) :
    receives s.regs.state = true ∧ s.regs.dataDrv = false := by
  subst hst
  exact ⟨hr, dataDrv_eq_false hinv.2 (ne_read_of_receives hr)⟩

/-- A frame the core acknowledges, not stretched, and what follows from its reception. -/
theorem exec_received {i : Instr} {byte : Byte} {s : State} {P : State → Prop} (hi : isBusOp i = true)
    (hexec : exec i s = frame byte true s) (h : FrameReady s) (hstore : StoreReady (ackTick s) s.pace.high s)
    (hr : receives s.regs.state = true) (hb : s.regs.bitCount = 0) (hP : ∀ t, Received byte s t → P t) :
    ∃ t, exec i s = .next t ∧ Performed (frameTicks s) s t ∧ TickInv t ∧ P t := by
  obtain ⟨t, ht, hp, hv⟩ := frame_received byte h hstore hr hb
  have hti := hexec.trans ht
  exact ⟨t, hti, hp, tickInv_of_exec hi h.1 hti, hP t hv⟩

/-- Settles O47: the core's own address is received and acknowledged, and the direction bit chooses where the acknowledge ends. -/
theorem addressFrames : Obligations.AddressFrames := by
  intro s hready hstore hst hzero
  obtain ⟨hr, hd⟩ := receives_idle hready.1 hst rfl
  exact ⟨exec_received rfl rfl hready hstore hr hzero fun _ => addressed_of_received (rw := false) hst hd,
    exec_received rfl rfl hready hstore hr hzero fun _ => addressed_of_received (rw := true) hst hd⟩

/-- Settles O50: the byte is received in RCV_OFFSET, where its rule loads it. -/
theorem offsetFrame : Obligations.OffsetFrame := by
  intro s o hready hstore hst hzero
  obtain ⟨hr, hd⟩ := receives_idle hready.1 hst rfl
  exact exec_received rfl rfl hready hstore hr hzero fun _ => offsetSet_of_received hst hd

/-- Settles O51: the byte is received in RCV_DATA, where its rule writes it, and the end of the acknowledge moves the offset on. -/
theorem writeDataFrame : Obligations.WriteDataFrame := by
  intro s d hready hstore hst hzero
  obtain ⟨hr, hd⟩ := receives_idle hready.1 hst rfl
  obtain ⟨⟨-, -, -, hwf, -⟩, -⟩ := hready.1
  exact exec_received rfl rfl hready hstore hr hzero fun _ => byteStored_of_received hwf hst hd

/-! ### A frame for another device (47 R216) -/

/-- Another address, complete: the core goes back to WAIT_START, and slot 9 is ignored there (44 R163; 42 R131). -/
theorem received_miss {v : View} {byte : Byte} (hs : v.st = .rcvAddress) (hmiss : byte.extractLsb' 1 7 ≠ v.cfg.addr) :
    ({ v with bitCount := 8, value := byte, wire := recordByte v.wire byte } : View).lowStep.lowStep =
      { v with st := .waitStart, bitCount := 8, value := byte, wire := recordByte v.wire byte } := by
  obtain ⟨cfg, st, bc, value, off, ir, dd, db, mem, w⟩ := v
  obtain rfl : st = .rcvAddress := hs
  simp only [View.lowStep, reduceIte, hmiss]

/-- Settles O48: the eighth bit leads to WAIT_START, so the core neither stretches nor drives slot 9. -/
theorem addressMissFrame : Obligations.AddressMissFrame := by
  intro s byte ack hready hst hzero hmiss
  obtain ⟨hr, hd⟩ := receives_idle hready.1 hst rfl
  obtain ⟨hu, hslots⟩ := slots_receiveByte (v := view s) byte hr hzero hd
  rw [received_miss hst (mt (extract_eq_addr_iff byte s.cfg.addr).1 hmiss)] at hslots
  have hreacts : Reacts (view s) (view s) := reacts_receives hr (by show s.regs.bitCount ≠ 8; omega)
  obtain ⟨t, ht, hp, hv⟩ := frame_performed (ack := ack) hready hreacts hu (by rw [hslots]; rfl)
  rw [slots_append, hslots, View.slots, View.slots, slot_ignored ack rfl hd] at hv
  simp only [view, View.mk.injEq, reduceIte] at hv
  obtain ⟨-, hstate, hcount, hvalue, hoff, hread, hdrv, hbit, hmem, hwire⟩ := hv
  exact ⟨t, ht, hp, fun a => by rw [hmem], tickInv_of_exec (i := .addrMiss byte ack) rfl hready.1 ht,
    ⟨⟨hstate, hoff, hread, hdrv.trans hd, hbit⟩, hcount, hvalue⟩, hwire.trans (recordByte_ack s.wire byte ack)⟩

/-! ### Frames of a byte the core transmits (47 R219, R220) -/

/-- Settles O52: eight slots transmit the addressed cell, and the master's answer in slot 9 decides what follows. -/
theorem readDataFrames : Obligations.ReadDataFrames := by
  intro s hready hst hzero
  constructor
  · obtain ⟨t, ht, hp, hv⟩ := frame_transmitted false hready hst hzero
    have hack := hv.trans (transmitted_ack (v := view s) hst)
    simp only [view, View.mk.injEq] at hack
    obtain ⟨-, hstate, hcount, hvalue, hoff, hread, hdrv, hbit, hmem, hwire⟩ := hack
    exact ⟨t, ht, hp, fun a => by rw [hmem], tickInv_of_exec (i := .rdataA) rfl hready.1 ht,
      ⟨⟨hstate.trans hst, hoff, hread, hdrv, hbit⟩, hcount, hvalue⟩, hwire.trans (frameOf_eq _ _)⟩
  · obtain ⟨t, ht, hp, hv⟩ := frame_transmitted true hready hst hzero
    have hnack := hv.trans (transmitted_nack (view s))
    simp only [view, View.mk.injEq] at hnack
    obtain ⟨-, hstate, hcount, hvalue, hoff, hread, hdrv, hbit, hmem, hwire⟩ := hnack
    exact ⟨t, ht, hp, fun a => by rw [hmem], tickInv_of_exec (i := .rdataN) rfl hready.1 ht,
      ⟨⟨hstate, hoff, hread, hdrv, hbit⟩, hcount, hvalue⟩, hwire.trans (frameOf_eq _ _)⟩

/-! ### Clock stretching (47 R223) -/

/-- One more step after a run of steps. -/
theorem runSteps_succ {n : Nat} {s u t : State} (h : runSteps n s = .next u) (h' : step u = .next t) :
    runSteps (n + 1) s = .next t := by
  induction n generalizing s with
  | zero =>
    cases h
    rw [runSteps, h']
    rfl
  | succ n ih =>
    obtain ⟨v, hstep, hrun⟩ := andThen_cases h
    rw [runSteps, hstep]
    exact ih hrun

/-- The inputs of a stretched frame: those up to the release of SCL for slot 9, those of the busy store, and the others. -/
theorem stretched_inputs {k : Nat} {s : State} (hpeace : Peaceful (frameTicks s + k) s) (hbusy : StoreBusy (ackTick s) k s)
    (hready : StoreReady (ackTick s + k) s.pace.high s) :
    ∃ a b c, a.length = ackTick s ∧ b.length = k ∧ c.length = s.pace.high + s.pace.rest ∧ Feeds (a ++ (b ++ c)) s ∧
      (∀ inp ∈ a ++ (b ++ c), Calm inp) ∧ (∀ inp ∈ b, inp.storeBusy = true) ∧
      ∀ inp ∈ c.take s.pace.high, inp.storeBusy = false := by
  have hsum : frameTicks s + k = ackTick s + (k + (s.pace.high + s.pace.rest)) := by
    simp only [frameTicks, ackTick, slotTicks]
    omega
  rw [hsum] at hpeace
  obtain ⟨a, bc, ha, hbc, -, hfeeds, hcalm⟩ := peaceful_split hpeace
  obtain ⟨b, c, rfl, hb, hc⟩ := split_inputs hbc
  obtain ⟨c1, c2, rfl, hc1, -⟩ := split_inputs hc
  have hb' : ((coming s).drop (ackTick s)).take k = b := inputs_at hfeeds ha hb
  have hc1' : ((coming s).drop (ackTick s + k)).take s.pace.high = c1 :=
    inputs_at (a := a ++ b) (c := c2) (by rwa [List.append_assoc]) (by rw [List.length_append, ha, hb]) hc1
  refine ⟨a, b, c1 ++ c2, ha, hb, hc, hfeeds, hcalm, by rwa [StoreBusy, hb'] at hbusy, ?_⟩
  rw [← hc1, List.take_left]
  rwa [StoreReady, hc1'] at hready

/-- A frame the core acknowledges, stretched for `k` ticks: it stops with the master waiting, each of the `k` ticks is a step, and one
more step ends it as if it had not been stretched. -/
theorem exec_received_stretched {i : Instr} {byte : Byte} {s : State} {k : Nat} {P : State → Prop}
    (hexec : exec i s = frame byte true s) (hinv : TickInv s) (hrest : AtRest s) (hpaced : Paced s) (hk : 0 < k)
    (hpeace : Peaceful (frameTicks s + k) s) (hbusy : StoreBusy (ackTick s) k s)
    (hready : StoreReady (ackTick s + k) s.pace.high s) (hzero : s.regs.bitCount = 0)
    (hans : Answers s.cfg s.regs.state byte) (hP : ∀ t, Received byte s t → P t) :
    ∃ u t, exec i s = .next u ∧ u.bus ≠ [] ∧ runSteps (k + 1) u = .next t ∧ Performed (frameTicks s + k) s t ∧ P t := by
  obtain ⟨hr, hd⟩ := receives_idle hinv rfl hans.1
  obtain ⟨⟨hsamp, -⟩, -⟩ := hinv
  obtain ⟨hunstretched, hack⟩ := slots_answered (v := view s) hans hzero hd
  obtain ⟨-, hslots⟩ := slots_receiveByte (v := view s) byte hr hzero hd
  have hfalls : Falls (view s) s :=
    falls_atRest hsamp hrest (reacts_receives hr (by show s.regs.bitCount ≠ 8; omega))
  obtain ⟨a, b, c, ha, hb, hc, hfeeds, hcalm, hb1, hc0⟩ := stretched_inputs hpeace hbusy hready
  obtain ⟨inp, rest, rfl⟩ := List.exists_cons_of_length_pos (hb ▸ hk)
  obtain ⟨u, hu, hstretched, hea, hfeedsu⟩ := frame_stretched hfalls hrest.1 hpaced hfeeds (fun i hi => hcalm i (by simp [hi])) ha
    hunstretched hack (hcalm inp (by simp)) (hb1 inp (by simp))
  obtain ⟨v, hv, hstretched', hfeedsv, heb, -⟩ := hstretched.steps (a := inp :: rest) hfeedsu
    (fun i hi => hcalm i (List.mem_append_right a (List.mem_append_left c hi))) hb1
  obtain ⟨t, ht, hview, -, hrest', -, hec, -⟩ := hstretched'.finish (c := []) hpaced (by rwa [List.append_nil])
    (fun i hi => hcalm i (by simp [hi])) hc hc0
  rw [hb] at hv heb
  have helapsed := (hea.trans heb).trans hec
  rw [show ackTick s + k + (s.pace.high + s.pace.rest) = frameTicks s + k by
    simp only [frameTicks, ackTick, slotTicks]; omega] at helapsed
  rw [hslots] at hview
  obtain ⟨-, -, hbus⟩ := hstretched.shows
  exact ⟨u, t, hexec.trans hu, hbus, runSteps_succ hv ht, performed_of_elapsed helapsed hrest', hP t hview⟩

/-- Settles O53: while the store is busy every step is a tick that changes nothing, and then slot 9 goes on from where it stopped. -/
theorem stretchedFrameEndsTheSame : Obligations.StretchedFrameEndsTheSame := by
  intro s k hinv hrest hpaced hk hpeace hbusy hready hzero
  have stretched := fun (i : Instr) (byte : Byte) (hexec : exec i s = frame byte true s) {P : State → Prop} =>
    exec_received_stretched (P := P) hexec hinv hrest hpaced hk hpeace hbusy hready hzero
  obtain ⟨⟨-, -, -, hwf, -⟩, -⟩ := id hinv
  refine ⟨fun hst => ?_, fun hst => ?_, fun o hst => ?_, fun d hst => ?_⟩
  · obtain ⟨hr, hd⟩ := receives_idle hinv hst rfl
    exact stretched .addrW _ rfl (answers_addressByte s.cfg false _ hr) fun _ => addressed_of_received (rw := false) hst hd
  · obtain ⟨hr, hd⟩ := receives_idle hinv hst rfl
    exact stretched .addrR _ rfl (answers_addressByte s.cfg true _ hr) fun _ => addressed_of_received (rw := true) hst hd
  · obtain ⟨hr, hd⟩ := receives_idle hinv hst rfl
    exact stretched (.offset o) o rfl ⟨hr, by rw [hst]; nofun⟩ fun _ => offsetSet_of_received hst hd
  · obtain ⟨hr, hd⟩ := receives_idle hinv hst rfl
    exact stretched (.wdata d) d rfl ⟨hr, by rw [hst]; nofun⟩ fun _ => byteStored_of_received hwf hst hd

/-! ### Cut frames (47 R222) -/

/-- A bus operation that is over leaves the lines to the master as its last phase does. -/
theorem master_of_play {phases : List Phase} {s : State} (h : (play phases s).bus = []) :
    (play phases s).master = phases.foldl (fun _ ph => ⟨ph.scl, ph.sda⟩) s.master := by
  induction phases generalizing s with
  | nil => rfl
  | cons ph rest ih =>
    rw [play] at h ⊢
    split at h
    next => exact absurd h (List.cons_ne_nil ph rest)
    next hfree => rw [if_neg hfree, ih h, (perform_elapsed ph s).2, List.foldl_cons]

/-- After a bit slot the master rests with SCL high and SDA at the bit (log 12). -/
theorem master_of_bitOp {b : Bit} {s t : State} (ht : exec (bitOp b) s = .next t) (hbus : t.bus = []) :
    t.master = ⟨true, b⟩ := by
  rw [exec_bitOp] at ht
  cases ht
  rw [master_of_play hbus, List.foldl_append]
  rfl

/-- One more operation after a run of operations. -/
theorem runOps_concat {is : List Instr} {i : Instr} {s u t : State} (h : runOps is s = .next u) (h' : exec i u = .next t) :
    runOps (is ++ [i]) s = .next t := by
  rw [runOps_append, h, andThen_next, runOps, h']
  rfl

/-- After bit slots the master can make a START or STOP at once if the last bit is the level it starts from; if not, the core sees
one slot more. -/
theorem slotsSeen_eq {bits : List Bit} {d : Bit} {s u : State} (hu : runOps (bits.map bitOp) s = .next u) (hbus : u.bus = []) :
    slotsSeen d s bits = if direct d u then bits else bits ++ [d] := by
  obtain rfl | ⟨init, b, rfl⟩ := List.eq_nil_or_concat' bits
  · cases hu
    rw [slotsSeen, direct]
    cases s.master.scl <;> cases d <;> rfl
  · rw [List.map_append, runOps_append] at hu
    obtain ⟨v, -, hv⟩ := andThen_cases hu
    obtain ⟨w, hw, hend⟩ := andThen_cases hv
    cases hend
    rw [slotsSeen, direct, master_of_bitOp hw hbus, List.getLast?_concat]
    rfl

/-- `condition_performed` with what it leaves open: the core sees the rising edge before the condition exactly if the lines are not
there already. -/
theorem condition_seen {d : Bit} {s : State} (hinv : TickInv s) (hrest : AtRest s) (hpaced : Paced s)
    (hpeace : Peaceful (conditionTicks d s) s) (hstays : Reacts (view s) (view s)) (hoe : (view s).oe = false)
    (hstill : stretches (view s).st = false) :
    ∃ t, condition d s = .next t ∧ AtRest t ∧
      view t = (if direct d s then view s else (view s).riseStep d).edgeStep (!d) := by
  cases hd : direct d s with
  | true =>
    obtain ⟨t, ht, ⟨-, -, -, -, hrest'⟩, -, hscl, hprev, hv⟩ := condition_is_tick hinv hrest hpaced hpeace hd hoe
    exact ⟨t, ht, hrest', hv.trans (view_sdaMoves hscl hprev)⟩
  | false =>
    obtain ⟨⟨hsamp, -⟩, -⟩ := hinv
    rw [conditionTicks, if_neg (by simp [hd])] at hpeace
    obtain ⟨hfeeds, hcalm, hlen⟩ := peaceful_feeds hpeace
    obtain ⟨t, ht, hv, -, hrest', -⟩ := condition_indirect (c := []) (falls_atRest hsamp hrest hstays) hrest.1 hpaced
      (by rwa [List.append_nil]) hcalm hlen hd hoe hstill
    exact ⟨t, ht, hrest', hv⟩

/-- A receive state holds no line. -/
theorem View.oe_of_receives {v : View} (hr : receives v.st = true) (hd : v.dataDrv = false) : v.oe = false := by
  obtain ⟨cfg, st, bc, value, off, ir, dd, db, mem, w⟩ := v
  obtain rfl : dd = false := hd
  cases st with
  | rcvAddress | rcvOffset | rcvData => rfl
  | _ => cases hr

/-- In a receive state a rising edge before the eighth bit counts and shifts (42 R132, R133). -/
theorem riseStep_receives {v : View} (d : Bit) (hr : receives v.st = true) (h8 : v.bitCount ≠ 8) :
    v.riseStep d = { v with bitCount := v.bitCount + 1, value := shifted v.value [d] } := by
  rw [← shiftLeftIn_eq_shifted]
  obtain ⟨cfg, st, bc, value, off, ir, dd, db, mem, w⟩ := v
  replace h8 : bc ≠ 8 := h8
  cases st with
  | rcvAddress | rcvOffset | rcvData => simp [View.riseStep, View.holdStep, View.count, receives, h8]
  | _ => cases hr

/-- A START or STOP before the byte is complete, the slot the core may see before it included (44 R177, R178). -/
theorem edgeStep_of_cut {v : View} (now d : Bit) (hr : receives v.st = true) (h8 : v.bitCount + (if now then 0 else 1) < 8) :
    (if now then v else v.riseStep d).edgeStep (!d) =
      { v with
        st := if d then .rcvAddress else .waitStart
        bitCount := if d then 0 else v.bitCount + (if now then 0 else 1)
        value := if now then v.value else shifted v.value [d]
        dataDrv := false } := by
  cases now with
  | true => exact edgeStep_of_holdStep d (holdStep_receives hr h8.ne)
  | false =>
    show (v.riseStep d).edgeStep (!d) = _
    rw [riseStep_receives d hr (Nat.lt_of_succ_lt h8).ne]
    exact edgeStep_of_holdStep d (holdStep_receives hr h8.ne)

/-- Some bits of a byte, with the premises of the START or STOP after them. -/
theorem runBits_then_condition {bits : List Bit} {s : State} (hinv : TickInv s) (hrest : AtRest s) (hpaced : Paced s)
    (hpeace : Peaceful ((bits.length + 1) * frameTicks s) s) (hr : InReceive s) (hzero : s.regs.bitCount = 0)
    (hlen : bits.length ≤ 8) :
    ∃ u wire, runOps (bits.map bitOp) s = .next u ∧ TickInv u ∧ AtRest u ∧ Paced u ∧
      (∀ d, Peaceful (conditionTicks d u) u) ∧
      view u =
        ({ view s with bitCount := bits.length, value := shifted s.regs.value bits, wire := wire } : View).holdStep := by
  have hbit : bitTicks s ≤ frameTicks s := by
    simp only [bitTicks, frameTicks, slotTicks]
    omega
  have hlong : frameTicks s ≠ 1 := by
    obtain ⟨-, -, -, -, hlong⟩ := hpaced
    rw [frameTicks]
    omega
  have hticks : bits.length * bitTicks s + frameTicks s ≤ (bits.length + 1) * frameTicks s := by
    rw [Nat.succ_mul]
    exact Nat.add_le_add_right (Nat.mul_le_mul_left _ hbit) _
  obtain ⟨u, wire, hu, hp, hinvu, hpeaceu, hv⟩ := runBits_receives bits hinv hrest hpaced (peaceful_mono hpeace hticks) hlong hr
    (by omega) (by omega)
  rw [hzero, Nat.zero_add] at hv
  obtain ⟨-, -, hpace, -, hrestu⟩ := id hp
  refine ⟨u, wire, hu, hinvu, hrestu, paced_of_performed hp hpaced, fun d => peaceful_mono hpeaceu ?_, hv⟩
  simp only [conditionTicks, frameTicks, slotTicks, hpace]
  split <;> omega

/-- A frame cut before its byte is complete: the shifter has seen the slots, and nothing else has moved but the state. -/
theorem cut_before_byte {bits : List Bit} (d : Bit) {s : State} (hinv : TickInv s) (hrest : AtRest s) (hpaced : Paced s)
    (hpeace : Peaceful ((bits.length + 1) * frameTicks s) s) (hr : InReceive s) (hzero : s.regs.bitCount = 0)
    (hlen : (slotsSeen d s bits).length < 8) :
    ∃ u t, runOps (bits.map bitOp) s = .next u ∧ condition d u = .next t ∧ AtRest t ∧
      t.regs.bitCount = (if d then 0 else (slotsSeen d s bits).length) ∧
      t.regs.value = shifted s.regs.value (slotsSeen d s bits) ∧
      Transaction t (if d then .rcvAddress else .waitStart) s.regs.offset s.regs.isRead false s.regs.dataBit ∧
      MemoryKept s t := by
  obtain ⟨hrcv, hdrv⟩ := receives_idle hinv rfl (receives_iff_inReceive.2 hr)
  have hbits : bits.length ≤ (slotsSeen d s bits).length := by
    rw [slotsSeen, apply_ite List.length]
    split_ifs <;> simp
  obtain ⟨u, wire, hu, hinvu, hrestu, hpacedu, hpeaceu, hvu⟩ :=
    runBits_then_condition hinv hrest hpaced hpeace hr hzero (by omega)
  rw [holdStep_receives hrcv (by show bits.length ≠ 8; omega)] at hvu
  have hseen := slotsSeen_eq (d := d) hu hrestu.1
  have hcount : bits.length + (if direct d u then 0 else 1) = (slotsSeen d s bits).length := by
    rw [hseen]
    split <;> simp
  have hvalue : (if direct d u then shifted s.regs.value bits else shifted (shifted s.regs.value bits) [d]) =
      shifted s.regs.value (slotsSeen d s bits) := by
    rw [hseen, shifted, shifted, shifted]
    split <;> simp
  obtain ⟨t, ht, hrestt, hvt⟩ := condition_seen (d := d) hinvu hrestu hpacedu (hpeaceu d)
    (hvu ▸ reacts_receives hrcv (by show bits.length ≠ 8; omega)) (hvu ▸ View.oe_of_receives hrcv hdrv)
    (hvu ▸ not_stretches_of_receives hrcv)
  rw [hvu, edgeStep_of_cut (direct d u) d hrcv (by show bits.length + _ < 8; omega)] at hvt
  simp only [view, View.mk.injEq, hcount, hvalue] at hvt
  obtain ⟨-, hst, hcount', hvalue', hoff, hread, hdrv', hbit, hmem, -⟩ := hvt
  exact ⟨u, t, hu, ht, hrestt, hcount', hvalue', ⟨hst, hoff, hread, hdrv', hbit⟩, fun a => by rw [hmem]⟩

/-- The offset and the data byte act as soon as they are complete, and a START or STOP in their ACK_x0 state adds nothing (44 R167,
R171, R181). -/
theorem edgeStep_of_byte {v : View} {byte : Byte} {wire : BitVec 9} (d : Bit) (hst : v.st = .rcvOffset ∨ v.st = .rcvData) :
    ({ v with bitCount := 8, value := byte, wire := wire } : View).holdStep.edgeStep (!d) =
      { v with
        st := if d then .rcvAddress else .waitStart
        bitCount := if d then 0 else 8
        value := byte
        offset := if v.st = .rcvOffset then byte.toNat % v.cfg.N else v.offset
        mem := if v.st = .rcvData then v.mem.write v.offset byte else v.mem
        dataDrv := false
        wire := wire } := by
  obtain ⟨cfg, st, bc, value, off, ir, dd, db, mem, w⟩ := v
  rw [View.edge_hold]
  obtain hst | hst := hst
  · obtain rfl : st = .rcvOffset := hst
    cases d <;> rfl
  · obtain rfl : st = .rcvData := hst
    cases d <;> rfl

/-- A frame cut right after its eighth bit, by the condition that can follow that bit at once. -/
theorem cut_after_byte (byte : Byte) {s : State} (hinv : TickInv s) (hrest : AtRest s) (hpaced : Paced s)
    (hpeace : Peaceful (9 * frameTicks s) s) (hst : s.regs.state = .rcvOffset ∨ s.regs.state = .rcvData)
    (hzero : s.regs.bitCount = 0) :
    ∃ u t, runOps ((byteBits byte).map bitOp) s = .next u ∧ condition (byte.getLsbD 0) u = .next t ∧ AtRest t ∧
      t.regs.value = byte ∧ t.regs.bitCount = (if byte.getLsbD 0 then 0 else 8) ∧
      Transaction t (if byte.getLsbD 0 then .rcvAddress else .waitStart)
        (if s.regs.state = .rcvOffset then byte.toNat % s.cfg.N else s.regs.offset) s.regs.isRead false s.regs.dataBit ∧
      ∀ a, t.mem.read a = if s.regs.state = .rcvData ∧ a = s.regs.offset then byte else s.mem.read a := by
  have hr : InReceive s := .inr hst
  obtain ⟨hrcv, hdrv⟩ := receives_idle hinv rfl (receives_iff_inReceive.2 hr)
  obtain ⟨u, wire, hu, hinvu, hrestu, hpacedu, hpeaceu, hvu⟩ :=
    runBits_then_condition (bits := byteBits byte) hinv hrest hpaced hpeace hr hzero le_rfl
  rw [shifted_byteBits] at hvu
  -- the last bit is the level the condition starts from
  have hdirect : direct (byte.getLsbD 0) u = true := by
    by_contra hnot
    have hseen := slotsSeen_eq (d := byte.getLsbD 0) hu hrestu.1
    rw [if_neg hnot, slotsSeen, byteBits] at hseen
    simp at hseen
  have hoe : (view u).oe = false := by
    rw [hvu, View.oe_hold]
    exact View.oe_of_receives hrcv hdrv
  obtain ⟨t, ht, ⟨-, -, -, -, hrestt⟩, -, hscl, hprev, hvt⟩ := condition_is_tick hinvu hrestu hpacedu (hpeaceu _) hdirect hoe
  have hedge := hvt.trans (view_sdaMoves hscl hprev)
  rw [hvu] at hedge
  have hleft := hedge.trans (edgeStep_of_byte (byte.getLsbD 0) hst)
  simp only [view, View.mk.injEq] at hleft
  obtain ⟨-, hst', hcount, hvalue, hoff, hread, hdrv', hbit, hmem, -⟩ := hleft
  obtain ⟨⟨-, -, -, hwf, -⟩, -⟩ := hinv
  refine ⟨u, t, hu, ht, hrestt, hvalue, hcount, ⟨hst', hoff, hread, hdrv', hbit⟩, fun a => ?_⟩
  rw [hmem]
  by_cases hdata : s.regs.state = .rcvData
  · simp [hdata, Memory.read_write hwf]
  · simp [hdata]

/-- Settles O46: the bits run as slots of a receive state, and the START or STOP that cuts them is seen right after them or one slot
later. -/
theorem cutFrameResidue : Obligations.CutFrameResidue := by
  refine ⟨fun bits s hinv hrest hpaced hpeace hr hzero => ⟨fun hlen => ?_, fun hlen => ?_⟩,
    fun byte s hinv hrest hpaced hpeace hst hzero => ?_⟩
  · obtain ⟨u, t, hu, ht, hleft⟩ := cut_before_byte true hinv hrest hpaced hpeace hr hzero hlen
    exact ⟨t, runOps_concat (i := .condSr) hu ht, runOps_concat (i := .condS) hu ht, hleft⟩
  · obtain ⟨u, t, hu, ht, hleft⟩ := cut_before_byte false hinv hrest hpaced hpeace hr hzero hlen
    exact ⟨t, runOps_concat (i := .condP) hu ht, hleft⟩
  · obtain ⟨u, t, hu, ht, hleft⟩ := cut_after_byte byte hinv hrest hpaced hpeace hst hzero
    refine ⟨t, runOps_concat hu ?_, hleft⟩
    cases hbit : byte.getLsbD 0 <;> rw [hbit] at ht <;> exact ht

/-! ### Reset (R250, R251, R253) -/

/-- Settles O6: the reset input comes before everything else a step could do. -/
theorem resetInputRunsReset : Obligations.ResetInputRunsReset := fun s hr => ⟨_, exec_reset s, step_of_reset hr⟩

/-- Settles O23: a reset touches the registers, the signals and the cell of a write request of its own tick, and nothing else. -/
theorem resetDuringOperation : Obligations.ResetDuringOperation := by
  intro s hwf
  refine ⟨_, exec_reset s, rfl, ⟨rfl, rfl, rfl, rfl, rfl, rfl, rfl, rfl⟩, ⟨rfl, rfl⟩, rfl, rfl, rfl, rfl, rfl, fun a hcell => ?_⟩
  rw [resetState_mem, resetMem_read hwf, if_neg]
  rintro ⟨hwe, ha⟩
  obtain ⟨hst, h8⟩ := strobes_memWe_iff.1 hwe
  exact hcell ⟨hst, h8, ha⟩

/-! ### The idle bus (R252, R254) -/

/-- The levels of SDA from the raw line to the edge history, each one 1 only if the one before is: SDA has only risen. -/
structure SdaRises (s : State) : Prop where
  stages : s.regs.sdaFf2 = true → s.regs.sdaFf1 = true
  sample : s.regs.sda = true → s.regs.sdaFf2 = true
  prev : s.regs.sdaPrev = true → s.regs.sda = true

theorem SdaRises.not_showsStart {s : State} (h : SdaRises s) : ¬ showsStart s := fun ⟨_, hprev, hsda⟩ =>
  Bool.false_ne_true (hsda.symm.trans (h.prev hprev))

/-- A tick with the raw line high. -/
theorem SdaRises.tick {s : State} (h : SdaRises s) (hin : s.inputs.sdaIn = true) : SdaRises (tickState s) := by
  refine ⟨fun _ => hin, fun hsda => ?_, fun hsda => ?_⟩
  · rw [tickState_sda, nextSda_eq] at hsda
    split at hsda
    exacts [h.stages hsda, h.stages (h.sample hsda)]
  · rw [tickState_sda, nextSda_eq]
    split
    exacts [h.sample hsda, hsda]

/-- In WAIT_START a tick without a START moves nothing beyond the line registers: a STOP leads where the core is (44 R162, R178). -/
theorem view_tickState_waitStart {s : State} (hst : s.regs.state = .waitStart) (hd : s.regs.dataDrv = false)
    (h8 : s.regs.bitCount ≠ 8) (hno : ¬ showsStart s) : view (tickState s) = view s := by
  have hstate : nextState s = s.regs.state := by
    rw [nextState_eq, if_neg hno, hst, tableNext, ite_self]
  have hcount : nextBitCount s = s.regs.bitCount := by
    simp [nextBitCount_eq, hno, hst, h8]
  have hvalue : nextValue s = s.regs.value := by
    simp [nextValue_eq, InReceive, hst]
  have hoff : nextOffset s = s.regs.offset := by
    simp [nextOffset_eq, hst]
  have hread : nextIsRead s = s.regs.isRead := by
    simp [nextIsRead_eq, hst]
  have hdrv : nextDataDrv s = s.regs.dataDrv := by
    simp [nextDataDrv_eq, hst, hd]
  have hmem := nextMem_of_ne_rcvData (s := s) (by rw [hst]; decide)
  have hbit := nextDataBit_of_ne_read (s := s) (by rw [hst]; decide)
  rw [view_tickState, hstate, hcount, hvalue, hoff, hread, hdrv, hmem, hbit]
  rfl

/-- Along a run from reset with the raw SDA line high the core shows no START, so it stays as at reset. -/
theorem afterTicks_idle (cfg : Config) {inps : List Inputs} (hin : ∀ inp ∈ inps, inp.sdaIn = true) :
    SdaRises (afterTicks inps (State.resetOf cfg)) ∧
      view (afterTicks inps (State.resetOf cfg)) = view (State.resetOf cfg) := by
  induction inps using List.reverseRecOn with
  | nil => exact ⟨⟨nofun, nofun, nofun⟩, rfl⟩
  | append_singleton inps inp ih =>
    obtain ⟨hrises, hview⟩ := ih fun i hi => hin i (List.mem_append_left _ hi)
    have hnow : SdaRises (withInputs inp (afterTicks inps (State.resetOf cfg))) := ⟨hrises.stages, hrises.sample, hrises.prev⟩
    rw [afterTicks_concat]
    refine ⟨hnow.tick (hin inp (by simp)), ?_⟩
    have hstill := view_tickState_waitStart (s := withInputs inp (afterTicks inps (State.resetOf cfg)))
      (congrArg View.st hview) (congrArg View.dataDrv hview) ((congrArg View.bitCount hview).trans_ne (show 0 ≠ 8 by decide))
      hnow.not_showsStart
    exact hstill.trans hview

/-- A line held for `K + 3` ticks is seen, and was seen a tick before (40 R115; 41 R120). -/
theorem lines_of_held {s : State} {inps : List Inputs} {c d : Bit} (hinv : Invariant s) (hlen : s.cfg.K + 3 ≤ inps.length)
    (hheld : ∀ inp ∈ inps, inp.sclIn = c ∧ inp.sdaIn = d) :
    (afterTicks inps s).regs.scl = c ∧ (afterTicks inps s).regs.sda = d ∧ (afterTicks inps s).regs.sclPrev = c ∧
      (afterTicks inps s).regs.sdaPrev = d := by
  have seen : ∀ run : List Inputs, s.cfg.K + 2 ≤ run.length → (∀ inp ∈ run, inp.sclIn = c ∧ inp.sdaIn = d) →
      (afterTicks run s).regs.scl = c ∧ (afterTicks run s).regs.sda = d := by
    intro run hrun hlevels
    obtain ⟨t, ht, hlines⟩ := heldLevelIsCaptured s run c d hinv hrun hlevels
    cases (runTicks_eq_next run s).symm.trans ht
    exact hlines
  obtain ⟨hscl, hsda⟩ := seen inps (by omega) hheld
  obtain rfl | ⟨init, last, rfl⟩ := List.eq_nil_or_concat' inps
  · simp at hlen
  · rw [List.length_append, List.length_singleton] at hlen
    obtain ⟨hprev, hprev'⟩ := seen init (by omega) fun inp hi => hheld inp (List.mem_append_left _ hi)
    refine ⟨hscl, hsda, ?_⟩
    rw [afterTicks_concat]
    exact ⟨hprev, hprev'⟩

/-- Settles O24: both lines only rise, which is at most a STOP, and the core is in WAIT_START already. -/
theorem idleBusAfterReset : Obligations.IdleBusAfterReset := by
  intro cfg inps hin
  obtain ⟨-, hview⟩ := afterTicks_idle cfg fun inp hi => (hin inp hi).2
  simp only [view, View.mk.injEq] at hview
  obtain ⟨-, hst, hcount, hvalue, hoff, hread, hdrv, hbit, hmem, -⟩ := hview
  exact ⟨_, runTicks_eq_next inps _, ⟨hst, hoff, hread, hdrv, hbit⟩, hcount, hvalue, fun a => by rw [hmem],
    fun hlen => lines_of_held (resetOf_tickInv cfg).1 hlen hin⟩

end Sys2Proof.Machine
end
